-- ==== Sys2Proof/Word.lean ====
section
/-! DEFINITION. The machine's plain value types: the 32-bit register word, the byte, the 68-bit host packet and the
bit string (00_scope.md R11 to R13, 30_encoding.md R68). -/

namespace Sys2Proof

/-- A register value (R11): 32 bits, bit 0 least significant. -/
abbrev Word := BitVec 32

/-- An element of a byte buffer, and a symbol of a message (R13, R16). -/
abbrev Byte := BitVec 8

/-- A host transaction as it reaches the port (R68). -/
abbrev Packet := BitVec 68

/-- A bit string (R12): its head is the first bit in message order. -/
abbrev Bits := List Bool

/-- `zext_32` of a byte (R11). -/
abbrev Byte.toWord (b : Byte) : Word := b.setWidth 32

end Sys2Proof
end

