-- ==== Sys2Proof/Syntax.lean ====
section
/-! DEFINITION. The instructions: one constructor per row of opcode_table.json, each a host transaction
(30_encoding.md R68, R70). -/

namespace Sys2Proof

/-- A host transaction. `index` is the packet's INDEX, `data` its DATA; a read's DATA is ignored (R68), so a read
carries none. The five CMD rows are the writes to REG[0], by command word (R70). -/
inductive Instr where
  /-- ENCODE: command word 1 (R104). -/
  | encode
  /-- DECODE: command word 2 (R113). -/
  | decode
  /-- VALIDATE: command word 3 (R117). -/
  | validate
  /-- VERIFY: command word 4 (R119). -/
  | verify
  /-- BAD_COMMAND: any other command word (R120). -/
  | badCommand (data : Word)
  /-- REG_RD (R81). -/
  | regRd (index : Word)
  /-- REG_WR (R82), `index` not 0: REG[0] belongs to the five rows above. -/
  | regWr (index data : Word)
  /-- MSG_RD (R83). -/
  | msgRd (index : Word)
  /-- MSG_WR (R84). -/
  | msgWr (index data : Word)
  /-- CTR_RD (R85). -/
  | ctrRd (index : Word)
  /-- CTR_WR (R86). -/
  | ctrWr (index data : Word)
  /-- DEC_RD (R87). -/
  | decRd (index : Word)
  /-- DEC_WR (R88). -/
  | decWr (index data : Word)
  /-- FREQ_RD (R89). -/
  | freqRd (index : Word)
  /-- FREQ_WR (R90). -/
  | freqWr (index data : Word)
  /-- NODE_RD (R91). -/
  | nodeRd (index : Word)
  /-- NODE_WR (R92). -/
  | nodeWr (index data : Word)
  /-- CODE_RD (R93). -/
  | codeRd (index : Word)
  /-- CODE_WR (R94). -/
  | codeWr (index data : Word)
  /-- RSV_RD (R95). -/
  | rsvRd (index : Word)
  /-- RSV_WR (R96). -/
  | rsvWr (index data : Word)
deriving DecidableEq, Repr

end Sys2Proof
end

