-- ==== Sys2Proof/Decode.lean ====
section
/-! DEFINITION. Packets to instructions and back (30_encoding.md R68, R70). Every packet is a defined transaction, so
the decoder is total and refuses nothing (R68). -/

namespace Sys2Proof

/-- W, bit 67 (R68). -/
def Packet.writeBit (p : Packet) : Bool := p.getLsbD 67

/-- SPACE, bits 66 to 64 (R68). -/
def Packet.space (p : Packet) : BitVec 3 := p.extractLsb' 64 3

/-- INDEX, bits 63 to 32 (R68). -/
def Packet.index (p : Packet) : Word := p.extractLsb' 32 32

/-- DATA, bits 31 to 0 (R68). -/
def Packet.data (p : Packet) : Word := p.extractLsb' 0 32

/-- The packet with these four fields (R68). -/
def Packet.make (write : Bool) (space : BitVec 3) (index data : Word) : Packet :=
  (BitVec.ofBool write).setWidth 68 <<< 67 ||| space.setWidth 68 <<< 64 ||| index.setWidth 68 <<< 32 |||
    data.setWidth 68

/-- A write to REG.CMD: the whole command word selects (R70). -/
def decodeCommandWrite (data : Word) : Instr :=
  if data = 1 then .encode
  else if data = 2 then .decode
  else if data = 3 then .validate
  else if data = 4 then .verify
  else .badCommand data

/-- A write to the REG space: INDEX 0 is CMD (R82). -/
def decodeRegWrite (index data : Word) : Instr :=
  if index = 0 then decodeCommandWrite data else .regWr index data

/-- The read of a space (R68; the codes are R52's). -/
def decodeRead (space : BitVec 3) (index : Word) : Instr :=
  match space.toNat with
  | 0 => .regRd index
  | 1 => .msgRd index
  | 2 => .ctrRd index
  | 3 => .decRd index
  | 4 => .freqRd index
  | 5 => .nodeRd index
  | 6 => .codeRd index
  | _ => .rsvRd index

/-- The write to a space (R68; the codes are R52's). -/
def decodeWrite (space : BitVec 3) (index data : Word) : Instr :=
  match space.toNat with
  | 0 => decodeRegWrite index data
  | 1 => .msgWr index data
  | 2 => .ctrWr index data
  | 3 => .decWr index data
  | 4 => .freqWr index data
  | 5 => .nodeWr index data
  | 6 => .codeWr index data
  | _ => .rsvWr index data

/-- The instruction a packet is (R68, R70). Total: "the decoder of a packet is total". -/
def decodePacket (p : Packet) : Instr :=
  if p.writeBit then decodeWrite p.space p.index p.data else decodeRead p.space p.index

/-- The packet of an instruction (R68); a read's DATA is 0 (R78). -/
def encodePacket : Instr → Packet
  | .encode => Packet.make true 0 0 1
  | .decode => Packet.make true 0 0 2
  | .validate => Packet.make true 0 0 3
  | .verify => Packet.make true 0 0 4
  | .badCommand data => Packet.make true 0 0 data
  | .regRd index => Packet.make false 0 index 0
  | .regWr index data => Packet.make true 0 index data
  | .msgRd index => Packet.make false 1 index 0
  | .msgWr index data => Packet.make true 1 index data
  | .ctrRd index => Packet.make false 2 index 0
  | .ctrWr index data => Packet.make true 2 index data
  | .decRd index => Packet.make false 3 index 0
  | .decWr index data => Packet.make true 3 index data
  | .freqRd index => Packet.make false 4 index 0
  | .freqWr index data => Packet.make true 4 index data
  | .nodeRd index => Packet.make false 5 index 0
  | .nodeWr index data => Packet.make true 5 index data
  | .codeRd index => Packet.make false 6 index 0
  | .codeWr index data => Packet.make true 6 index data
  | .rsvRd index => Packet.make false 7 index 0
  | .rsvWr index data => Packet.make true 7 index data

/-- The packet whose bits are the low `nbits` bits of `w`, numbered as opcode_table.json numbers them; a packet has
68 bits (R68), so a word with a bit above bit 67 is none (log 9). -/
def packetOfTableWord (nbits w : Nat) : Option Packet :=
  if w % 2 ^ nbits < 2 ^ 68 then some (BitVec.ofNat 68 (w % 2 ^ nbits)) else none

/-- What the decoder reads from an instruction whose bits are `w` (log 9). -/
def decodeTableWord (nbits w : Nat) : Option Instr :=
  match packetOfTableWord nbits w with
  | some p => some (decodePacket p)
  | none => none

end Sys2Proof
end

