-- ==== Sys2Proof/Config.lean ====
section
/-! DEFINITION. What an implementation fixes (the three capacity parameters of 00_scope.md R7) and the values the
spec leaves free (93_implementation_defined.md I2 to I5), which are constants without a body. -/

namespace Sys2Proof

/-- The capacity parameters `MSG_CAP`, `CTR_CAP`, `DEC_CAP` in bytes (R7). Plain data: the state carries them, no step
changes them (R43), and every statement is over all of them (log 1). -/
structure Caps where
  msg : Nat
  ctr : Nat
  dec : Nat
deriving DecidableEq, Repr

/-- The legal range of one capacity, `1 .. 2^28` (R7). -/
abbrev Caps.legalSize (n : Nat) : Prop := 1 ≤ n ∧ n ≤ 2 ^ 28

/-- All three capacities are legal (R7). -/
abbrev Caps.Legal (c : Caps) : Prop := legalSize c.msg ∧ legalSize c.ctr ∧ legalSize c.dec

/-- DESIGN CHOICE (log 1): the parameters of `State.reset`, the default of 95_test_vectors.md. No statement of this
package rests on them. -/
def Config.referenceCaps : Caps := ⟨64, 64, 64⟩

/-- `draw()` (R142, I5): the unspecified word the `n`-th free read returns. Unconstrained (log 2). -/
opaque Config.draw (n : Nat) : Word

/-- The unspecified byte at address `a` of a buffer whose contents became unspecified at event number `epoch`
(R138, R139, R113; I2, I3, I4). Unconstrained (log 3). -/
opaque Config.freeByte (epoch a : Nat) : Byte

end Sys2Proof
end

