-- ==== Sys2Proof/Machine/State.lean ====
section
/-! DEFINITION. The machine's state as plain data (10_state.md R20 to R51), its state at power-up, and the reasons a
step can stop: on this hardware there are none. -/

namespace Sys2Proof.Machine

/-- The four commands (30_encoding.md R70). -/
inductive Command where
  | encode
  | decode
  | validate
  | verify
deriving DecidableEq, Repr

/-- The engine's control state (R20). -/
inductive Phase where
  /-- No command is running. -/
  | idle
  /-- Command `c` is running. -/
  | busy (c : Command)
deriving DecidableEq, Repr

/-- One of the three kinds of atomic step an execution is made of (70_reset_and_hazards.md R141). -/
inductive Event where
  /-- A host transaction. -/
  | packet (p : Packet)
  /-- The engine's turn: its completion step, if a command is running. -/
  | engine
  /-- The reset input. -/
  | reset
deriving DecidableEq, Repr

/-- A byte buffer (R49). `cells` are the bytes with a known value, addresses rising. A byte not listed is unspecified:
it reads as the free byte of the first mark `(limit, epoch)` with its address below `limit`, else of `epoch` (log 3). -/
structure Buffer where
  cells : List Host.Cell
  marks : List (Nat × Nat)
  epoch : Nat
deriving DecidableEq, Repr

/-- A table of 32-bit words (R46 to R48): the words that are not 0, indices rising; a word not listed is 0. -/
abbrev WordTable := List (Nat × Word)

/-- The seven spaces beside REG (20_memory.md R52; space 7 holds nothing). -/
structure Memory where
  msg : Buffer
  ctr : Buffer
  dec : Buffer
  freq : WordTable
  node : WordTable
  code : WordTable
deriving DecidableEq, Repr

/-- The registers that hold state, REG[1] to REG[18] (R23). REG[0] holds none (R24), REG[19..21] are `State.caps`
(R43), the rest is reserved (R44). -/
structure Regs where
  status : Word
  msgLen : Word
  ctrLen : Word
  ctrPresent : Word
  decLen : Word
  nSyms : Word
  root : Word
  encBits : Word
  decBits : Word
  discard : Word
  payloadOff : Word
  total : Word
  valResult : Word
  valSymcount : Word
  valDiscard : Word
  valPayload : Word
  verResult : Word
  verMismatch : Word
deriving DecidableEq, Repr

/-- Every register at its reset value, 0 (R25 to R42). -/
def Regs.zero : Regs := ⟨0, 0, 0, 0, 0, 0, 0, 0, 0, 0, 0, 0, 0, 0, 0, 0, 0, 0⟩

/-- A buffer of which no byte is known (R139). -/
def Buffer.unspecified (epoch : Nat) : Buffer := ⟨[], [], epoch⟩

/-- The state of HUFFCORE. The last three fields are the model's own: `fresh` is the next unused index of a free value
(log 2, log 3), `events` what the host, the engine and the reset input do next (log 4), `response` the word the last
host transaction returned, if it returned one (R68, log 8). -/
structure State where
  phase : Phase
  regs : Regs
  caps : Caps
  mem : Memory
  fresh : Nat
  events : List Event
  response : Option Word
deriving DecidableEq, Repr

/-- Power-up with the given parameters: a reset with every byte of MSG, CTR and DEC unspecified (R139, and the reset
values of 10_state.md §6). -/
def State.powerUp (caps : Caps) : State where
  phase := .idle
  regs := .zero
  caps := caps
  mem := ⟨.unspecified 0, .unspecified 1, .unspecified 2, [], [], []⟩
  fresh := 3
  events := []
  response := none

/-- The machine right after reset. Its capacities are a DESIGN CHOICE (log 1). -/
def State.reset : State := .powerUp Config.referenceCaps

/-- Why the machine could stop with a fault: never. "No host transaction faults, stalls or is refused"
(41_host_port.md), and a command's error is a completed command (60_exceptions.md R121). The type is empty: safe. -/
inductive Fault where
deriving DecidableEq, Repr

/-- Why an instruction could have no meaning. Every row of the table has one, so no step answers with it. -/
inductive Refusal where
  /-- Raised only by an arm of `exec` whose instruction has no meaning yet: by none. Safe. -/
  | notModelled (mnemonic : String)
deriving DecidableEq, Repr

end Sys2Proof.Machine
end

