-- ==== Sys2Proof/Machine/Flags.lean ====
section
/-! DEFINITION. The error taxonomy and the status words: error and detail codes (60_exceptions.md R122, R123) and the
fields of STATUS, VAL_RESULT and VER_RESULT (10_state.md R25, R37, R41). -/

namespace Sys2Proof.Machine

/-- The CorruptFileError details (R123); the first four are structural, the rest content failures. -/
inductive CorruptDetail where
  | shortFile
  | tripletsTruncated
  | discardMissing
  | noPayload
  | emptyTable
  | zeroFreq
  | dupSymbol
  | badDiscard
  | badBit
  | walkIncomplete
  | countMismatch
deriving DecidableEq, Repr

/-- The detail codes of CorruptFileError (R123). -/
def CorruptDetail.code : CorruptDetail → BitVec 8
  | .shortFile => 1
  | .tripletsTruncated => 2
  | .discardMissing => 3
  | .noPayload => 4
  | .emptyTable => 16
  | .zeroFreq => 17
  | .dupSymbol => 18
  | .badDiscard => 19
  | .badBit => 20
  | .walkIncomplete => 21
  | .countMismatch => 22

/-- The buffers a CapacityError names (R122). -/
inductive BufferName where
  | msg
  | ctr
  | dec
deriving DecidableEq, Repr

/-- The detail codes of CapacityError: 1 MSG, 2 CTR, 3 DEC (R122). -/
def BufferName.code : BufferName → BitVec 8
  | .msg => 1
  | .ctr => 2
  | .dec => 3

/-- The errors of R122, each with what its detail records. -/
inductive CodecError where
  | emptyInput
  | fileNotFound
  | corruptFile (d : CorruptDetail)
  | overflow (symbol : Byte)
  | capacity (b : BufferName)
  | badCommand
deriving DecidableEq, Repr

/-- The error codes (R122). -/
def CodecError.code : CodecError → BitVec 4
  | .emptyInput => 1
  | .fileNotFound => 2
  | .corruptFile _ => 3
  | .overflow _ => 4
  | .capacity _ => 5
  | .badCommand => 6

/-- The detail recorded with an error (R122, R123). -/
def CodecError.detail : CodecError → BitVec 8
  | .emptyInput => 0
  | .fileNotFound => 0
  | .corruptFile d => d.code
  | .overflow symbol => symbol
  | .capacity b => b.code
  | .badCommand => 0

/-- The structural failures (R123): the ones VALIDATE sees too. -/
def CodecError.structural : CodecError → Bool
  | .emptyInput => false
  | .fileNotFound => true
  | .corruptFile d => d = .shortFile || d = .tripletsTruncated || d = .discardMissing || d = .noPayload
  | .overflow _ => false
  | .capacity b => b = .ctr
  | .badCommand => false

/-- The ERR field of a completion: 0 on success (R122). -/
def errCode : Option CodecError → BitVec 4
  | none => 0
  | some e => e.code

/-- The DETAIL field of a completion: 0 on success (R123). -/
def errDetail : Option CodecError → BitVec 8
  | none => 0
  | some e => e.detail

/-- A field of a 32-bit word: `x` in the bits from `lo` on (R11). -/
def placeField {w : Nat} (x : BitVec w) (lo : Nat) : Word := x.setWidth 32 <<< lo

/-- The layout STATUS, VAL_RESULT and VER_RESULT share: three flags in bits 0 to 2, an error code in [7:4], its detail
in [15:8], every other bit reserved and 0 (R25, R37, R41). -/
def packReport (bit0 bit1 bit2 : Bool) (err : BitVec 4) (detail : BitVec 8) : Word :=
  placeField (BitVec.ofBool bit0) 0 ||| placeField (BitVec.ofBool bit1) 1 ||| placeField (BitVec.ofBool bit2) 2 |||
    placeField err 4 ||| placeField detail 8

/-- A STATUS word (R25). -/
def packStatus (busy done wign : Bool) (err : BitVec 4) (detail : BitVec 8) : Word :=
  packReport busy done wign err detail

/-- A VAL_RESULT word (R37). -/
def packValResult (valid symcountOk discardOk : Bool) (err : BitVec 4) (detail : BitVec 8) : Word :=
  packReport valid symcountOk discardOk err detail

/-- A VER_RESULT word (R41). -/
def packVerResult (isMatch origCap decoded : Bool) (err : BitVec 4) (detail : BitVec 8) : Word :=
  packReport isMatch origCap decoded err detail

/-- STATUS.BUSY (R25). -/
def statusBusy (w : Word) : Bool := w.getLsbD 0

/-- STATUS.DONE (R25). -/
def statusDone (w : Word) : Bool := w.getLsbD 1

/-- STATUS.WIGN (R25). -/
def statusWign (w : Word) : Bool := w.getLsbD 2

/-- STATUS.ERR (R25), and the ERR fields of VAL_RESULT and VER_RESULT (R37, R41). -/
def statusErr (w : Word) : BitVec 4 := w.extractLsb' 4 4

/-- STATUS.DETAIL (R25), and the DETAIL fields of VAL_RESULT and VER_RESULT (R37, R41). -/
def statusDetail (w : Word) : BitVec 8 := w.extractLsb' 8 8

/-- `STATUS.WIGN <- 1` (R80). -/
def setWign (w : Word) : Word := w ||| 4

/-- STATUS right after a valid command word: `STATUS <- 0; STATUS.BUSY <- 1` (R82). -/
def startStatus : Word := packStatus true false false 0 0

/-- STATUS after BAD_COMMAND: `STATUS <- 0; STATUS.DONE <- 1; STATUS.ERR <- 6` (R120). -/
def badCommandStatus : Word :=
  packStatus false true false (CodecError.code .badCommand) (CodecError.detail .badCommand)

/-- STATUS after a completion step: BUSY 0, DONE 1, ERR and DETAIL as given, WIGN as it was (R126). -/
def completionStatus (e : Option CodecError) (w : Word) : Word :=
  packStatus false true (statusWign w) (errCode e) (errDetail e)

end Sys2Proof.Machine
end

