-- ==== Sys2Proof/Machine/Operands.lean ====
section
/-! DEFINITION. Operand forms: the command word (30_encoding.md R70), how DATA and INDEX are used (R69), big-endian
numbers and bit strings (00_scope.md R12, R13, 20_memory.md R55, R56). -/

namespace Sys2Proof.Machine

/-- `DecodeCmd`: the whole command word selects; none is BAD_COMMAND (R70). -/
def decodeCmd (v : Word) : Option Command :=
  if v = 1 then some .encode
  else if v = 2 then some .decode
  else if v = 3 then some .validate
  else if v = 4 then some .verify
  else none

/-- The byte a write to a byte space stores: DATA[7:0] (R69, R59). -/
def storedByte (data : Word) : Byte := data.extractLsb' 0 8

/-- What a write to CTR_PRESENT stores: `zext_32(v[0])` (R82). -/
def storedPresent (data : Word) : Word := data &&& 1

/-- `be16(B, i)` (R13). -/
def be16 (B : Nat → Byte) (i : Nat) : Nat :=
  256 * (B i).toNat + (B (i + 1)).toNat

/-- `be32(B, i)` (R13). -/
def be32 (B : Nat → Byte) (i : Nat) : Nat :=
  2 ^ 24 * (B i).toNat + 2 ^ 16 * (B (i + 1)).toNat + 2 ^ 8 * (B (i + 2)).toNat + (B (i + 3)).toNat

/-- `put16(v)`: two bytes, most significant first (R13). -/
def put16 (v : Nat) : List Byte := [BitVec.ofNat 8 (v / 256), BitVec.ofNat 8 v]

/-- `put32(v)`: four bytes, most significant first (R13). -/
def put32 (v : Nat) : List Byte :=
  [BitVec.ofNat 8 (v / 2 ^ 24), BitVec.ofNat 8 (v / 2 ^ 16), BitVec.ofNat 8 (v / 2 ^ 8), BitVec.ofNat 8 v]

/-- `bin8(b)`: bit 7 first, bit 0 last (R13, R56). -/
def bin8 (b : Byte) : Bits :=
  [b.getLsbD 7, b.getLsbD 6, b.getLsbD 5, b.getLsbD 4, b.getLsbD 3, b.getLsbD 2, b.getLsbD 1, b.getLsbD 0]

/-- The number a bit string writes, its first bit the most significant: `Σ g[i]·2^(len−1−i)` (R56). -/
def bitsToNat : Bits → Nat
  | [] => 0
  | b :: bs => b.toNat * 2 ^ bs.length + bitsToNat bs

/-- The byte of a group of 8 bits: `Σ_{i=0..7} g[i]·2^(7−i)` (R56). -/
def byteOfBits (g : Bits) : Byte := BitVec.ofNat 8 (bitsToNat g)

/-- `drop_last(k, s)` (R12). -/
def dropLast (k : Nat) (s : Bits) : Bits := s.take (s.length - k)

end Sys2Proof.Machine
end

