-- ==== Sys2Proof/Machine/Tree.lean ====
section
/-! DEFINITION. Frequency tables, trees and codes, shared by encoder and decoder: FrequencyAnalyzer, TreeBuilder,
CodeGenerator (42_encoder.md R97 to R101), and their words in the FREQ, NODE and CODE spaces (10_state.md R46 to
R48). -/

namespace Sys2Proof.Machine

/-- One entry of a frequency table (R17). -/
structure Entry where
  symbol : Byte
  count : Nat
deriving DecidableEq, Repr

/-- An ordered frequency table (R17): first-seen order at encode, entry order at decode. -/
abbrev FreqTable := List Entry

/-- Count one more occurrence of `x` (R97): its entry where it stands, or a new one at the end. -/
def countSymbol : FreqTable → Byte → FreqTable
  | [], x => [⟨x, 1⟩]
  | e :: t, x => if e.symbol = x then ⟨x, e.count + 1⟩ :: t else e :: countSymbol t x

/-- `FrequencyAnalyze(M)` (R97). -/
def frequencyAnalyze (m : List Byte) : FreqTable := m.foldl countSymbol []

/-- The sum of a table's counts, TOTAL (R36, R113). -/
def FreqTable.total (t : FreqTable) : Nat := (t.map Entry.count).sum

/-- A tree node (R18) with its sequence number, which is its index in the node table (R98). The pseudocode names a
child by its index; here a node holds the child itself, and the index is the child's `seq` (log 11). -/
inductive Tree where
  | leaf (seq : Nat) (symbol : Byte) (freq : Nat)
  | internal (seq : Nat) (freq : Nat) (left right : Tree)
deriving DecidableEq, Repr

/-- A node's sequence number (R98). -/
def Tree.seq : Tree → Nat
  | .leaf seq _ _ => seq
  | .internal seq _ _ _ => seq

/-- `freq(node)` (R98). -/
def Tree.freq : Tree → Nat
  | .leaf _ _ freq => freq
  | .internal _ freq _ _ => freq

/-- The queue key's order: frequency, then sequence number, both ascending (R98). -/
def Tree.before (a b : Tree) : Bool := a.freq < b.freq || (a.freq = b.freq && a.seq < b.seq)

/-- `min_key(Q, (freq, seq))` and the queue without it (R14, R98). -/
def extractMin : List Tree → Option (Tree × List Tree)
  | [] => none
  | t :: ts =>
    match extractMin ts with
    | none => some (t, ts)
    | some (m, rest) => if t.before m then some (t, ts) else some (m, t :: rest)

/-- The leaves of a table, entry k with sequence number `next + k` (R98). -/
def leavesFrom (next : Nat) : FreqTable → List Tree
  | [] => []
  | e :: t => .leaf next e.symbol e.count :: leavesFrom (next + 1) t

/-- The merge loop (R98): while the queue holds two nodes, the two least become the left and right child of a new
node, numbered by the length of the node table. The first argument bounds the rounds. -/
def mergeLoop : Nat → List Tree → List Tree → List Tree × List Tree
  | 0, nodes, q => (nodes, q)
  | k + 1, nodes, q =>
    match extractMin q with
    | none => (nodes, q)
    | some (a, q1) =>
      match extractMin q1 with
      | none => (nodes, q)
      | some (b, q2) =>
        mergeLoop k (nodes ++ [.internal nodes.length (a.freq + b.freq) a b])
          (.internal nodes.length (a.freq + b.freq) a b :: q2)

/-- A node table in sequence order, and its root (R98). -/
structure Built where
  nodes : List Tree
  root : Tree
deriving DecidableEq, Repr

/-- `TreeBuild(T)` (R98): the node table and "the only element of Q". `none` only for an empty table, which the rule
excludes. A table of one entry is its leaf: no round merges. -/
def treeBuild (t : FreqTable) : Option Built :=
  match mergeLoop t.length (leavesFrom 0 t) (leavesFrom 0 t) with
  | (nodes, root :: _) => some ⟨nodes, root⟩
  | (_, []) => none

/-- One code of a code table (R19). -/
structure Code where
  symbol : Byte
  bits : Bits
deriving DecidableEq, Repr

/-- `visit(k, path)` (R100): '0' to the left, '1' to the right. -/
def Tree.codesFrom : Tree → Bits → List Code
  | .leaf _ symbol _, path => [⟨symbol, path⟩]
  | .internal _ _ l r, path => l.codesFrom (path ++ [false]) ++ r.codesFrom (path ++ [true])

/-- `CodeGen` (R100): a tree that is one leaf gives its symbol the code "0". -/
def codeGen : Tree → List Code
  | .leaf _ symbol _ => [⟨symbol, [false]⟩]
  | .internal _ _ l r => l.codesFrom [false] ++ r.codesFrom [true]

/-- `C[x]`. A symbol of the message always has a code; the empty string stands for the missing one (log 18). -/
def codeOf (c : List Code) (x : Byte) : Bits :=
  match c.find? (fun k => k.symbol = x) with
  | some k => k.bits
  | none => []

/-- `Payload(M, C)` (R101). -/
def payloadBits (m : List Byte) (c : List Code) : Bits := m.flatMap (codeOf c)

/-! ### The words of the tables -/

/-- `FREQ[s] <- f` for every entry (R46). -/
def freqWords (t : FreqTable) : List (Nat × Word) :=
  t.map (fun e => (e.symbol.toNat, BitVec.ofNat 32 e.count))

/-- Word 2k+1 of a node: VALID, INTERNAL, SYMBOL, RIGHT, LEFT (R47). -/
def Tree.infoWord : Tree → Word
  | .leaf _ symbol _ => placeField 1#1 31 ||| placeField symbol 18
  | .internal _ _ l r =>
    placeField 1#1 31 ||| placeField 1#1 30 ||| placeField (BitVec.ofNat 9 r.seq) 9 |||
      placeField (BitVec.ofNat 9 l.seq) 0

/-- Node k to NODE[2k] and NODE[2k+1] (R47). -/
def nodeWords (nodes : List Tree) : List (Nat × Word) :=
  nodes.flatMap (fun t => [(2 * t.seq, BitVec.ofNat 32 t.freq), (2 * t.seq + 1, t.infoWord)])

/-- Word 16s+1+j of a code: bit 31−i is `c[32j+i]`, 0 beyond the code (R48). -/
def codeWord (bits : Bits) (j : Nat) : Word :=
  BitVec.ofNat 32 (bitsToNat ((List.range 32).map (fun i => bits.getD (32 * j + i) false)))

/-- A code to CODE[16s .. 16s+8]: its length, then its bits (R48). -/
def Code.words (c : Code) : List (Nat × Word) :=
  (16 * c.symbol.toNat, BitVec.ofNat 32 c.bits.length) ::
    (List.range 8).map (fun j => (16 * c.symbol.toNat + 1 + j, codeWord c.bits j))

/-- The code table to the CODE space (R48). -/
def codeWords (c : List Code) : List (Nat × Word) := c.flatMap Code.words

end Sys2Proof.Machine
end

