-- ==== Sys2Proof/Machine/Container.lean ====
section
/-! DEFINITION. The container format: packing and writing (42_encoder.md R102, R103), the structural checks, the table
reader and unpacking (43_decoder.md R107, R108, R110). -/

namespace Sys2Proof.Machine

/-! ### BitPacker and bit unpacker -/

/-- The discarded-bit count of a bit string of length `n` (R102). -/
def discardedBits (n : Nat) : Nat := (8 - n % 8) % 8

/-- Bytes of 8 bits each, in order; a last group of fewer than 8 bits does not arise after padding (R102). -/
def packBytes : Bits → List Byte
  | b7 :: b6 :: b5 :: b4 :: b3 :: b2 :: b1 :: b0 :: rest =>
    byteOfBits [b7, b6, b5, b4, b3, b2, b1, b0] :: packBytes rest
  | _ => []

/-- The payload bytes of `BitPack(E)` (R102): E padded on the right with '0' to whole bytes. -/
def bitPack (e : Bits) : List Byte := packBytes (e ++ List.replicate (discardedBits e.length) false)

/-- `BitUnpack(P, d)` (R110): the last d bits of the whole sequence are dropped. -/
def bitUnpack (p : List Byte) (d : Nat) : Bits := dropLast d (p.flatMap bin8)

/-! ### ContainerWriter -/

/-- One entry of the header: the symbol, then its count in two bytes (R72). -/
def Entry.bytes (e : Entry) : List Byte := e.symbol :: put16 e.count

/-- `ContainerWrite(T, d, P)` (R103). -/
def containerWrite (t : FreqTable) (d : Nat) (p : List Byte) : List Byte :=
  put32 t.length ++ t.flatMap Entry.bytes ++ [BitVec.ofNat 8 d] ++ p

/-! ### Structural checks and ContainerReader -/

/-- What `Structural` parses: `(N, d, plen)` (R107). -/
structure Header where
  n : Nat
  d : Nat
  plen : Nat
deriving DecidableEq, Repr

/-- `Structural(PRESENT, L, CTR)` (R107), with CTR_CAP as `cap`. Every sum is exact. -/
def structuralCheck (present : Bool) (len cap : Nat) (ctr : Nat → Byte) : Except CodecError Header :=
  if present = false then .error .fileNotFound
  else if cap < len then .error (.capacity .ctr)
  else if len < 5 then .error (.corruptFile .shortFile)
  else if len < 4 + 3 * be32 ctr 0 then .error (.corruptFile .tripletsTruncated)
  else if len < 5 + 3 * be32 ctr 0 then .error (.corruptFile .discardMissing)
  else if len < 6 + 3 * be32 ctr 0 then .error (.corruptFile .noPayload)
  else .ok ⟨be32 ctr 0, (ctr (4 + 3 * be32 ctr 0)).toNat, len - (5 + 3 * be32 ctr 0)⟩

/-- The entry loop of `ContainerRead` (R108): `k` entries left, the next one at offset `off`, the table so far. -/
def readEntries (ctr : Nat → Byte) : Nat → Nat → FreqTable → Except CorruptDetail FreqTable
  | 0, _, t => .ok t
  | k + 1, off, t =>
    if be16 ctr (off + 1) = 0 then .error .zeroFreq
    else if t.any (fun e => e.symbol = ctr off) then .error .dupSymbol
    else readEntries ctr k (off + 3) (t ++ [⟨ctr off, be16 ctr (off + 1)⟩])

/-- `ContainerRead(CTR, N, d)` (R108): the table, in container order. -/
def containerRead (ctr : Nat → Byte) (n d : Nat) : Except CorruptDetail FreqTable :=
  if n = 0 then .error .emptyTable
  else
    match readEntries ctr n 4 [] with
    | .error e => .error e
    | .ok t => if 7 < d then .error .badDiscard else .ok t

/-- The payload bytes `CTR[5+3N] .. CTR[4+3N+plen]` (R113). -/
def payloadBytes (ctr : Nat → Byte) (h : Header) : List Byte :=
  (List.range h.plen).map (fun i => ctr (5 + 3 * h.n + i))

end Sys2Proof.Machine
end

