-- ==== Sys2Proof/Machine/Ops.lean ====
section
/-! DEFINITION. The named operations over memory, registers and the port: sparse cells, byte buffers, word tables, the
REG space, responses, the command start, the completion step (the machine's trap entry, 60_exceptions.md R126) and the
reset (70_reset_and_hazards.md R138). -/

namespace Sys2Proof.Machine

/-! ### Cells: sorted lists of (index, value) -/

/-- The indices of a cell list rise strictly: its one canonical order. -/
abbrev Rising {α : Type} (l : List (Nat × α)) : Prop := l.Pairwise (fun x y => x.1 < y.1)

/-- The value listed at an index, if any. -/
def cellAt? {α : Type} : List (Nat × α) → Nat → Option α
  | [], _ => none
  | (b, v) :: l, a => if b = a then some v else cellAt? l a

/-- The list with `v` at index `a`, in its place. -/
def putCell {α : Type} : List (Nat × α) → Nat → α → List (Nat × α)
  | [], a, v => [(a, v)]
  | (b, w) :: l, a, v =>
    if a < b then (a, v) :: (b, w) :: l
    else if a = b then (a, v) :: l
    else (b, w) :: putCell l a v

/-- The list without index `a`. -/
def dropCell {α : Type} (l : List (Nat × α)) (a : Nat) : List (Nat × α) :=
  l.filter (fun x => x.1 ≠ a)

/-! ### Byte buffers (R49) -/

/-- Which free value an unlisted byte is: the first mark whose limit is above the address, else the buffer's own. -/
def epochAt : List (Nat × Nat) → Nat → Nat → Nat
  | [], epoch, _ => epoch
  | (limit, e) :: marks, epoch, a => if a < limit then e else epochAt marks epoch a

/-- What an unlisted address of a buffer reads as: a free value, fixed until it is written (I2, I3, I4; log 3). -/
def Buffer.unlisted (b : Buffer) (a : Nat) : Byte := Config.freeByte (epochAt b.marks b.epoch a) a

/-- `MemRead(sp, a)` of a byte space (R14). -/
def Buffer.get (b : Buffer) (a : Nat) : Byte := (cellAt? b.cells a).getD (b.unlisted a)

/-- `MemWrite(sp, a, v)` of a byte space (R14). -/
def Buffer.set (b : Buffer) (a : Nat) (v : Byte) : Buffer := { b with cells := putCell b.cells a v }

/-- `for i in 0 .. len(K)-1: MemWrite(sp, start + i, K[i])`. -/
def Buffer.store (b : Buffer) (start : Nat) : List Byte → Buffer
  | [] => b
  | v :: vs => (b.set start v).store (start + 1) vs

/-- Bytes `0 .. limit − 1` become unspecified, the rest is unchanged (R113, I4); `epoch` names the free value. -/
def Buffer.forgetBelow (b : Buffer) (limit epoch : Nat) : Buffer where
  cells := b.cells.filter (fun x => limit ≤ x.1)
  marks := (limit, epoch) :: b.marks.filter (fun m => limit < m.1)
  epoch := b.epoch

/-- The canonical form of a buffer: listed addresses and mark limits rise strictly. An unlisted byte is unspecified,
so no listed one equals "what an unlisted address reads as" (log 3). -/
abbrev Buffer.wf (b : Buffer) : Prop := Rising b.cells ∧ Rising b.marks

/-! ### Word tables (R46 to R48) -/

/-- Word `i` of a table; 0 where none is listed. -/
def WordTable.get (t : WordTable) (i : Nat) : Word := (cellAt? t i).getD 0

/-- Word `i` becomes `v`; a 0 is not listed. -/
def WordTable.set (t : WordTable) (i : Nat) (v : Word) : WordTable :=
  if v = 0 then dropCell t i else putCell t i v

/-- The words of the list are written in order. -/
def WordTable.setAll : WordTable → List (Nat × Word) → WordTable
  | t, [] => t
  | t, (i, v) :: l => WordTable.setAll (WordTable.set t i v) l

/-- The canonical form of a table: indices rise strictly and no listed word is 0. -/
abbrev WordTable.wf (t : WordTable) : Prop := Rising t ∧ ∀ x ∈ t, x.2 ≠ 0

/-- The canonical form of the memory. -/
abbrev Memory.wf (m : Memory) : Prop :=
  (m.msg.wf ∧ m.ctr.wf ∧ m.dec.wf) ∧ WordTable.wf m.freq ∧ WordTable.wf m.node ∧ WordTable.wf m.code

/-! ### Updates of the state, one field each -/

/-- `phase <- p` (R14). -/
def State.withPhase (s : State) (p : Phase) : State := { s with phase := p }

/-- The registers replaced. -/
def State.withRegs (s : State) (r : Regs) : State := { s with regs := r }

/-- The memory replaced. -/
def State.withMem (s : State) (m : Memory) : State := { s with mem := m }

/-- The next free-value index replaced (log 2, log 3). -/
def State.withFresh (s : State) (n : Nat) : State := { s with fresh := n }

/-- The waiting events replaced (log 4). -/
def State.withEvents (s : State) (l : List Event) : State := { s with events := l }

/-- The port's response replaced (log 8). -/
def State.withResponse (s : State) (r : Option Word) : State := { s with response := r }

/-! ### The REG space (R23) -/

/-- The REG space in index order: CMD reads 0 (R24), REG[1] to REG[18] hold state, REG[19..21] are the capacities
(R43). -/
def State.regImage (s : State) : List Word :=
  [0, s.regs.status, s.regs.msgLen, s.regs.ctrLen, s.regs.ctrPresent, s.regs.decLen, s.regs.nSyms, s.regs.root,
    s.regs.encBits, s.regs.decBits, s.regs.discard, s.regs.payloadOff, s.regs.total, s.regs.valResult,
    s.regs.valSymcount, s.regs.valDiscard, s.regs.valPayload, s.regs.verResult, s.regs.verMismatch,
    BitVec.ofNat 32 s.caps.msg, BitVec.ofNat 32 s.caps.ctr, BitVec.ofNat 32 s.caps.dec]

/-- `REG[i]`: a reserved or out-of-range index reads 0 (R44, R53). -/
def State.readReg (s : State) (i : Nat) : Word := s.regImage.getD i 0

/-- A host write of `v` to REG[i], i not CMD: MSG_LEN and CTR_LEN store every bit, CTR_PRESENT bit 0, every other
register ignores the write (R82). -/
def Regs.hostWrite (r : Regs) (i : Nat) (v : Word) : Regs :=
  match i with
  | 2 => { r with msgLen := v }
  | 3 => { r with ctrLen := v }
  | 4 => { r with ctrPresent := storedPresent v }
  | _ => r

/-- The registers of the result state cleared (R51): all but STATUS, MSG_LEN, CTR_LEN and CTR_PRESENT. -/
def Regs.clearResults (r : Regs) : Regs :=
  { Regs.zero with status := r.status, msgLen := r.msgLen, ctrLen := r.ctrLen, ctrPresent := r.ctrPresent }

/-- The tables of the result state cleared (R51). -/
def Memory.clearTables (m : Memory) : Memory := { m with freq := [], node := [], code := [] }

/-- CTR_PRESENT.PRESENT (R28). -/
def Regs.present (r : Regs) : Bool := r.ctrPresent.getLsbD 0

/-! ### The port (R68, R80, R142) -/

/-- A command is running (R20). -/
def State.isBusy (s : State) : Bool :=
  match s.phase with
  | .idle => false
  | .busy _ => true

/-- The transaction returns the word `v` (R68). -/
def State.respond (s : State) (v : Word) : State := s.withResponse (some v)

/-- The transaction returns `draw()`: the next free word (R142, I5; log 2). -/
def State.respondDraw (s : State) : State := (s.respond (Config.draw s.fresh)).withFresh (s.fresh + 1)

/-- A host read of an element whose value is `v`: exact while IDLE, `draw()` while BUSY (R142). -/
def State.hostRead (s : State) (v : Word) : State := if s.isBusy then s.respondDraw else s.respond v

/-- A host write while BUSY: ignored but for `STATUS.WIGN <- 1` (R80). -/
def State.ignoreWrite (s : State) : State := s.withRegs { s.regs with status := setWign s.regs.status }

/-- A host write whose effect while IDLE is `effect`; it returns nothing (R68, R80). -/
def State.hostWrite (s : State) (effect : State → State) : State :=
  (if s.isBusy then s.ignoreWrite else effect s).withResponse none

/-- A host read of element `i` of a byte buffer of `cap` bytes, zero-extended; 0 beyond it (R53, R59). -/
def Buffer.hostGet (b : Buffer) (cap i : Nat) : Word := if i < cap then (b.get i).toWord else 0

/-- A host write of `data` to element `i` of a byte buffer of `cap` bytes; ignored beyond it (R53, R59). -/
def Buffer.hostSet (b : Buffer) (cap i : Nat) (data : Word) : Buffer :=
  if i < cap then b.set i (storedByte data) else b

/-- A host read of element `i` of a table of `size` words; 0 beyond it (R53). -/
def WordTable.hostGet (t : WordTable) (size i : Nat) : Word := if i < size then t.get i else 0

/-! ### Command start, completion, reset -/

/-- A valid command word while IDLE: the result state is cleared, STATUS is BUSY alone, the command runs (R82, R51). -/
def State.startCommand (s : State) (c : Command) : State :=
  ((s.withRegs { s.regs.clearResults with status := startStatus }).withMem s.mem.clearTables).withPhase (.busy c)

/-- An illegal command word while IDLE: BAD_COMMAND completes at the write, and nothing but STATUS changes (R120). -/
def State.reportBadCommand (s : State) : State := s.withRegs { s.regs with status := badCommandStatus }

/-- A write to REG.CMD while IDLE (R82). -/
def State.writeCmd (s : State) (v : Word) : State :=
  match decodeCmd v with
  | none => s.reportBadCommand
  | some c => s.startCommand c

/-- The completion step's own part, the machine's trap entry (R126): the error and its detail are recorded, BUSY falls,
DONE rises, WIGN stays, the engine is IDLE. A command's other writes are made before it. There is no trap return:
the next command just starts (R127). -/
def State.complete (s : State) (e : Option CodecError) : State :=
  (s.withRegs { s.regs with status := completionStatus e s.regs.status }).withPhase .idle

/-- The memory after a reset (R138): tables 0, MSG unchanged; CTR and DEC unchanged if the engine was IDLE, every byte
of them unspecified if it was BUSY (I3; log 3). -/
def State.resetMem (s : State) : Memory :=
  if s.isBusy then
    { s.mem.clearTables with ctr := .unspecified s.fresh, dec := .unspecified (s.fresh + 1) }
  else s.mem.clearTables

/-- `Reset()` (R138): every register 0, the capacities kept, phase IDLE, no response (log 8). -/
def State.resetInput (s : State) : State :=
  ((((s.withRegs .zero).withMem s.resetMem).withFresh (if s.isBusy then s.fresh + 2 else s.fresh)).withPhase
    .idle).withResponse none

end Sys2Proof.Machine
end

