-- ==== Sys2Proof/Machine/Encoder.lean ====
section
/-! DEFINITION. The ENCODE command (42_encoder.md R104): its meaning as a transaction, and what its completion step
does. -/

namespace Sys2Proof.Machine

/-- What a successful ENCODE computes (R104). -/
structure EncodeResult where
  table : FreqTable
  built : Built
  codes : List Code
  bits : Bits
  container : List Byte
deriving DecidableEq, Repr

/-- `M = [MemRead(MSG, 0), ..., MemRead(MSG, n-1)]` (R104). -/
def State.message (s : State) (n : Nat) : List Byte := (List.range n).map s.mem.msg.get

/-- The encode path from a message to its container (R97 to R103). An empty message has no tree, and R104 has refused
it before this is called (log 18). -/
def encodeMessage (m : List Byte) : Option EncodeResult :=
  match treeBuild (frequencyAnalyze m) with
  | none => none
  | some b =>
    some
      { table := frequencyAnalyze m
        built := b
        codes := codeGen b.root
        bits := payloadBits m (codeGen b.root)
        container :=
          containerWrite (frequencyAnalyze m) (discardedBits (payloadBits m (codeGen b.root)).length)
            (bitPack (payloadBits m (codeGen b.root))) }

/-- The body of ENCODE (R104): its checks in order, then its result. -/
def encodeBody (s : State) : Except CodecError EncodeResult :=
  if s.regs.msgLen = 0 then .error .emptyInput
  else if s.caps.msg < s.regs.msgLen.toNat then .error (.capacity .msg)
  else
    match (frequencyAnalyze (s.message s.regs.msgLen.toNat)).find? (fun e => 65535 < e.count) with
    | some e => .error (.overflow e.symbol)
    | none =>
      match encodeMessage (s.message s.regs.msgLen.toNat) with
      | none => .error .emptyInput
      | some r => if s.caps.ctr < r.container.length then .error (.capacity .ctr) else .ok r

/-- The writes of a successful ENCODE (R104). -/
def applyEncode (s : State) (r : EncodeResult) : State :=
  (s.withMem
      { s.mem with
        ctr := s.mem.ctr.store 0 r.container
        freq := WordTable.setAll s.mem.freq (freqWords r.table)
        node := WordTable.setAll s.mem.node (nodeWords r.built.nodes)
        code := WordTable.setAll s.mem.code (codeWords r.codes) }).withRegs
    { s.regs with
      ctrLen := BitVec.ofNat 32 r.container.length
      ctrPresent := 1
      nSyms := BitVec.ofNat 32 r.table.length
      root := BitVec.ofNat 32 r.built.root.seq
      total := s.regs.msgLen
      encBits := BitVec.ofNat 32 r.bits.length
      discard := BitVec.ofNat 32 (discardedBits r.bits.length)
      payloadOff := BitVec.ofNat 32 (5 + 3 * r.table.length) }

/-- The failure rule of ENCODE (R104, R124): the destination is no file any more, and nothing else is written. -/
def failEncode (s : State) : State := s.withRegs { s.regs with ctrLen := 0, ctrPresent := 0 }

/-- The completion step of ENCODE (R104, R126). -/
def completeEncode (s : State) : State :=
  match encodeBody s with
  | .ok r => (applyEncode s r).complete none
  | .error e => (failEncode s).complete (some e)

/-- ENCODE as a transaction (R82, R104): while IDLE the command starts, while BUSY it is an ignored write (R80). -/
def execEncode (s : State) : Host.Outcome State Fault Refusal :=
  .next (s.hostWrite (fun s => s.startCommand .encode))

end Sys2Proof.Machine
end

