-- ==== Sys2Proof/Machine/Decoder.lean ====
section
/-! DEFINITION. The symbol walker, the count check and the DECODE command (43_decoder.md R111 to R113). -/

namespace Sys2Proof.Machine

/-- The child a bit selects: '0' left, '1' right (R111). A leaf has none, and the walk never asks (log 18). -/
def Tree.child : Tree → Bool → Tree
  | .leaf seq symbol freq, _ => .leaf seq symbol freq
  | .internal _ _ l r, b => if b then r else l

/-- `Walk(node, root, S, TOTAL)` (R111): the bits left, `cur`, and the output so far. -/
def walk (root : Tree) (total : Nat) : Bits → Tree → List Byte → Except CorruptDetail (List Byte)
  | [], cur, out => if cur.seq = root.seq then .ok out else .error .walkIncomplete
  | b :: bs, cur, out =>
    match root with
    | .leaf _ symbol _ =>
      if b then .error .badBit
      else if out.length = total then .error .countMismatch
      else walk root total bs cur (out ++ [symbol])
    | .internal _ _ _ _ =>
      match cur.child b with
      | .leaf _ symbol _ =>
        if out.length = total then .error .countMismatch
        else walk root total bs root (out ++ [symbol])
      | .internal seq freq l r => walk root total bs (.internal seq freq l r) out

/-- `CountCheck(out, T)` (R112). -/
def countCheck (out : List Byte) (t : FreqTable) : Bool := t.all (fun e => out.count e.symbol = e.count)

/-- What a successful DECODE computes (R113). -/
structure DecodeResult where
  table : FreqTable
  built : Built
  d : Nat
  bits : Bits
  out : List Byte
deriving DecidableEq, Repr

/-- How DECODE fails (R113): the error, and for a failure in the walk or the count check the TOTAL whose DEC bytes
become unspecified. -/
structure DecodeFailure where
  error : CodecError
  spoiled : Option Nat
deriving DecidableEq, Repr

/-- The table-to-message half of DECODE (R109 to R113), for a table that has been read. -/
def decodeTable (decCap : Nat) (t : FreqTable) (d : Nat) (payload : List Byte) : Except DecodeFailure DecodeResult :=
  if decCap < FreqTable.total t then .error ⟨.capacity .dec, none⟩
  else
    match treeBuild t with
    | none => .error ⟨.corruptFile .emptyTable, none⟩
    | some b =>
      match walk b.root (FreqTable.total t) (bitUnpack payload d) b.root [] with
      | .error e => .error ⟨.corruptFile e, some (FreqTable.total t)⟩
      | .ok out =>
        if countCheck out t then .ok ⟨t, b, d, bitUnpack payload d, out⟩
        else .error ⟨.corruptFile .countMismatch, some (FreqTable.total t)⟩

/-- `Structural` on the machine's own registers and CTR (R107). -/
def State.structural (s : State) : Except CodecError Header :=
  structuralCheck s.regs.present s.regs.ctrLen.toNat s.caps.ctr s.mem.ctr.get

/-- The body of DECODE (R113). -/
def decodeBody (s : State) : Except DecodeFailure DecodeResult :=
  match s.structural with
  | .error e => .error ⟨e, none⟩
  | .ok h =>
    match containerRead s.mem.ctr.get h.n h.d with
    | .error e => .error ⟨.corruptFile e, none⟩
    | .ok t => decodeTable s.caps.dec t h.d (payloadBytes s.mem.ctr.get h)

/-- The writes of a successful DECODE (R113). -/
def applyDecode (s : State) (r : DecodeResult) : State :=
  (s.withMem
      { s.mem with
        dec := s.mem.dec.store 0 r.out
        freq := WordTable.setAll s.mem.freq (freqWords r.table)
        node := WordTable.setAll s.mem.node (nodeWords r.built.nodes) }).withRegs
    { s.regs with
      decLen := BitVec.ofNat 32 (FreqTable.total r.table)
      decBits := BitVec.ofNat 32 r.bits.length
      discard := BitVec.ofNat 32 r.d
      nSyms := BitVec.ofNat 32 r.table.length
      root := BitVec.ofNat 32 r.built.root.seq
      total := BitVec.ofNat 32 (FreqTable.total r.table)
      payloadOff := BitVec.ofNat 32 (5 + 3 * r.table.length) }

/-- The failure rule of DECODE (R113, R124): DEC unchanged before the walk, `DEC[0 .. TOTAL − 1]` unspecified after
(I4; log 3). -/
def failDecode (s : State) (f : DecodeFailure) : State :=
  match f.spoiled with
  | none => s
  | some total =>
    (s.withMem { s.mem with dec := s.mem.dec.forgetBelow total s.fresh }).withFresh (s.fresh + 1)

/-- The completion step of DECODE (R113, R126). -/
def completeDecode (s : State) : State :=
  match decodeBody s with
  | .ok r => (applyDecode s r).complete none
  | .error f => (failDecode s f).complete (some f.error)

/-- DECODE as a transaction (R82, R113): while IDLE the command starts, while BUSY it is an ignored write (R80). -/
def execDecode (s : State) : Host.Outcome State Fault Refusal :=
  .next (s.hostWrite (fun s => s.startCommand .decode))

end Sys2Proof.Machine
end

