-- ==== Sys2Proof/Machine/Report.lean ====
section
/-! DEFINITION. VALIDATE, VERIFY and BAD_COMMAND (44_validate_verify.md R117, R119, R120). -/

namespace Sys2Proof.Machine

/-! ### VALIDATE -/

/-- `sym_ok`: VAL_SYMCOUNT holds a parsed symbol_count (R117). -/
def State.symcountOk (s : State) : Bool :=
  s.regs.present && decide (s.regs.ctrLen.toNat ≤ s.caps.ctr) && decide (5 ≤ s.regs.ctrLen.toNat)

/-- symbol_count as it stands in CTR (R107). -/
def State.symcount (s : State) : Nat := be32 s.mem.ctr.get 0

/-- `disc_ok`: VAL_DISCARD and VAL_PAYLOAD hold parsed values (R117). -/
def State.discardOk (s : State) : Bool :=
  s.symcountOk && decide (5 + 3 * s.symcount ≤ s.regs.ctrLen.toNat)

/-- VAL_RESULT (R117): the verdict of `Structural`, with the error DECODE would report. -/
def State.valResultWord (s : State) : Word :=
  match s.structural with
  | .ok _ => packValResult true s.symcountOk s.discardOk 0 0
  | .error e => packValResult false s.symcountOk s.discardOk e.code e.detail

/-- The writes of VALIDATE (R117). -/
def applyValidate (s : State) : State :=
  s.withRegs
    { s.regs with
      valResult := s.valResultWord
      valSymcount := if s.symcountOk then BitVec.ofNat 32 s.symcount else s.regs.valSymcount
      valDiscard := if s.discardOk then (s.mem.ctr.get (4 + 3 * s.symcount)).toWord else s.regs.valDiscard
      valPayload :=
        if s.discardOk then BitVec.ofNat 32 (s.regs.ctrLen.toNat - (5 + 3 * s.symcount))
        else s.regs.valPayload }

/-- The completion step of VALIDATE (R117, R126): it never raises. -/
def completeValidate (s : State) : State := (applyValidate s).complete none

/-- VALIDATE as a transaction (R82, R117): while IDLE the command starts, while BUSY it is an ignored write (R80). -/
def execValidate (s : State) : Host.Outcome State Fault Refusal :=
  .next (s.hostWrite (fun s => s.startCommand .validate))

/-! ### VERIFY -/

/-- The least `i < m` with `DEC[i] != MSG[i]` (R119). -/
def firstMismatch (dec msg : Nat → Byte) (m : Nat) : Option Nat :=
  (List.range m).find? (fun i => dec i ≠ msg i)

/-- The comparison of VERIFY (R119), made on the state after a decode that succeeded: MATCH and VER_MISMATCH. -/
def State.compareMessage (s : State) : Bool × Word :=
  match firstMismatch s.mem.dec.get s.mem.msg.get (min s.regs.decLen.toNat s.regs.msgLen.toNat) with
  | some i => (false, BitVec.ofNat 32 i)
  | none =>
    if s.regs.decLen ≠ s.regs.msgLen then
      (false, BitVec.ofNat 32 (min s.regs.decLen.toNat s.regs.msgLen.toNat))
    else (true, 0xFFFFFFFF)

/-- VER_RESULT and VER_MISMATCH after a decode that succeeded (R119): no comparison if MSG_LEN exceeds MSG_CAP. -/
def reportDecoded (s : State) : State :=
  if s.caps.msg < s.regs.msgLen.toNat then
    s.withRegs { s.regs with verResult := packVerResult false true true 0 0, verMismatch := 0xFFFFFFFF }
  else
    s.withRegs
      { s.regs with
        verResult := packVerResult s.compareMessage.1 false true 0 0
        verMismatch := s.compareMessage.2 }

/-- VER_RESULT and VER_MISMATCH after a decode that failed with `e` (R119). -/
def reportUndecoded (s : State) (e : CodecError) : State :=
  s.withRegs
    { s.regs with
      verResult := packVerResult false (decide (s.caps.msg < s.regs.msgLen.toNat)) false e.code e.detail
      verMismatch := 0xFFFFFFFF }

/-- The completion step of VERIFY (R119, R126): DECODE's own writes or failure rule, then the report; it never
raises. -/
def completeVerify (s : State) : State :=
  match decodeBody s with
  | .ok r => (reportDecoded (applyDecode s r)).complete none
  | .error f => (reportUndecoded (failDecode s f) f.error).complete none

/-- VERIFY as a transaction (R82, R119): while IDLE the command starts, while BUSY it is an ignored write (R80). -/
def execVerify (s : State) : Host.Outcome State Fault Refusal :=
  .next (s.hostWrite (fun s => s.startCommand .verify))

/-! ### BAD_COMMAND -/

/-- BAD_COMMAND as a transaction (R120): while IDLE it completes at once, while BUSY it is an ignored write (R80). The
word itself has no further effect. -/
def execBadCommand (_data : Word) (s : State) : Host.Outcome State Fault Refusal :=
  .next (s.hostWrite State.reportBadCommand)

end Sys2Proof.Machine
end

