-- ==== Sys2Proof/Machine/Engine.lean ====
section
/-! DEFINITION. The engine's completion step (60_exceptions.md R126) and its turns in the schedule
(70_reset_and_hazards.md R141). -/

namespace Sys2Proof.Machine

/-- The completion step of the running command (R126). Host writes while BUSY are ignored, so the state it reads is
still the one at the CMD write, and the whole command is computed here (R141, log 7). -/
def completionStep (c : Command) (s : State) : State :=
  match c with
  | .encode => completeEncode s
  | .decode => completeDecode s
  | .validate => completeValidate s
  | .verify => completeVerify s

/-- The engine's turn: the completion step while BUSY, nothing while IDLE (R137, R141; log 5, log 6). -/
def engineTurn (s : State) : State :=
  match s.phase with
  | .idle => s
  | .busy c => completionStep c s

end Sys2Proof.Machine
end

