-- ==== Sys2Proof/Machine/HostPort.lean ====
section
/-! DEFINITION. The sixteen host transactions (41_host_port.md R81 to R96), one meaning each. -/

namespace Sys2Proof.Machine

/-- REG_RD (R81): STATUS and CAP_* are exact while BUSY too. -/
def execRegRd (index : Word) (s : State) : Host.Outcome State Fault Refusal :=
  if index = 1 ∨ index = 19 ∨ index = 20 ∨ index = 21 then .next (s.respond (s.readReg index.toNat))
  else .next (s.hostRead (s.readReg index.toNat))

/-- REG_WR (R82), whole: index 0 is the CMD write, which the five CMD rows stand for (log 12). -/
def execRegWr (index data : Word) (s : State) : Host.Outcome State Fault Refusal :=
  if index = 0 then .next (s.hostWrite (fun s => s.writeCmd data))
  else .next (s.hostWrite (fun s => s.withRegs (s.regs.hostWrite index.toNat data)))

/-- MSG_RD (R83). -/
def execMsgRd (index : Word) (s : State) : Host.Outcome State Fault Refusal :=
  .next (s.hostRead (s.mem.msg.hostGet s.caps.msg index.toNat))

/-- MSG_WR (R84). -/
def execMsgWr (index data : Word) (s : State) : Host.Outcome State Fault Refusal :=
  .next (s.hostWrite (fun s => s.withMem { s.mem with msg := s.mem.msg.hostSet s.caps.msg index.toNat data }))

/-- CTR_RD (R85). -/
def execCtrRd (index : Word) (s : State) : Host.Outcome State Fault Refusal :=
  .next (s.hostRead (s.mem.ctr.hostGet s.caps.ctr index.toNat))

/-- CTR_WR (R86). -/
def execCtrWr (index data : Word) (s : State) : Host.Outcome State Fault Refusal :=
  .next (s.hostWrite (fun s => s.withMem { s.mem with ctr := s.mem.ctr.hostSet s.caps.ctr index.toNat data }))

/-- DEC_RD (R87). -/
def execDecRd (index : Word) (s : State) : Host.Outcome State Fault Refusal :=
  .next (s.hostRead (s.mem.dec.hostGet s.caps.dec index.toNat))

/-- DEC_WR (R88): DEC is read-only to the host. -/
def execDecWr (_index _data : Word) (s : State) : Host.Outcome State Fault Refusal :=
  .next (s.hostWrite (fun s => s))

/-- FREQ_RD (R89): 256 words. -/
def execFreqRd (index : Word) (s : State) : Host.Outcome State Fault Refusal :=
  .next (s.hostRead (WordTable.hostGet s.mem.freq 256 index.toNat))

/-- FREQ_WR (R90): FREQ is read-only to the host. -/
def execFreqWr (_index _data : Word) (s : State) : Host.Outcome State Fault Refusal :=
  .next (s.hostWrite (fun s => s))

/-- NODE_RD (R91): 1022 words. -/
def execNodeRd (index : Word) (s : State) : Host.Outcome State Fault Refusal :=
  .next (s.hostRead (WordTable.hostGet s.mem.node 1022 index.toNat))

/-- NODE_WR (R92): NODE is read-only to the host. -/
def execNodeWr (_index _data : Word) (s : State) : Host.Outcome State Fault Refusal :=
  .next (s.hostWrite (fun s => s))

/-- CODE_RD (R93): 4096 words. -/
def execCodeRd (index : Word) (s : State) : Host.Outcome State Fault Refusal :=
  .next (s.hostRead (WordTable.hostGet s.mem.code 4096 index.toNat))

/-- CODE_WR (R94): CODE is read-only to the host. -/
def execCodeWr (_index _data : Word) (s : State) : Host.Outcome State Fault Refusal :=
  .next (s.hostWrite (fun s => s))

/-- RSV_RD (R95): every index reads 0. -/
def execRsvRd (_index : Word) (s : State) : Host.Outcome State Fault Refusal :=
  .next (s.hostRead 0)

/-- RSV_WR (R96): ignored. -/
def execRsvWr (_index _data : Word) (s : State) : Host.Outcome State Fault Refusal :=
  .next (s.hostWrite (fun s => s))

end Sys2Proof.Machine
end

