-- ==== Sys2Proof/Machine/Dispatch.lean ====
section
/-! DEFINITION. One arm per instruction, each one call of its meaning. -/

namespace Sys2Proof.Machine

def exec (i : Instr) (s : State) : Host.Outcome State Fault Refusal :=
  match i with
  | .encode => Sys2Proof.Machine.execEncode s
  | .decode => Sys2Proof.Machine.execDecode s
  | .validate => Sys2Proof.Machine.execValidate s
  | .verify => Sys2Proof.Machine.execVerify s
  | .badCommand data => Sys2Proof.Machine.execBadCommand data s
  | .regRd index => Sys2Proof.Machine.execRegRd index s
  | .regWr index data => Sys2Proof.Machine.execRegWr index data s
  | .msgRd index => Sys2Proof.Machine.execMsgRd index s
  | .msgWr index data => Sys2Proof.Machine.execMsgWr index data s
  | .ctrRd index => Sys2Proof.Machine.execCtrRd index s
  | .ctrWr index data => Sys2Proof.Machine.execCtrWr index data s
  | .decRd index => Sys2Proof.Machine.execDecRd index s
  | .decWr index data => Sys2Proof.Machine.execDecWr index data s
  | .freqRd index => Sys2Proof.Machine.execFreqRd index s
  | .freqWr index data => Sys2Proof.Machine.execFreqWr index data s
  | .nodeRd index => Sys2Proof.Machine.execNodeRd index s
  | .nodeWr index data => Sys2Proof.Machine.execNodeWr index data s
  | .codeRd index => Sys2Proof.Machine.execCodeRd index s
  | .codeWr index data => Sys2Proof.Machine.execCodeWr index data s
  | .rsvRd index => Sys2Proof.Machine.execRsvRd index s
  | .rsvWr index data => Sys2Proof.Machine.execRsvWr index data s

end Sys2Proof.Machine
end

