-- ==== Sys2Proof/Machine/Step.lean ====
section
/-! DEFINITION. One atomic step (70_reset_and_hazards.md R141): the next event of the schedule, or, when none waits,
the engine's turn. -/

namespace Sys2Proof.Machine

/-- The next event is taken off the schedule and happens. With none waiting, a BUSY engine completes (R141, fairness;
log 5) and an IDLE machine stays as it is (R137). -/
def step (s : State) : Host.Outcome State Fault Refusal :=
  match s.events with
  | [] => .next (engineTurn s)
  | .packet p :: rest => exec (decodePacket p) (s.withEvents rest)
  | .engine :: rest => .next (engineTurn (s.withEvents rest))
  | .reset :: rest => .next (State.resetInput (s.withEvents rest))

/-- `s` with the packet of a table word as the host's next transaction (log 9, log 10). No packet has a bit above bit
67: such a word puts nothing. -/
def State.withFetchWord (s : State) (nbits w : Nat) : State :=
  match packetOfTableWord nbits w with
  | some p => s.withEvents (.packet p :: s.events)
  | none => s

end Sys2Proof.Machine
end

