-- ==== Sys2Proof/WellFormed.lean ====
section
/-! DEFINITION. Which terms of `Instr` are the reading of a packet, and which are reads. -/

namespace Sys2Proof

/-- The conditions of opcode_table.json: a REG_WR row leaves INDEX 0 to the CMD rows, and BAD_COMMAND leaves the
command words 1 to 4 to the four commands (R70). Every other row takes every operand (R68). -/
def Instr.wellFormed : Instr → Bool
  | .encode => true
  | .decode => true
  | .validate => true
  | .verify => true
  | .badCommand data => data ≠ 1 && data ≠ 2 && data ≠ 3 && data ≠ 4
  | .regRd _ => true
  | .regWr index _ => index ≠ 0
  | .msgRd _ => true
  | .msgWr _ _ => true
  | .ctrRd _ => true
  | .ctrWr _ _ => true
  | .decRd _ => true
  | .decWr _ _ => true
  | .freqRd _ => true
  | .freqWr _ _ => true
  | .nodeRd _ => true
  | .nodeWr _ _ => true
  | .codeRd _ => true
  | .codeWr _ _ => true
  | .rsvRd _ => true
  | .rsvWr _ _ => true

/-- The packet's W bit is 0 (R68): the transaction returns a response word. -/
def Instr.isRead : Instr → Bool
  | .encode => false
  | .decode => false
  | .validate => false
  | .verify => false
  | .badCommand _ => false
  | .regRd _ => true
  | .regWr _ _ => false
  | .msgRd _ => true
  | .msgWr _ _ => false
  | .ctrRd _ => true
  | .ctrWr _ _ => false
  | .decRd _ => true
  | .decWr _ _ => false
  | .freqRd _ => true
  | .freqWr _ _ => false
  | .nodeRd _ => true
  | .nodeWr _ _ => false
  | .codeRd _ => true
  | .codeWr _ _ => false
  | .rsvRd _ => true
  | .rsvWr _ _ => false

end Sys2Proof
end

