-- ==== Sys2Proof/Safety.lean ====
section
/-! DEFINITION. The terms claims are made in: the invariants of the machine, and a command run from start to
completion. -/

namespace Sys2Proof.Machine

/-! ### Runs of one command -/

/-- Command `c` from its CMD write while IDLE to its completion step, with no host transaction between (R82, R126). -/
def runCommand (c : Command) (s : State) : State := completionStep c (s.startCommand c)

/-- The size of the container of a message (R103): header, then the payload in whole bytes. -/
def encodedSize (m : List Byte) : Nat :=
  match encodeMessage m with
  | none => 0
  | some r => 5 + 3 * r.table.length + (r.bits.length + 7) / 8

/-- CTR holds, as a present file that fits it, the container of the table `t`, the discarded-bit byte `d` and the
payload `p`, in the layout of R72. -/
def HoldsContainer (s : State) (t : FreqTable) (d : Byte) (p : List Byte) : Prop :=
  s.regs.present = true ∧ s.regs.ctrLen.toNat ≤ s.caps.ctr ∧
    s.regs.ctrLen.toNat = 5 + 3 * t.length + p.length ∧ be32 s.mem.ctr.get 0 = t.length ∧
      (∀ i (h : i < t.length), s.mem.ctr.get (4 + 3 * i) = t[i].symbol ∧ be16 s.mem.ctr.get (5 + 3 * i) = t[i].count) ∧
        s.mem.ctr.get (4 + 3 * t.length) = d ∧ ∀ i (h : i < p.length), s.mem.ctr.get (5 + 3 * t.length + i) = p[i]

/-- The bits of the payload `p` of the table `t` spell the message `out`, each symbol as often as the table says: what
DECODE has to find (R111, R112). -/
def Spells (t : FreqTable) (d : Byte) (p out : List Byte) : Prop :=
  out.length = FreqTable.total t ∧ (∀ e ∈ t, out.count e.symbol = e.count) ∧
    ∃ b, treeBuild t = some b ∧ bitUnpack p d.toNat = payloadBits out (codeGen b.root)

/-- A table DECODE accepts (R108): not empty, no count 0, no symbol twice. -/
def ReadableTable (t : FreqTable) : Prop :=
  t ≠ [] ∧ (∀ e ∈ t, e.count ≠ 0) ∧ (t.map Entry.symbol).Nodup

/-- The transaction is one of the five writes to REG.CMD (R70). -/
def isCommandWrite (i : Instr) : Prop :=
  i = .encode ∨ i = .decode ∨ i = .validate ∨ i = .verify ∨ (∃ data, i = .badCommand data) ∨
    ∃ data, i = .regWr 0 data

/-- The write to REG.CMD that starts a command (R70). -/
def startingWrite : Command → Instr
  | .encode => .encode
  | .decode => .decode
  | .validate => .validate
  | .verify => .verify

/-! ### The fields of words, bit by bit -/

/-- The layout of STATUS (R25: BUSY, DONE, WIGN, ERR, DETAIL), VAL_RESULT (R37: VALID, SYMCOUNT_OK, DISCARD_OK, ERR,
DETAIL) and VER_RESULT (R41: MATCH, ORIG_CAP, DECODED, DEC_ERR, DEC_DETAIL): the flags in bits 0, 1 and 2, the error
code in [7:4], its detail in [15:8], and every reserved bit 0. -/
def ReportBits (w : Word) (bit0 bit1 bit2 : Bool) (err : BitVec 4) (detail : BitVec 8) : Prop :=
  w.getLsbD 0 = bit0 ∧ w.getLsbD 1 = bit1 ∧ w.getLsbD 2 = bit2 ∧ w.getLsbD 3 = false ∧
    (∀ i < 4, w.getLsbD (4 + i) = err.getLsbD i) ∧ (∀ i < 8, w.getLsbD (8 + i) = detail.getLsbD i) ∧
      ∀ i < 16, w.getLsbD (16 + i) = false

/-- The layout of word 2k+1 of a node (R47): LEFT [8:0] and RIGHT [17:9], the children's indices; SYMBOL [25:18];
[29:26] reserved; INTERNAL [30]; VALID [31]. -/
def NodeBits (w : Word) : Tree → Prop
  | .leaf _ symbol _ =>
    (∀ i < 18, w.getLsbD i = false) ∧ (∀ i < 8, w.getLsbD (18 + i) = symbol.getLsbD i) ∧
      (∀ i < 4, w.getLsbD (26 + i) = false) ∧ w.getLsbD 30 = false ∧ w.getLsbD 31 = true
  | .internal _ _ l r =>
    (l.seq < 512 ∧ ∀ i < 9, w.getLsbD i = l.seq.testBit i) ∧
      (r.seq < 512 ∧ ∀ i < 9, w.getLsbD (9 + i) = r.seq.testBit i) ∧
        (∀ i < 12, w.getLsbD (18 + i) = false) ∧ w.getLsbD 30 = true ∧ w.getLsbD 31 = true

/-! ### Invariants -/

/-- STATUS tells the truth (R25, R142, R122, R123): its reserved bits are 0 and its BUSY bit is 1 exactly while a
command runs; while BUSY, DONE, ERR and DETAIL are 0; otherwise ERR and DETAIL are codes R122 and R123 list, and they
are 0 unless DONE is 1. -/
def StatusTruthful (s : State) : Prop :=
  ∃ done wign : Bool, ∃ e : Option CodecError,
    s.regs.status = packStatus s.isBusy done wign (errCode e) (errDetail e) ∧
      (s.isBusy = true → done = false) ∧ (done = false → e = none)

/-- No space holds an element beyond its size (R52), and CTR_PRESENT holds only its bit 0 (R28). -/
def SpacesBounded (s : State) : Prop :=
  ((∀ x ∈ s.mem.msg.cells, x.1 < s.caps.msg) ∧ (∀ x ∈ s.mem.ctr.cells, x.1 < s.caps.ctr) ∧
      ∀ x ∈ s.mem.dec.cells, x.1 < s.caps.dec) ∧
    ((∀ x ∈ s.mem.freq, x.1 < 256) ∧ (∀ x ∈ s.mem.node, x.1 < 1022) ∧ ∀ x ∈ s.mem.code, x.1 < 4096) ∧
      (s.regs.ctrPresent = 0 ∨ s.regs.ctrPresent = 1)

/-- While a command runs, the result state is at its reset value (R51): the start cleared it, and nothing is written
before the completion step. -/
def ResultsClearWhileBusy (s : State) : Prop :=
  s.isBusy = true → s.regs = s.regs.clearResults ∧ s.mem = s.mem.clearTables

/-- The tree registers agree (R30, R31, R34, R35): with no symbol, ROOT and PAYLOAD_OFF are 0; with N symbols,
N ≤ 256, ROOT is 2N − 2, PAYLOAD_OFF is 5 + 3N and DISCARD is at most 7. -/
def TreeRegsAgree (r : Regs) : Prop :=
  (r.nSyms = 0 ∧ r.root = 0 ∧ r.payloadOff = 0 ∧ r.discard = 0 ∧ r.total = 0 ∧ r.encBits = 0 ∧ r.decBits = 0 ∧
      r.decLen = 0) ∨
    (1 ≤ r.nSyms.toNat ∧ r.nSyms.toNat ≤ 256 ∧ r.root.toNat = 2 * r.nSyms.toNat - 2 ∧
      r.payloadOff.toNat = 5 + 3 * r.nSyms.toNat ∧ r.discard.toNat ≤ 7)

/-- The result registers have the shape 10_state.md gives them, while IDLE and while BUSY. -/
def ResultsShaped (s : State) : Prop := ResultsClearWhileBusy s ∧ TreeRegsAgree s.regs

/-- The model's own bookkeeping of free values (log 3): every index in use is below the next one, so a new
unspecified byte is never tied to an old one. -/
def FreeValuesFresh (s : State) : Prop :=
  (s.mem.msg.epoch < s.fresh ∧ ∀ m ∈ s.mem.msg.marks, m.2 < s.fresh) ∧
    (s.mem.ctr.epoch < s.fresh ∧ ∀ m ∈ s.mem.ctr.marks, m.2 < s.fresh) ∧
      (s.mem.dec.epoch < s.fresh ∧ ∀ m ∈ s.mem.dec.marks, m.2 < s.fresh)

end Sys2Proof.Machine
end

