-- ==== Sys2Proof/Certificates/Slice0/Obligations.lean ====
section
/-! DEFINITION. The statements about HUFFCORE: each is a proposition, none is proved here. -/

open Sys2Proof Sys2Proof.Machine

/-! ### Encoding (30_encoding.md) -/

/-- R68, R70: decoding the packet of a well-formed instruction gives the instruction back, for every operand. -/
def Obligations.DecodeEncodeRoundTrip : Prop :=
  ∀ i : Instr, i.wellFormed = true → decodePacket (encodePacket i) = i

/-- R68: every packet is a defined transaction, a read exactly when W is 0, and no bit of it is lost but a read's
DATA, which R68 says is ignored. -/
def Obligations.EncodeDecodeGivesPacketBack : Prop :=
  ∀ p : Packet,
    (decodePacket p).wellFormed = true ∧ (decodePacket p).isRead = !p.writeBit ∧
      encodePacket (decodePacket p) = if p.writeBit then p else Packet.make false p.space p.index 0

/-- Packets of the spec decode to their transactions: eight written out in 30_encoding.md R68 or 95_test_vectors.md, and
two worked out here from R68: the CMD write of V-BC7's word 0x101, and a NODE read whose DATA, 0x3FE, is ignored. -/
def Obligations.SpecPacketsDecode : Prop :=
  decodePacket 0x80000000200000004 = .regWr 2 4 ∧ decodePacket 0x00000000100000000 = .regRd 1 ∧
    decodePacket 0x80000000000000001 = .encode ∧ decodePacket 0x80000000000000004 = .verify ∧
    decodePacket 0x80000000000000101 = .badCommand 0x101 ∧ decodePacket 0x90000000300000141 = .msgWr 3 0x141 ∧
    decodePacket 0xA0000001300000001 = .ctrWr 19 1 ∧ decodePacket 0x500000000000003FE = .nodeRd 0 ∧
    decodePacket 0x5000003FE00000000 = .nodeRd 1022 ∧ decodePacket 0xF0000000500000001 = .rsvWr 5 1

/-- R70: the whole command word selects the command; any other value is BAD_COMMAND. -/
def Obligations.CommandWordSelects : Prop :=
  ∀ v : Word,
    (v = 1 → decodePacket (Packet.make true 0 0 v) = .encode ∧ decodeCmd v = some .encode) ∧
    (v = 2 → decodePacket (Packet.make true 0 0 v) = .decode ∧ decodeCmd v = some .decode) ∧
    (v = 3 → decodePacket (Packet.make true 0 0 v) = .validate ∧ decodeCmd v = some .validate) ∧
    (v = 4 → decodePacket (Packet.make true 0 0 v) = .verify ∧ decodeCmd v = some .verify) ∧
    (v ≠ 1 → v ≠ 2 → v ≠ 3 → v ≠ 4 →
      decodePacket (Packet.make true 0 0 v) = .badCommand v ∧ decodeCmd v = none)

/-! ### Steps (70_reset_and_hazards.md) -/

/-- R141, R68: with a host transaction next, the step takes it off the schedule and runs the instruction its packet
decodes to, which is well-formed; a packet put with `withFetchWord` is run by the very next step. -/
def Obligations.StepRunsDecodedPacket : Prop :=
  (∀ (s : State) (p : Packet) (rest : List Event), s.events = .packet p :: rest →
    (decodePacket p).wellFormed = true ∧ step s = exec (decodePacket p) { s with events := rest }) ∧
  ∀ (s : State) (nbits w : Nat) (i : Instr), decodeTableWord nbits w = some i →
    step (s.withFetchWord nbits w) = exec i s

/-- R141, R137: the other steps. The engine's turn is the completion step while a command runs and changes nothing
while IDLE; with no event left a running command completes (log 5) and an IDLE machine stays as it is. -/
def Obligations.StepTakesEngineTurns : Prop :=
  (∀ (s : State) (rest : List Event) (c : Command), s.events = .engine :: rest → s.phase = .busy c →
    step s = .next (completionStep c { s with events := rest })) ∧
  (∀ (s : State) (rest : List Event), s.events = .engine :: rest → s.phase = .idle →
    step s = .next { s with events := rest }) ∧
  (∀ (s : State) (c : Command), s.events = [] → s.phase = .busy c → step s = .next (completionStep c s)) ∧
  ∀ s : State, s.events = [] → s.phase = .idle → step s = .next s

/-- R53, R62, R132: nothing faults, stalls or is refused: every instruction, and every step, answers a next state. -/
def Obligations.NothingFaultsOrIsRefused : Prop :=
  (∀ (i : Instr) (s : State), ∃ t, exec i s = .next t) ∧ ∀ s : State, ∃ t, step s = .next t

/-- R138: a reset, at any time. CTR and DEC are kept if it is taken while IDLE; taken while BUSY their bytes become
the free values of log 3. -/
def Obligations.ResetClearsTheMachine : Prop :=
  ∀ (s : State) (rest : List Event), s.events = .reset :: rest →
    ∃ t, step s = .next t ∧ t.phase = .idle ∧ t.regs = .zero ∧ t.caps = s.caps ∧ t.events = rest ∧
      (∀ i, WordTable.get t.mem.freq i = 0 ∧ WordTable.get t.mem.node i = 0 ∧ WordTable.get t.mem.code i = 0) ∧
      t.mem.msg = s.mem.msg ∧
      (s.phase = .idle → t.mem.ctr = s.mem.ctr ∧ t.mem.dec = s.mem.dec) ∧
      ∀ c, s.phase = .busy c → ∀ a, t.mem.ctr.get a = Config.freeByte s.fresh a ∧
        t.mem.dec.get a = Config.freeByte (s.fresh + 1) a

/-- R139 and the reset values of 10_state.md §6, for every value of the capacity parameters (the model's reset
capacities are a choice, log 1, and no part of this); a buffer byte is a free value of log 3, each buffer its own. -/
def Obligations.PowerUpValues : Prop :=
  (∀ caps : Caps,
    let s := State.powerUp caps
    s.phase = .idle ∧ (∀ i, i ≤ 18 → s.readReg i = 0) ∧ s.readReg 19 = BitVec.ofNat 32 caps.msg ∧
      s.readReg 20 = BitVec.ofNat 32 caps.ctr ∧ s.readReg 21 = BitVec.ofNat 32 caps.dec ∧
      (∀ i, 22 ≤ i → s.readReg i = 0) ∧
      (∀ i, WordTable.get s.mem.freq i = 0 ∧ WordTable.get s.mem.node i = 0 ∧ WordTable.get s.mem.code i = 0) ∧
      ∃ i j k, i ≠ j ∧ j ≠ k ∧ i ≠ k ∧ ∀ a, s.mem.msg.get a = Config.freeByte i a ∧
        s.mem.ctr.get a = Config.freeByte j a ∧ s.mem.dec.get a = Config.freeByte k a) ∧
  State.reset = State.powerUp State.reset.caps

/-! ### The host port while BUSY (41_host_port.md R80, 70_reset_and_hazards.md R142) -/

/-- R80: any host write while BUSY changes nothing but STATUS.WIGN, which becomes 1; WIGN stays 1 until a write to CMD
is taken while IDLE or a reset, and nothing but a host write while BUSY sets it. -/
def Obligations.BusyWriteOnlySetsWign : Prop :=
  (∀ (i : Instr) (s : State) (c : Command), s.phase = .busy c → i.isRead = false →
    exec i s = .next { s with regs := { s.regs with status := setWign s.regs.status }, response := none } ∧
      statusWign (setWign s.regs.status) = true ∧
      ∀ k, k ≠ 2 → (setWign s.regs.status).getLsbD k = s.regs.status.getLsbD k) ∧
  ∀ s t : State, step s = .next t →
    (statusWign s.regs.status = true →
      statusWign t.regs.status = true ∨ (∃ rest, s.events = .reset :: rest) ∨
        (s.phase = .idle ∧ ∃ p rest, s.events = .packet p :: rest ∧ isCommandWrite (decodePacket p))) ∧
    (statusWign s.regs.status = false → statusWign t.regs.status = true →
      (∃ c, s.phase = .busy c) ∧ ∃ p rest, s.events = .packet p :: rest ∧ (decodePacket p).isRead = false)

/-- R142: while BUSY, STATUS and the capacities read exactly, and STATUS reads BUSY 1, DONE 0, ERR 0, DETAIL 0 and the
current WIGN; every other read returns `draw()`, a free value (log 2), and no read has a side effect. -/
def Obligations.ReadsWhileBusy : Prop :=
  ∀ (s : State) (c : Command), s.phase = .busy c →
    exec (.regRd 1) s = .next { s with response := some s.regs.status } ∧
    (StatusTruthful s → s.regs.status = packStatus true false (statusWign s.regs.status) 0 0) ∧
    exec (.regRd 19) s = .next { s with response := some (BitVec.ofNat 32 s.caps.msg) } ∧
    exec (.regRd 20) s = .next { s with response := some (BitVec.ofNat 32 s.caps.ctr) } ∧
    exec (.regRd 21) s = .next { s with response := some (BitVec.ofNat 32 s.caps.dec) } ∧
    ∀ i : Instr, i.isRead = true → i ≠ .regRd 1 → i ≠ .regRd 19 → i ≠ .regRd 20 → i ≠ .regRd 21 →
      exec i s = .next { s with response := some (Config.draw s.fresh), fresh := s.fresh + 1 }

/-! ### The host port while IDLE (41_host_port.md) -/

/-- R81 while IDLE, with the map of R23: every index returns its register, and nothing else changes. -/
def Obligations.RegReadReturnsRegister : Prop :=
  ∀ (s : State) (i : Word), s.phase = .idle →
    ∃ v, exec (.regRd i) s = .next { s with response := some v } ∧
      (i = 0 → v = 0) ∧ (i = 1 → v = s.regs.status) ∧ (i = 2 → v = s.regs.msgLen) ∧ (i = 3 → v = s.regs.ctrLen) ∧
      (i = 4 → v = s.regs.ctrPresent) ∧ (i = 5 → v = s.regs.decLen) ∧ (i = 6 → v = s.regs.nSyms) ∧
      (i = 7 → v = s.regs.root) ∧ (i = 8 → v = s.regs.encBits) ∧ (i = 9 → v = s.regs.decBits) ∧
      (i = 10 → v = s.regs.discard) ∧ (i = 11 → v = s.regs.payloadOff) ∧ (i = 12 → v = s.regs.total) ∧
      (i = 13 → v = s.regs.valResult) ∧ (i = 14 → v = s.regs.valSymcount) ∧ (i = 15 → v = s.regs.valDiscard) ∧
      (i = 16 → v = s.regs.valPayload) ∧ (i = 17 → v = s.regs.verResult) ∧ (i = 18 → v = s.regs.verMismatch) ∧
      (i = 19 → v = BitVec.ofNat 32 s.caps.msg) ∧ (i = 20 → v = BitVec.ofNat 32 s.caps.ctr) ∧
      (i = 21 → v = BitVec.ofNat 32 s.caps.dec) ∧ (22 ≤ i.toNat → v = 0)

/-- R44: a reserved register reads 0 and ignores writes while IDLE; while BUSY a write to it sets WIGN, and nothing
else. -/
def Obligations.ReservedRegisters : Prop :=
  ∀ (s : State) (i v : Word), 22 ≤ i.toNat →
    (s.phase = .idle → exec (.regRd i) s = .next { s with response := some 0 } ∧
      exec (.regWr i v) s = .next { s with response := none }) ∧
    ∀ c, s.phase = .busy c →
      exec (.regWr i v) s =
        .next { s with regs := { s.regs with status := setWign s.regs.status }, response := none }

/-- R43: CAP_MSG, CAP_CTR and CAP_DEC hold the parameters at every time, no step changes them, and a host write to
them is ignored while IDLE. -/
def Obligations.CapacitiesAreConstant : Prop :=
  (∀ s t : State, step s = .next t → t.caps = s.caps) ∧
  (∀ s : State, exec (.regRd 19) s = .next { s with response := some (BitVec.ofNat 32 s.caps.msg) } ∧
    exec (.regRd 20) s = .next { s with response := some (BitVec.ofNat 32 s.caps.ctr) } ∧
    exec (.regRd 21) s = .next { s with response := some (BitVec.ofNat 32 s.caps.dec) }) ∧
  ∀ (s : State) (v : Word), s.phase = .idle →
    exec (.regWr 19 v) s = .next { s with response := none } ∧
    exec (.regWr 20 v) s = .next { s with response := none } ∧
    exec (.regWr 21 v) s = .next { s with response := none }

/-- R82 for an index other than CMD, while IDLE: MSG_LEN and CTR_LEN store every bit, CTR_PRESENT stores bit 0,
every other register ignores the write, and nothing else changes. -/
def Obligations.RegWriteStores : Prop :=
  ∀ (s : State) (i v : Word), s.phase = .idle → i ≠ 0 →
    (i = 2 → exec (.regWr i v) s = .next { s with regs := { s.regs with msgLen := v }, response := none }) ∧
    (i = 3 → exec (.regWr i v) s = .next { s with regs := { s.regs with ctrLen := v }, response := none }) ∧
    (i = 4 → exec (.regWr i v) s =
      .next { s with regs := { s.regs with ctrPresent := if v.getLsbD 0 then 1 else 0 }, response := none }) ∧
    (i ≠ 2 → i ≠ 3 → i ≠ 4 → exec (.regWr i v) s = .next { s with response := none })

/-- R83, R85, R87 while IDLE: a byte of MSG, CTR or DEC, zero-extended; 0 at or beyond the capacity. -/
def Obligations.ByteBufferReads : Prop :=
  ∀ (s : State) (i : Word), s.phase = .idle →
    exec (.msgRd i) s = .next { s with
      response := some (if i.toNat < s.caps.msg then (s.mem.msg.get i.toNat).setWidth 32 else 0) } ∧
    exec (.ctrRd i) s = .next { s with
      response := some (if i.toNat < s.caps.ctr then (s.mem.ctr.get i.toNat).setWidth 32 else 0) } ∧
    exec (.decRd i) s = .next { s with
      response := some (if i.toNat < s.caps.dec then (s.mem.dec.get i.toNat).setWidth 32 else 0) }

/-- R84, R86: a write with SPACE 1 or 2 stores DATA[7:0] in its byte of MSG or CTR and changes nothing else; at or
beyond the capacity it is ignored; while BUSY it only sets WIGN. -/
def Obligations.ByteBufferWrites : Prop :=
  (∀ i v : Word, decodePacket (Packet.make true 1 i v) = .msgWr i v ∧
    decodePacket (Packet.make true 2 i v) = .ctrWr i v) ∧
  (∀ (s : State) (i v : Word), s.phase = .idle →
    (∃ t, exec (.msgWr i v) s = .next t ∧
      (∀ a, t.mem.msg.get a = if a = i.toNat ∧ a < s.caps.msg then v.setWidth 8 else s.mem.msg.get a) ∧
      t = { s with mem := { s.mem with msg := t.mem.msg }, response := none }) ∧
    ∃ t, exec (.ctrWr i v) s = .next t ∧
      (∀ a, t.mem.ctr.get a = if a = i.toNat ∧ a < s.caps.ctr then v.setWidth 8 else s.mem.ctr.get a) ∧
      t = { s with mem := { s.mem with ctr := t.mem.ctr }, response := none }) ∧
  ∀ (s : State) (i v : Word) (c : Command), s.phase = .busy c →
    exec (.msgWr i v) s =
      .next { s with regs := { s.regs with status := setWign s.regs.status }, response := none } ∧
    exec (.ctrWr i v) s =
      .next { s with regs := { s.regs with status := setWign s.regs.status }, response := none }

/-- R83, R84, R85, R86: a byte written through the port reads back zero-extended, and every other index of the space
still reads as before. -/
def Obligations.WriteThenRead : Prop :=
  ∀ (s t : State) (i j v : Word), s.phase = .idle →
    (exec (.msgWr i v) s = .next t → i.toNat < s.caps.msg →
      exec (.msgRd i) t = .next { t with response := some ((v.setWidth 8).setWidth 32) } ∧
      (j ≠ i → ∃ r, exec (.msgRd j) s = .next { s with response := some r } ∧
        exec (.msgRd j) t = .next { t with response := some r })) ∧
    (exec (.ctrWr i v) s = .next t → i.toNat < s.caps.ctr →
      exec (.ctrRd i) t = .next { t with response := some ((v.setWidth 8).setWidth 32) } ∧
      (j ≠ i → ∃ r, exec (.ctrRd j) s = .next { s with response := some r } ∧
        exec (.ctrRd j) t = .next { t with response := some r }))

/-- R89, R91, R93, R95 while IDLE: a word of FREQ, NODE or CODE, 0 beyond the table; the reserved space reads 0. -/
def Obligations.TableReads : Prop :=
  ∀ (s : State) (i : Word), s.phase = .idle →
    exec (.freqRd i) s = .next { s with
      response := some (if i.toNat < 256 then WordTable.get s.mem.freq i.toNat else 0) } ∧
    exec (.nodeRd i) s = .next { s with
      response := some (if i.toNat < 1022 then WordTable.get s.mem.node i.toNat else 0) } ∧
    exec (.codeRd i) s = .next { s with
      response := some (if i.toNat < 4096 then WordTable.get s.mem.code i.toNat else 0) } ∧
    exec (.rsvRd i) s = .next { s with response := some 0 }

/-- R88, R90, R92, R94, R96: the read-only spaces, SPACE 3 to 6, and the reserved space, SPACE 7, ignore a write while
IDLE; while BUSY it only sets WIGN. -/
def Obligations.ReadOnlySpacesIgnoreWrites : Prop :=
  (∀ i v : Word, decodePacket (Packet.make true 3 i v) = .decWr i v ∧
    decodePacket (Packet.make true 4 i v) = .freqWr i v ∧ decodePacket (Packet.make true 5 i v) = .nodeWr i v ∧
    decodePacket (Packet.make true 6 i v) = .codeWr i v ∧ decodePacket (Packet.make true 7 i v) = .rsvWr i v) ∧
  ∀ (s : State) (i v : Word) (w : Instr),
    w = .decWr i v ∨ w = .freqWr i v ∨ w = .nodeWr i v ∨ w = .codeWr i v ∨ w = .rsvWr i v →
    (s.phase = .idle → exec w s = .next { s with response := none }) ∧
    ∀ c, s.phase = .busy c →
      exec w s = .next { s with regs := { s.regs with status := setWign s.regs.status }, response := none }

/-- R61: no read changes anything but the port's response and the model's free-value counter (log 2, log 8); a second
identical write, of any kind but a write to CMD, changes nothing more. -/
def Obligations.ReadsAndRepeatedWritesAreHarmless : Prop :=
  (∀ (i : Instr) (s t : State), i.isRead = true → exec i s = .next t →
    t = { s with response := t.response, fresh := t.fresh }) ∧
  ∀ (i : Instr) (s t : State), i.isRead = false → ¬ isCommandWrite i → exec i s = .next t → exec i t = .next t

/-! ### Command start and BAD_COMMAND (41_host_port.md R82, 44_validate_verify.md R120) -/

/-- R82, R51, R20: a valid command word while IDLE starts its command: the phase is BUSY, STATUS is BUSY alone, every
element of the result state is 0, and what the host owns is kept. The model's choice for an ill-formed term (log 12):
REG[0] written through the REG_WR meaning comes to the same. -/
def Obligations.CommandStart : Prop :=
  (∀ (s : State) (v : Word), exec (.regWr 0 v) s = exec (decodePacket (Packet.make true 0 0 v)) s) ∧
  ∀ (s : State) (c : Command), s.phase = .idle →
    ∃ t, exec (startingWrite c) s = .next t ∧ t.phase = .busy c ∧
      t.regs = { Regs.zero with
        status := 1, msgLen := s.regs.msgLen, ctrLen := s.regs.ctrLen, ctrPresent := s.regs.ctrPresent } ∧
      (∀ i, WordTable.get t.mem.freq i = 0 ∧ WordTable.get t.mem.node i = 0 ∧ WordTable.get t.mem.code i = 0) ∧
      t.mem.msg = s.mem.msg ∧ t.mem.ctr = s.mem.ctr ∧ t.mem.dec = s.mem.dec ∧ t.caps = s.caps ∧
      t.fresh = s.fresh ∧ t.events = s.events ∧ t.response = none

/-- R120: any other command word written to CMD is this transaction; while IDLE it leaves STATUS = 0x00000062 and changes
nothing else; while BUSY it is no BAD_COMMAND, it is ignored and sets WIGN. -/
def Obligations.BadCommandReports : Prop :=
  ∀ (s : State) (v : Word), v ≠ 1 → v ≠ 2 → v ≠ 3 → v ≠ 4 →
    decodePacket (Packet.make true 0 0 v) = .badCommand v ∧
    (s.phase = .idle →
      exec (.badCommand v) s = .next { s with regs := { s.regs with status := 0x62 }, response := none }) ∧
    ∀ c, s.phase = .busy c →
      exec (.badCommand v) s =
        .next { s with regs := { s.regs with status := setWign s.regs.status }, response := none }

/-! ### Completion (60_exceptions.md R126) -/

/-- R25, R37, R41: the words the other statements name by their fields have those fields where the register map puts
them, and the accessors read the fields back from there. -/
def Obligations.ReportWordsLayout : Prop :=
  (∀ (b0 b1 b2 : Bool) (err : BitVec 4) (detail : BitVec 8),
    ReportBits (packStatus b0 b1 b2 err detail) b0 b1 b2 err detail ∧
      ReportBits (packValResult b0 b1 b2 err detail) b0 b1 b2 err detail ∧
      ReportBits (packVerResult b0 b1 b2 err detail) b0 b1 b2 err detail) ∧
  ∀ w : Word, statusBusy w = w.getLsbD 0 ∧ statusDone w = w.getLsbD 1 ∧ statusWign w = w.getLsbD 2 ∧
    (∀ i < 4, (statusErr w).getLsbD i = w.getLsbD (4 + i)) ∧ ∀ i < 8, (statusDetail w).getLsbD i = w.getLsbD (8 + i)

/-- R126: the completion step of any command leaves the engine IDLE with BUSY 0, DONE 1 and WIGN as it was; ERR and
DETAIL are the command's error and its detail, 0 on success and always 0 for VALIDATE and VERIFY; MSG, the capacities,
the schedule and the port's response are untouched. -/
def Obligations.CompletionSetsStatus : Prop :=
  ∀ (s : State) (c : Command), s.phase = .busy c →
    let t := engineTurn s
    t.phase = .idle ∧ t.regs.msgLen = s.regs.msgLen ∧ t.mem.msg = s.mem.msg ∧ t.caps = s.caps ∧
      t.events = s.events ∧ t.response = s.response ∧
      ∃ e : Option CodecError,
        t.regs.status = packStatus false true (statusWign s.regs.status) (errCode e) (errDetail e) ∧
        (c = .validate ∨ c = .verify → e = none) ∧
        (c = .encode → ∀ x, encodeBody s = .error x → e = some x) ∧
        (c = .encode → ∀ r, encodeBody s = .ok r → e = none) ∧
        (c = .decode → ∀ f, decodeBody s = .error f → e = some f.error) ∧
        (c = .decode → ∀ r, decodeBody s = .ok r → e = none)

/-! ### The encode path (42_encoder.md) -/

/-- R97: the frequency table of a message: distinct symbols in first-seen order, exact counts, none for an absent
symbol, summing to the length; 1 to 256 entries for a message that is not empty. -/
def Obligations.FrequencyTableCounts : Prop :=
  ∀ m : List Byte,
    let t := frequencyAnalyze m
    (t.map Entry.symbol).Pairwise (fun x y => m.idxOf x < m.idxOf y) ∧
      (∀ e ∈ t, e.count = m.count e.symbol ∧ 1 ≤ e.count) ∧ (∀ x, x ∈ m ↔ x ∈ t.map Entry.symbol) ∧
      (t.map Entry.count).sum = m.length ∧ (m ≠ [] → 1 ≤ t.length ∧ t.length ≤ 256)

/-- R98: the tree of a table of N entries: leaf k is entry k with number k; N − 1 inner nodes follow, numbered in
order; node k joins two nodes still queued, no node still queued coming before them in the order (frequency, number),
the first of the two as its left child, and its frequency is their sum; the root is the last node. A node is queued
when it has a number below k and is no child of an earlier inner node. -/
def Obligations.TreeOfATable : Prop :=
  ∀ t : FreqTable, t ≠ [] →
    ∃ b, treeBuild t = some b ∧ b.nodes.length = 2 * t.length - 1 ∧ b.nodes[2 * t.length - 2]? = some b.root ∧
      (∀ k (h : k < t.length), b.nodes[k]? = some (.leaf k t[k].symbol t[k].count)) ∧
      let queued := fun (k : Nat) (n : Tree) =>
        n.seq < k ∧ b.nodes[n.seq]? = some n ∧
          ∀ m < k, ∀ f l r, b.nodes[m]? = some (.internal m f l r) → n ≠ l ∧ n ≠ r
      ∀ k, t.length ≤ k → k < 2 * t.length - 1 →
        ∃ l r : Tree, b.nodes[k]? = some (.internal k (l.freq + r.freq) l r) ∧ queued k l ∧ queued k r ∧
          l.before r = true ∧ ∀ n, queued k n → n ≠ l → n ≠ r → r.before n = true

/-- R100, R19: the code table of a tree with distinct symbols: one code per leaf, and it leads the walk from the root to
its symbol; none is empty, none the start of another, none longer than N − 1 bits if N ≥ 2; the only code of a
one-symbol tree is "0". -/
def Obligations.CodesArePrefixFree : Prop :=
  ∀ (t : FreqTable) (b : Built), treeBuild t = some b → (t.map Entry.symbol).Nodup →
    ((codeGen b.root).map Code.symbol).Perm (t.map Entry.symbol) ∧
      (∀ c ∈ codeGen b.root, c.bits ≠ [] ∧ walk b.root 1 c.bits b.root [] = .ok [c.symbol]) ∧
      (∀ c ∈ codeGen b.root, ∀ k ∈ codeGen b.root, c.bits <+: k.bits → c = k) ∧
      (∀ c ∈ codeGen b.root, 2 ≤ t.length → c.bits.length ≤ t.length - 1) ∧
      ∀ x n, t = [⟨x, n⟩] → codeGen b.root = [⟨x, [false]⟩]

/-- R101: the payload's length is the sum over the table of count times code length, and at least the message's
length. -/
def Obligations.PayloadLength : Prop :=
  ∀ (m : List Byte) (b : Built), treeBuild (frequencyAnalyze m) = some b →
    (payloadBits m (codeGen b.root)).length =
        ((frequencyAnalyze m).map (fun e => e.count * (codeOf (codeGen b.root) e.symbol).length)).sum ∧
      m.length ≤ (payloadBits m (codeGen b.root)).length

/-- R102: packing a bit string: ⌈len/8⌉ bytes, 0 to 7 discarded bits, none exactly at a multiple of 8; the bytes'
bits are the string followed by 0s. -/
def Obligations.PackingPadsWithZeros : Prop :=
  ∀ e : Bits,
    (bitPack e).length = (e.length + 7) / 8 ∧ discardedBits e.length ≤ 7 ∧
      8 * (bitPack e).length - discardedBits e.length = e.length ∧ (discardedBits e.length = 0 ↔ e.length % 8 = 0) ∧
      (bitPack e).flatMap bin8 = e ++ List.replicate (discardedBits e.length) false

/-- R110, R75: unpacking: `8·len(P) − d` bits, bit j the bit `7 − (j mod 8)` of byte `j div 8`, the last d bits of the
whole sequence dropped; at least one bit is left of a payload with d ≤ 7. -/
def Obligations.UnpackingBitOrder : Prop :=
  ∀ (p : List Byte) (d : Nat),
    (bitUnpack p d).length = 8 * p.length - d ∧ (p ≠ [] → d ≤ 7 → 1 ≤ (bitUnpack p d).length) ∧
      ∀ j, j < 8 * p.length - d → (bitUnpack p d)[j]? = (p[j / 8]?).map (fun b => b.getLsbD (7 - j % 8))

/-- R104, R125: ENCODE reports its first failing check, in the order empty message, MSG capacity, the first symbol in
first-seen order that occurs more than 65535 times, CTR capacity; it then writes CTR_LEN 0 and CTR_PRESENT 0 and
nothing else. -/
def Obligations.EncodeErrorsInOrder : Prop :=
  ∀ s : State, s.phase = .busy .encode →
    let m := s.message s.regs.msgLen.toNat
    let failed := fun (err : BitVec 4) (detail : BitVec 8) =>
      { s with
        phase := .idle
        regs := { s.regs with
          status := packStatus false true (statusWign s.regs.status) err detail, ctrLen := 0, ctrPresent := 0 } }
    (s.regs.msgLen = 0 → engineTurn s = failed 1 0) ∧
    (s.regs.msgLen ≠ 0 → s.caps.msg < s.regs.msgLen.toNat → engineTurn s = failed 5 1) ∧
    (s.regs.msgLen ≠ 0 → s.regs.msgLen.toNat ≤ s.caps.msg → ∀ x ∈ m, 65535 < m.count x →
      (∀ y ∈ m, 65535 < m.count y → m.idxOf x ≤ m.idxOf y) → engineTurn s = failed 4 x) ∧
    (s.regs.msgLen ≠ 0 → s.regs.msgLen.toNat ≤ s.caps.msg → (∀ x ∈ m, m.count x ≤ 65535) →
      s.caps.ctr < encodedSize m → engineTurn s = failed 5 2)

/-- R104: ENCODE of a message of 1 to MSG_CAP bytes, no symbol above 65535 occurrences, whose container fits: the CMD
write starts it, and its completion step leaves exactly the registers, CTR bytes and tables the rule names, and
everything else as it was. -/
def Obligations.EncodeCommits : Prop :=
  ∀ s : State, s.phase = .idle → s.regs.msgLen ≠ 0 → s.regs.msgLen.toNat ≤ s.caps.msg →
    (∀ x, (s.message s.regs.msgLen.toNat).count x ≤ 65535) →
    encodedSize (s.message s.regs.msgLen.toNat) ≤ s.caps.ctr →
    ∃ t r, exec .encode s = .next t ∧ t.phase = .busy .encode ∧
      encodeMessage (s.message s.regs.msgLen.toNat) = some r ∧
      (engineTurn t).phase = .idle ∧
      (engineTurn t).regs =
        { Regs.zero with
          status := packStatus false true false 0 0
          msgLen := s.regs.msgLen
          ctrLen := BitVec.ofNat 32 r.container.length
          ctrPresent := 1
          nSyms := BitVec.ofNat 32 r.table.length
          root := BitVec.ofNat 32 (2 * r.table.length - 2)
          encBits := BitVec.ofNat 32 r.bits.length
          discard := BitVec.ofNat 32 ((8 - r.bits.length % 8) % 8)
          payloadOff := BitVec.ofNat 32 (5 + 3 * r.table.length)
          total := s.regs.msgLen } ∧
      (∀ a, (engineTurn t).mem.ctr.get a = r.container.getD a (s.mem.ctr.get a)) ∧
      (engineTurn t).mem.msg = s.mem.msg ∧ (engineTurn t).mem.dec = s.mem.dec ∧ (engineTurn t).caps = s.caps ∧
      (engineTurn t).events = s.events ∧ (engineTurn t).fresh = s.fresh

/-- R46, R47, R48: the tables after an ENCODE that succeeds: FREQ counts each symbol of the message; node k stands in
NODE[2k], its frequency, and NODE[2k+1], its fields bit by bit, and the words past the last node are 0; a symbol's code
stands in its sixteen CODE words, which are 0 for a symbol the message lacks. -/
def Obligations.EncodeFillsTables : Prop :=
  ∀ (s : State) (r : EncodeResult), encodeBody s = .ok r → s.phase = .busy .encode → ResultsClearWhileBusy s →
    let m := s.message s.regs.msgLen.toNat
    let t := engineTurn s
    (∀ x : Byte, WordTable.get t.mem.freq x.toNat = BitVec.ofNat 32 (m.count x)) ∧
    (∀ k (h : k < r.built.nodes.length),
      WordTable.get t.mem.node (2 * k) = BitVec.ofNat 32 r.built.nodes[k].freq ∧
      NodeBits (WordTable.get t.mem.node (2 * k + 1)) r.built.nodes[k]) ∧
    (∀ j, 2 * r.built.nodes.length ≤ j → WordTable.get t.mem.node j = 0) ∧
    (∀ c ∈ r.codes, WordTable.get t.mem.code (16 * c.symbol.toNat) = BitVec.ofNat 32 c.bits.length ∧
      (∀ j < 8, ∀ i < 32, (WordTable.get t.mem.code (16 * c.symbol.toNat + 1 + j)).getLsbD (31 - i) =
        c.bits.getD (32 * j + i) false) ∧
      ∀ j, 9 ≤ j → j < 16 → WordTable.get t.mem.code (16 * c.symbol.toNat + j) = 0) ∧
    ∀ x : Byte, x ∉ m → ∀ j < 16, WordTable.get t.mem.code (16 * x.toNat + j) = 0

/-- R72, R103: what an ENCODE that succeeds leaves in CTR is a container of the message's frequency table, the
discarded-bit count and the packed payload, big-endian and byte-packed, for legal capacities. -/
def Obligations.EncodeWritesContainer : Prop :=
  ∀ (s : State) (r : EncodeResult), s.caps.Legal → encodeBody s = .ok r → s.phase = .busy .encode →
    HoldsContainer (engineTurn s) (frequencyAnalyze (s.message s.regs.msgLen.toNat))
      (BitVec.ofNat 8 (discardedBits r.bits.length)) (bitPack r.bits)

/-- R105: ENCODE's results are a function of MSG_LEN, the first MSG_LEN bytes of MSG and the capacities it checks: two
states that agree on them agree on every register and table after it, and on every byte of the container. -/
def Obligations.EncodeIsDeterministic : Prop :=
  ∀ s t : State, s.regs.msgLen = t.regs.msgLen → s.caps.msg = t.caps.msg → s.caps.ctr = t.caps.ctr →
    (∀ i, i < s.regs.msgLen.toNat → s.mem.msg.get i = t.mem.msg.get i) →
    let u := runCommand .encode s
    let v := runCommand .encode t
    u.regs = v.regs ∧ u.mem.freq = v.mem.freq ∧ u.mem.node = v.mem.node ∧ u.mem.code = v.mem.code ∧
      ∀ i, i < u.regs.ctrLen.toNat → u.mem.ctr.get i = v.mem.ctr.get i

/-! ### The decode path (43_decoder.md) -/

/-- R107, R108, R125: DECODE's structural and table errors in their order, reported in STATUS; DEC and every register
but STATUS are unchanged. `bad i` says that entry i's count is 0 or its symbol repeats an earlier one's. -/
def Obligations.DecodeHeaderErrorsInOrder : Prop :=
  ∀ s : State, s.phase = .busy .decode →
    let ctr := s.mem.ctr.get
    let len := s.regs.ctrLen.toNat
    let n := be32 ctr 0
    let present := s.regs.ctrPresent.getLsbD 0 = true
    let bad := fun i => be16 ctr (5 + 3 * i) = 0 ∨ ∃ j < i, ctr (4 + 3 * j) = ctr (4 + 3 * i)
    let failed := fun (err : BitVec 4) (detail : BitVec 8) =>
      { s with
        phase := .idle
        regs := { s.regs with status := packStatus false true (statusWign s.regs.status) err detail } }
    (¬ present → engineTurn s = failed 2 0) ∧
    (present → s.caps.ctr < len → engineTurn s = failed 5 2) ∧
    (present → len ≤ s.caps.ctr → len < 5 → engineTurn s = failed 3 1) ∧
    (present → len ≤ s.caps.ctr → 5 ≤ len → len < 4 + 3 * n → engineTurn s = failed 3 2) ∧
    (present → len ≤ s.caps.ctr → 5 ≤ len → len = 4 + 3 * n → engineTurn s = failed 3 3) ∧
    (present → len ≤ s.caps.ctr → 5 ≤ len → len = 5 + 3 * n → engineTurn s = failed 3 4) ∧
    (present → len ≤ s.caps.ctr → 6 + 3 * n ≤ len → n = 0 → engineTurn s = failed 3 16) ∧
    (present → len ≤ s.caps.ctr → 6 + 3 * n ≤ len → ∀ i < n, (∀ j < i, ¬ bad j) →
      (be16 ctr (5 + 3 * i) = 0 → engineTurn s = failed 3 17) ∧
      (be16 ctr (5 + 3 * i) ≠ 0 → bad i → engineTurn s = failed 3 18)) ∧
    (present → len ≤ s.caps.ctr → 6 + 3 * n ≤ len → n ≠ 0 → (∀ j < n, ¬ bad j) → 7 < (ctr (4 + 3 * n)).toNat →
      engineTurn s = failed 3 19) ∧
    (present → len ≤ s.caps.ctr → 6 + 3 * n ≤ len → n ≠ 0 → (∀ j < n, ¬ bad j) → (ctr (4 + 3 * n)).toNat ≤ 7 →
      s.caps.dec < ((List.range n).map (fun i => be16 ctr (5 + 3 * i))).sum → engineTurn s = failed 5 3)

/-- R113: DECODE of a container whose payload spells a message: the CMD write starts it, and its completion step
leaves the message in DEC, exactly the registers and FREQ and NODE words the rule names, NODE's fields bit by bit
(R47), and everything else as it was. -/
def Obligations.DecodeCommits : Prop :=
  ∀ (s : State) (t : FreqTable) (d : Byte) (p out : List Byte), s.phase = .idle → HoldsContainer s t d p → p ≠ [] →
    ReadableTable t → d.toNat ≤ 7 → FreqTable.total t ≤ s.caps.dec → Spells t d p out →
    ∃ u b, exec .decode s = .next u ∧ u.phase = .busy .decode ∧ treeBuild t = some b ∧
      (engineTurn u).phase = .idle ∧
      (engineTurn u).regs =
        { Regs.zero with
          status := packStatus false true false 0 0
          msgLen := s.regs.msgLen
          ctrLen := s.regs.ctrLen
          ctrPresent := s.regs.ctrPresent
          decLen := BitVec.ofNat 32 (FreqTable.total t)
          nSyms := BitVec.ofNat 32 t.length
          root := BitVec.ofNat 32 (2 * t.length - 2)
          decBits := BitVec.ofNat 32 (8 * p.length - d.toNat)
          discard := d.setWidth 32
          payloadOff := BitVec.ofNat 32 (5 + 3 * t.length)
          total := BitVec.ofNat 32 (FreqTable.total t) } ∧
      (∀ a, (engineTurn u).mem.dec.get a = out.getD a (s.mem.dec.get a)) ∧
      (∀ e ∈ t, WordTable.get (engineTurn u).mem.freq e.symbol.toNat = BitVec.ofNat 32 e.count) ∧
      (∀ x : Byte, x ∉ t.map Entry.symbol → WordTable.get (engineTurn u).mem.freq x.toNat = 0) ∧
      (∀ k (h : k < b.nodes.length),
        WordTable.get (engineTurn u).mem.node (2 * k) = BitVec.ofNat 32 b.nodes[k].freq ∧
        NodeBits (WordTable.get (engineTurn u).mem.node (2 * k + 1)) b.nodes[k]) ∧
      (∀ j, 2 * b.nodes.length ≤ j → WordTable.get (engineTurn u).mem.node j = 0) ∧
      (∀ j, WordTable.get (engineTurn u).mem.code j = 0) ∧
      (engineTurn u).mem.msg = s.mem.msg ∧ (engineTurn u).mem.ctr = s.mem.ctr ∧ (engineTurn u).caps = s.caps ∧
      (engineTurn u).events = s.events ∧ (engineTurn u).fresh = s.fresh

/-- R107 to R112: DECODE never returns a wrong message silently: if it completes without an error, CTR held a
container with a readable table whose payload, re-encoded from the table, spells exactly the message now in DEC, each
symbol as often as the table says. -/
def Obligations.DecodeIsSound : Prop :=
  ∀ s : State, statusErr (runCommand .decode s).regs.status = 0 →
    ∃ (t : FreqTable) (d : Byte) (p out : List Byte), HoldsContainer s t d p ∧ p ≠ [] ∧ ReadableTable t ∧
      d.toNat ≤ 7 ∧ FreqTable.total t ≤ s.caps.dec ∧ Spells t d p out ∧
      ∀ i (h : i < out.length), (runCommand .decode s).mem.dec.get i = out[i]

/-- R111, R112, the end of R125's DECODE row: DECODE's payload errors, for a container whose header and table pass.
`read out rest` says that the payload's bits are the codes of `out`, all symbols of the table, and then `rest`. BAD_BIT at
a '1' of a one-symbol tree, if no symbol beyond TOTAL comes first; WALK_INCOMPLETE if the bits end inside a code;
COUNT_MISMATCH at the first symbol beyond TOTAL, whatever follows it, and at the end if a count is not met. -/
def Obligations.DecodePayloadErrorsInOrder : Prop :=
  ∀ (s : State) (t : FreqTable) (d : Byte) (p : List Byte) (b : Built), s.phase = .busy .decode →
    HoldsContainer s t d p → p ≠ [] → ReadableTable t → d.toNat ≤ 7 → FreqTable.total t ≤ s.caps.dec →
    treeBuild t = some b →
    let read := fun (out : List Byte) (rest : Bits) =>
      bitUnpack p d.toNat = payloadBits out (codeGen b.root) ++ rest ∧ ∀ x ∈ out, x ∈ t.map Entry.symbol
    let fails := fun (detail : BitVec 8) =>
      (engineTurn s).phase = .idle ∧
        (engineTurn s).regs =
          { s.regs with status := packStatus false true (statusWign s.regs.status) 3 detail }
    (∀ out rest, t.length = 1 → read out (true :: rest) → out.length ≤ FreqTable.total t → fails 20) ∧
    (∀ out rest, read out rest → out.length ≤ FreqTable.total t → rest ≠ [] →
      (∃ c ∈ codeGen b.root, rest <+: c.bits ∧ rest ≠ c.bits) → fails 21) ∧
    (∀ out rest, read out rest → out.length = FreqTable.total t + 1 → fails 22) ∧
    ∀ out, read out [] → out.length ≤ FreqTable.total t → (∃ e ∈ t, out.count e.symbol ≠ e.count) → fails 22

/-- R113, R124: a DECODE that fails writes no register but STATUS and no table, and keeps MSG and CTR. A failure in the
walk or the count check (CorruptFileError 20 to 22) makes DEC[0 .. TOTAL − 1] unspecified, free values of log 3, and
keeps the rest of DEC, TOTAL being the sum of the container's counts; any other failure keeps all of DEC, where the model
follows R113 against a corner case of R87 (log 19). -/
def Obligations.DecodeFailureLeavesNoResult : Prop :=
  ∀ s : State, s.phase = .busy .decode → statusErr (engineTurn s).regs.status ≠ 0 →
    let t := engineTurn s
    let total := ((List.range (be32 s.mem.ctr.get 0)).map (fun i => be16 s.mem.ctr.get (5 + 3 * i))).sum
    let late := statusErr t.regs.status = 3 ∧ 20 ≤ (statusDetail t.regs.status).toNat
    t.regs = { s.regs with status := t.regs.status } ∧ t.mem = { s.mem with dec := t.mem.dec } ∧
      (¬ late → t.mem.dec = s.mem.dec) ∧
      (late → total ≤ s.caps.dec ∧
        ∀ a, t.mem.dec.get a = if a < total then Config.freeByte s.fresh a else s.mem.dec.get a)

/-- R115: for every message of 1 to MSG_CAP and DEC_CAP bytes, with every count at most 65535 and a container that
fits CTR, ENCODE succeeds, and a DECODE from any later state with CTR, CTR_LEN and CTR_PRESENT unchanged succeeds with
DEC_LEN = MSG_LEN and the message in DEC. -/
def Obligations.EncodeThenDecodeRoundTrip : Prop :=
  ∀ s w : State, s.caps.Legal → s.regs.msgLen ≠ 0 → s.regs.msgLen.toNat ≤ s.caps.msg →
    s.regs.msgLen.toNat ≤ s.caps.dec → (∀ x, (s.message s.regs.msgLen.toNat).count x ≤ 65535) →
    encodedSize (s.message s.regs.msgLen.toNat) ≤ s.caps.ctr →
    let u := runCommand .encode s
    w.caps = s.caps → w.regs.ctrLen = u.regs.ctrLen → w.regs.ctrPresent = u.regs.ctrPresent →
    (∀ i, i < u.regs.ctrLen.toNat → w.mem.ctr.get i = u.mem.ctr.get i) →
    let v := runCommand .decode w
    statusErr u.regs.status = 0 ∧ statusErr v.regs.status = 0 ∧ v.regs.decLen = s.regs.msgLen ∧
      ∀ i, i < s.regs.msgLen.toNat → v.mem.dec.get i = s.mem.msg.get i

/-- R116: a container an ENCODE wrote, shortened by one byte, never decodes: with one payload byte DECODE fails
NO_PAYLOAD, with more it fails WALK_INCOMPLETE or COUNT_MISMATCH. R116 does not name DEC_CAP; the statement assumes that
the message fits DEC, since R125 checks that capacity before the walk. -/
def Obligations.TruncationIsDetected : Prop :=
  ∀ (s : State) (r : EncodeResult), s.caps.Legal → encodeBody s = .ok r →
    s.regs.msgLen.toNat ≤ s.caps.dec →
    let u := runCommand .encode s
    let v := runCommand .decode { u with regs := { u.regs with ctrLen := u.regs.ctrLen - 1 } }
    statusErr v.regs.status = 3 ∧
      ((bitPack r.bits).length = 1 → statusDetail v.regs.status = 4) ∧
      (2 ≤ (bitPack r.bits).length → statusDetail v.regs.status = 21 ∨ statusDetail v.regs.status = 22)

/-! ### VALIDATE and VERIFY (44_validate_verify.md) -/

/-- R117, R37: VALIDATE: the CMD write starts it, and its completion step writes its four report registers, with the
verdict, the parsed fields and the first failing check, VAL_RESULT bit by bit, STATUS with no error, and nothing
else. -/
def Obligations.ValidateReports : Prop :=
  ∀ s : State, s.phase = .idle →
    let ctr := s.mem.ctr.get
    let len := s.regs.ctrLen.toNat
    let n := be32 ctr 0
    let file := s.regs.ctrPresent.getLsbD 0 = true ∧ len ≤ s.caps.ctr
    ∃ t word err detail, exec .validate s = .next t ∧ t.phase = .busy .validate ∧
      engineTurn t = { t with
        phase := .idle
        regs := { t.regs with
          status := packStatus false true false 0 0
          valResult := word
          valSymcount := if file ∧ 5 ≤ len then BitVec.ofNat 32 n else 0
          valDiscard := if file ∧ 5 ≤ len ∧ 5 + 3 * n ≤ len then (ctr (4 + 3 * n)).setWidth 32 else 0
          valPayload := if file ∧ 5 ≤ len ∧ 5 + 3 * n ≤ len then BitVec.ofNat 32 (len - (5 + 3 * n)) else 0 } } ∧
      ReportBits word (decide (file ∧ 6 + 3 * n ≤ len)) (decide (file ∧ 5 ≤ len))
        (decide (file ∧ 5 ≤ len ∧ 5 + 3 * n ≤ len)) err detail ∧
      (err, detail) =
        if s.regs.ctrPresent.getLsbD 0 = false then (2, 0)
        else if s.caps.ctr < len then (5, 2)
        else if len < 5 then (3, 1)
        else if len < 4 + 3 * n then (3, 2)
        else if len < 5 + 3 * n then (3, 3)
        else if len < 6 + 3 * n then (3, 4)
        else (0, 0)

/-- R118: VALIDATE and DECODE from the same state: VALID is 1 exactly when DECODE does not fail with a structural
failure (FileNotFoundError, CapacityError 2, CorruptFileError 1 to 4); when VALID is 0, the reported ERR and DETAIL are
those DECODE raises. When VALID is 1, DECODE's error, if any, is a content failure (CorruptFileError 16 to 22) or
CapacityError 3. -/
def Obligations.ValidatorAgreesWithDecode : Prop :=
  ∀ s : State,
    let v := (runCommand .validate s).regs.valResult
    let d := (runCommand .decode s).regs.status
    (v.getLsbD 0 = true ↔
      ¬ (statusErr d = 2 ∨ (statusErr d = 5 ∧ statusDetail d = 2) ∨
        (statusErr d = 3 ∧ 1 ≤ (statusDetail d).toNat ∧ (statusDetail d).toNat ≤ 4))) ∧
    (v.getLsbD 0 = false → statusErr v = statusErr d ∧ statusDetail v = statusDetail d) ∧
    (v.getLsbD 0 = true → statusErr d = 0 ∨
      (statusErr d = 3 ∧ 16 ≤ (statusDetail d).toNat ∧ (statusDetail d).toNat ≤ 22) ∨
      (statusErr d = 5 ∧ statusDetail d = 3))

/-- R119, R41: VERIFY: the CMD write starts it, and its completion step makes DECODE's writes or applies DECODE's
failure rule, then reports, VER_RESULT bit by bit: DECODED, ORIG_CAP, the decode's error, MATCH exactly when the decoded
message equals the original, and in VER_MISMATCH the first differing index, or the shorter length, or 0xFFFFFFFF. STATUS
shows no error. -/
def Obligations.VerifyReports : Prop :=
  ∀ s : State, s.phase = .idle →
    ∃ t word mismatch err detail, ∃ isMatch decoded : Bool, exec .verify s = .next t ∧ t.phase = .busy .verify ∧
      let d := completionStep .decode t
      let v := engineTurn t
      let n := s.regs.msgLen.toNat
      let k := min d.regs.decLen.toNat n
      v = { d with
        regs := { d.regs with
          status := packStatus false true false 0 0
          verResult := word
          verMismatch := mismatch } } ∧
      ReportBits word isMatch (decide (s.caps.msg < n)) decoded err detail ∧
      err = statusErr d.regs.status ∧ detail = statusDetail d.regs.status ∧ (decoded = true ↔ err = 0) ∧
      (decoded = false ∨ s.caps.msg < n → isMatch = false ∧ mismatch = 0xFFFFFFFF) ∧
      (decoded = true → n ≤ s.caps.msg →
        (∀ i < k, d.mem.dec.get i ≠ s.mem.msg.get i → (∀ j < i, d.mem.dec.get j = s.mem.msg.get j) →
          isMatch = false ∧ mismatch = BitVec.ofNat 32 i) ∧
        ((∀ j < k, d.mem.dec.get j = s.mem.msg.get j) → d.regs.decLen ≠ s.regs.msgLen →
          isMatch = false ∧ mismatch = BitVec.ofNat 32 k) ∧
        ((∀ j < k, d.mem.dec.get j = s.mem.msg.get j) → d.regs.decLen = s.regs.msgLen →
          isMatch = true ∧ mismatch = 0xFFFFFFFF))

/-! ### Rules of the whole machine -/

/-- R144: who writes which buffer. MSG changes only by an MSG_WR taken while IDLE; CTR only by a CTR_WR while IDLE, the
completion of an ENCODE, or a reset while BUSY; DEC only by the completion of a DECODE or a VERIFY, or a reset while
BUSY; CTR_LEN and CTR_PRESENT only by a REG_WR while IDLE, the completion of an ENCODE, or a reset. -/
def Obligations.BufferOwnership : Prop :=
  ∀ s t : State, step s = .next t →
    (t.mem.msg ≠ s.mem.msg →
      s.phase = .idle ∧ ∃ p rest i v, s.events = .packet p :: rest ∧ decodePacket p = .msgWr i v) ∧
    (t.mem.ctr ≠ s.mem.ctr →
      (s.phase = .idle ∧ ∃ p rest i v, s.events = .packet p :: rest ∧ decodePacket p = .ctrWr i v) ∨
      (s.phase = .busy .encode ∧ t.phase = .idle) ∨ ∃ c rest, s.phase = .busy c ∧ s.events = .reset :: rest) ∧
    (t.mem.dec ≠ s.mem.dec →
      ((s.phase = .busy .decode ∨ s.phase = .busy .verify) ∧ t.phase = .idle) ∨
      ∃ c rest, s.phase = .busy c ∧ s.events = .reset :: rest) ∧
    (t.regs.ctrLen ≠ s.regs.ctrLen ∨ t.regs.ctrPresent ≠ s.regs.ctrPresent →
      (s.phase = .idle ∧ ∃ p rest i v, s.events = .packet p :: rest ∧ decodePacket p = .regWr i v) ∨
      (s.phase = .busy .encode ∧ t.phase = .idle) ∨ ∃ rest, s.events = .reset :: rest)

/-- R20, R80, R133, R137: how the phase moves. IDLE is left only by a valid command write, and then for that command;
a running command goes on through every host transaction and ends only at the engine's turn or a reset. -/
def Obligations.PhaseMovesOnlySo : Prop :=
  ∀ s t : State, step s = .next t →
    (∀ c, s.phase = .idle → t.phase = .busy c →
      ∃ p rest, s.events = .packet p :: rest ∧ decodePacket p = startingWrite c) ∧
    ∀ c, s.phase = .busy c →
      (t.phase = .busy c ∧ ∃ p rest, s.events = .packet p :: rest) ∨
      (t.phase = .idle ∧ (s.events = [] ∨ (∃ rest, s.events = .engine :: rest) ∨ ∃ rest, s.events = .reset :: rest))

/-- R141, fairness: a running command ends after finitely many steps, within one step more than the events that
wait. -/
def Obligations.RunningCommandEnds : Prop :=
  ∀ (s : State) (c : Command), s.phase = .busy c →
    ∃ k ≤ s.events.length + 1, ∃ t, Sys2Proof.core.run k s = .next t ∧ t.phase = .idle

/-- R146, R141: no result depends on when the completion step occurs: whatever one host transaction does while the
command runs, the completion after it leaves the same registers but for STATUS.WIGN, the same MSG, CTR and tables, and
the same known bytes of DEC. -/
def Obligations.LatencyChangesNoResult : Prop :=
  ∀ (s t : State) (c : Command) (i : Instr), s.phase = .busy c → exec i s = .next t →
    let a := engineTurn s
    let b := engineTurn t
    b.regs = { a.regs with status := b.regs.status } ∧
      statusErr b.regs.status = statusErr a.regs.status ∧ statusDetail b.regs.status = statusDetail a.regs.status ∧
      statusDone b.regs.status = statusDone a.regs.status ∧ b.mem.msg = a.mem.msg ∧ b.mem.ctr = a.mem.ctr ∧
      b.mem.freq = a.mem.freq ∧ b.mem.node = a.mem.node ∧ b.mem.code = a.mem.code ∧
      b.mem.dec.cells = a.mem.dec.cells

/-! ### Invariants -/

/-- The memory keeps its one canonical form through every step. -/
def Obligations.StepKeepsMemoryCanonical : Prop :=
  ∀ s t : State, s.mem.wf → step s = .next t → t.mem.wf

/-- R25, R122, R123, R142: STATUS stays truthful through every step: reserved bits 0, BUSY 1 exactly while a command
runs, ERR and DETAIL only codes the tables list, never a reserved one. -/
def Obligations.StepKeepsStatusTruthful : Prop :=
  ∀ s t : State, StatusTruthful s → step s = .next t → StatusTruthful t

/-- R52, R28: no step puts an element beyond the size of its space, and CTR_PRESENT stays 0 or 1. -/
def Obligations.StepKeepsSpacesBounded : Prop :=
  ∀ s t : State, SpacesBounded s → step s = .next t → SpacesBounded t

/-- R51, R30, R31, R34, R35: the result registers keep their shape through every step: all 0 while a command runs, and
then either all 0 or those of a tree of 1 to 256 symbols. -/
def Obligations.StepKeepsResultsShaped : Prop :=
  ∀ s t : State, ResultsShaped s → step s = .next t → ResultsShaped t

/-- The model's free-value indices in use stay below the next one (log 3), so that bytes that become unspecified are
never tied to bytes that were unspecified before (I2 to I4). -/
def Obligations.StepKeepsFreeValuesFresh : Prop :=
  ∀ s t : State, FreeValuesFresh s → step s = .next t → FreeValuesFresh t

/-- Every invariant holds at power-up, for every value of the capacity parameters. -/
def Obligations.InvariantsHoldAtPowerUp : Prop :=
  ∀ caps : Caps,
    (State.powerUp caps).mem.wf ∧ StatusTruthful (State.powerUp caps) ∧ SpacesBounded (State.powerUp caps) ∧
      ResultsShaped (State.powerUp caps) ∧ FreeValuesFresh (State.powerUp caps)
end

