-- ==== Sys2Proof/Laws/Bits.lean ====
section
/-! SUPPORT. Bytes and bit strings: packing and unpacking undo each other, big-endian numbers read back. -/

namespace Sys2Proof.Machine

theorem bitsToNat_lt (g : Bits) : bitsToNat g < 2 ^ g.length := by
  induction g with
  | nil => simp [bitsToNat]
  | cons b g ih =>
    have : b.toNat ≤ 1 := Bool.toNat_le b
    simp only [bitsToNat, List.length_cons, Nat.pow_succ]
    nlinarith

/-- Unpacking a packed group of eight bits gives the group back (R56). -/
theorem bin8_byteOfBits (b7 b6 b5 b4 b3 b2 b1 b0 : Bool) :
    bin8 (byteOfBits [b7, b6, b5, b4, b3, b2, b1, b0]) = [b7, b6, b5, b4, b3, b2, b1, b0] := by
  revert b7 b6 b5 b4 b3 b2 b1 b0
  decide

@[simp] theorem bin8_length (b : Byte) : (bin8 b).length = 8 := rfl

theorem flatMap_bin8_length (p : List Byte) : (p.flatMap bin8).length = 8 * p.length := by
  induction p with
  | nil => rfl
  | cons b p ih => simp only [List.flatMap_cons, List.length_append, ih, bin8_length, List.length_cons]; omega

/-- Packing whole bytes of bits: as many bytes, and unpacking gives the bits back (R102, R110). -/
theorem packBytes_spec (k : Nat) (g : Bits) (h : g.length = 8 * k) :
    (packBytes g).length = k ∧ (packBytes g).flatMap bin8 = g := by
  induction k generalizing g with
  | zero =>
    have : g = [] := List.length_eq_zero_iff.1 (by omega)
    subst this
    simp [packBytes]
  | succ k ih =>
    match g, h with
    | b7 :: b6 :: b5 :: b4 :: b3 :: b2 :: b1 :: b0 :: rest, h =>
      obtain ⟨h1, h2⟩ := ih rest (by simp at h; omega)
      simp [packBytes, h1, h2, bin8_byteOfBits]

theorem discardedBits_lt (n : Nat) : discardedBits n < 8 := Nat.mod_lt _ (by omega)

theorem discardedBits_pad (n : Nat) : n + discardedBits n = 8 * ((n + 7) / 8) := by
  unfold discardedBits; omega

/-- `len(P) = ⌈len(E)/8⌉` (R102). -/
theorem bitPack_length (e : Bits) : (bitPack e).length = (e.length + 7) / 8 :=
  (packBytes_spec ((e.length + 7) / 8) _ (by
    rw [List.length_append, List.length_replicate, discardedBits_pad])).1

theorem flatMap_bin8_bitPack (e : Bits) :
    (bitPack e).flatMap bin8 = e ++ List.replicate (discardedBits e.length) false :=
  (packBytes_spec ((e.length + 7) / 8) _ (by
    rw [List.length_append, List.length_replicate, discardedBits_pad])).2

theorem bitUnpack_length (p : List Byte) (d : Nat) : (bitUnpack p d).length = 8 * p.length - d := by
  simp only [bitUnpack, dropLast, List.length_take, flatMap_bin8_length]
  omega

/-- Unpacking undoes packing (R102, R110). -/
theorem bitUnpack_bitPack (e : Bits) : bitUnpack (bitPack e) (discardedBits e.length) = e := by
  unfold bitUnpack dropLast
  rw [flatMap_bin8_bitPack]
  simp

/-- `len(put32 n) = 4`, and it reads back as `n` (R13). -/
theorem be32_put32 (B : Nat → Byte) (n : Nat) (hn : n < 2 ^ 32)
    (h : ∀ i < 4, B i = (put32 n).getD i 0) : be32 B 0 = n := by
  have h0 := h 0 (by omega); have h1 := h 1 (by omega); have h2 := h 2 (by omega); have h3 := h 3 (by omega)
  simp only [put32, List.getD_cons_zero, List.getD_cons_succ] at h0 h1 h2 h3
  unfold be32
  rw [h0, h1, h2, h3]
  simp only [BitVec.toNat_ofNat]
  omega

/-- `put16 n` reads back as `n` (R13). -/
theorem be16_put16 (B : Nat → Byte) (i n : Nat) (hn : n < 2 ^ 16)
    (h0 : B i = BitVec.ofNat 8 (n / 256)) (h1 : B (i + 1) = BitVec.ofNat 8 n) : be16 B i = n := by
  unfold be16
  rw [h0, h1]
  simp only [BitVec.toNat_ofNat]
  omega

theorem be32_lt (B : Nat → Byte) (i : Nat) : be32 B i < 2 ^ 32 := by
  have := (B i).isLt; have := (B (i + 1)).isLt; have := (B (i + 2)).isLt; have := (B (i + 3)).isLt
  unfold be32; omega

theorem be16_lt (B : Nat → Byte) (i : Nat) : be16 B i < 2 ^ 16 := by
  have := (B i).isLt; have := (B (i + 1)).isLt
  unfold be16; omega

@[simp] theorem put32_length (n : Nat) : (put32 n).length = 4 := rfl

@[simp] theorem Entry.bytes_length (e : Entry) : e.bytes.length = 3 := rfl

theorem flatMap_entry_bytes_length (t : FreqTable) : (t.flatMap Entry.bytes).length = 3 * t.length := by
  induction t with
  | nil => rfl
  | cons e t ih => simp only [List.flatMap_cons, List.length_append, ih, Entry.bytes_length, List.length_cons]; omega

/-- `len(K) = 5 + 3N + len(P)` (R103). -/
theorem containerWrite_length (t : FreqTable) (d : Nat) (p : List Byte) :
    (containerWrite t d p).length = 5 + 3 * t.length + p.length := by
  simp only [containerWrite, List.length_append, put32_length, flatMap_entry_bytes_length, List.length_singleton]
  omega

end Sys2Proof.Machine
end

