-- ==== Sys2Proof/Laws/Frequency.lean ====
section
/-! SUPPORT. What the frequency analyzer computes (42_encoder.md R97). -/

namespace Sys2Proof.Machine

/-- The symbols of a table, in its order. -/
abbrev FreqTable.symbols (t : FreqTable) : List Byte := t.map Entry.symbol

/-- Counting one more symbol keeps the table's order, adding the symbol at the end if it is new. -/
theorem countSymbol_symbols (t : FreqTable) (x : Byte) :
    FreqTable.symbols (countSymbol t x) = if x ∈ FreqTable.symbols t then FreqTable.symbols t else FreqTable.symbols t ++ [x] := by
  induction t with
  | nil => simp [countSymbol]
  | cons e t ih =>
    by_cases h : e.symbol = x
    · simp [countSymbol, h]
    · simp only [countSymbol, h, if_false, FreqTable.symbols, List.map_cons, List.mem_cons, Ne.symm h, false_or] at ih ⊢
      rw [ih]
      split <;> simp

theorem countSymbol_total (t : FreqTable) (x : Byte) :
    FreqTable.total (countSymbol t x) = FreqTable.total t + 1 := by
  induction t with
  | nil => simp [countSymbol, FreqTable.total]
  | cons e t ih =>
    by_cases h : e.symbol = x
    · simp [countSymbol, h, FreqTable.total]; omega
    · simp [countSymbol, h, FreqTable.total] at ih ⊢; omega

theorem countSymbol_nodup {t : FreqTable} (h : (FreqTable.symbols t).Nodup) (x : Byte) :
    (FreqTable.symbols (countSymbol t x)).Nodup := by
  rw [countSymbol_symbols]
  split
  · exact h
  · rename_i hx
    exact List.nodup_append.2 ⟨h, by simp, fun a ha b hb => by
      rw [List.mem_singleton.1 hb]; rintro rfl; exact hx ha⟩

/-- A table counts the message `m`: every entry's count is its number of occurrences, and every symbol has one. -/
def Counts (t : FreqTable) (m : List Byte) : Prop :=
  (FreqTable.symbols t).Nodup ∧ (∀ e ∈ t, e.count = m.count e.symbol) ∧ ∀ x, x ∈ m ↔ x ∈ FreqTable.symbols t

theorem countSymbol_mem {t : FreqTable} {x : Byte} {e : Entry} (hn : (FreqTable.symbols t).Nodup)
    (h : e ∈ countSymbol t x) :
    (e ∈ t ∧ e.symbol ≠ x) ∨ (∃ c, ⟨x, c⟩ ∈ t ∧ e = ⟨x, c + 1⟩) ∨ (x ∉ FreqTable.symbols t ∧ e = ⟨x, 1⟩) := by
  induction t with
  | nil => simp [countSymbol] at h; simp [h]
  | cons f t ih =>
    simp only [FreqTable.symbols, List.map_cons, List.nodup_cons] at hn
    by_cases hf : f.symbol = x
    · simp only [countSymbol, hf, if_true, List.mem_cons] at h
      rcases h with rfl | h
      · right; left
        exact ⟨f.count, by rw [← hf]; exact List.mem_cons_self, rfl⟩
      · left
        refine ⟨List.mem_cons_of_mem _ h, fun hx => hn.1 ?_⟩
        rw [hf, ← hx]
        exact List.mem_map_of_mem h
    · simp only [countSymbol, hf, if_false, List.mem_cons] at h
      rcases h with rfl | h
      · left; exact ⟨List.mem_cons_self, hf⟩
      · rcases ih hn.2 h with ⟨h1, h2⟩ | ⟨c, h1, h2⟩ | ⟨h1, h2⟩
        · left; exact ⟨List.mem_cons_of_mem _ h1, h2⟩
        · right; left; exact ⟨c, List.mem_cons_of_mem _ h1, h2⟩
        · right; right
          refine ⟨?_, h2⟩
          simp only [FreqTable.symbols, List.map_cons, List.mem_cons, not_or]
          exact ⟨fun hx => hf hx.symm, h1⟩

theorem Counts.countSymbol {t : FreqTable} {m : List Byte} (h : Counts t m) (x : Byte) :
    Counts (countSymbol t x) (m ++ [x]) := by
  obtain ⟨hn, hc, hm⟩ := h
  refine ⟨countSymbol_nodup hn x, fun e he => ?_, fun y => ?_⟩
  · rcases countSymbol_mem hn he with ⟨h1, h2⟩ | ⟨c, h1, rfl⟩ | ⟨h1, rfl⟩
    · rw [hc e h1, List.count_append, List.count_singleton]
      simp [Ne.symm h2]
    · have := hc _ h1
      simp only at this
      simp [List.count_append, this]
    · have : x ∉ m := fun hx => h1 ((hm x).1 hx)
      simp [List.count_append, List.count_eq_zero_of_not_mem this]
  · rw [countSymbol_symbols]
    split
    · rename_i hx
      rw [List.mem_append, List.mem_singleton, ← hm]
      constructor
      · rintro (h | rfl)
        · exact h
        · exact (hm _).2 hx
      · exact Or.inl
    · rw [List.mem_append, List.mem_append, hm]

theorem foldl_countSymbol_counts (t : FreqTable) (m k : List Byte) (h : Counts t m) :
    Counts (k.foldl countSymbol t) (m ++ k) := by
  induction k generalizing t m with
  | nil => simpa using h
  | cons x k ih =>
    have := ih (countSymbol t x) (m ++ [x]) (h.countSymbol x)
    simpa using this

/-- The analyzer's table counts its message (R97). -/
theorem frequencyAnalyze_counts (m : List Byte) : Counts (frequencyAnalyze m) m := by
  have := foldl_countSymbol_counts [] [] m ⟨by simp, by simp, by simp⟩
  simpa [frequencyAnalyze] using this

theorem foldl_countSymbol_total (t : FreqTable) (m : List Byte) :
    FreqTable.total (m.foldl countSymbol t) = FreqTable.total t + m.length := by
  induction m generalizing t with
  | nil => simp
  | cons x m ih => simp only [List.foldl_cons, ih, countSymbol_total, List.length_cons]; omega

/-- The counts sum to the message's length (R97). -/
theorem frequencyAnalyze_total (m : List Byte) : FreqTable.total (frequencyAnalyze m) = m.length := by
  rw [frequencyAnalyze, foldl_countSymbol_total]; simp [FreqTable.total]

/-- Distinct symbols are at most 256 (R8, N_MAX). -/
theorem nodup_bytes_length {l : List Byte} (h : l.Nodup) : l.length ≤ 256 := by
  have h2 : (l.map BitVec.toNat).Nodup := h.map (fun a b hab => BitVec.eq_of_toNat_eq hab)
  have h3 : l.map BitVec.toNat ⊆ List.range 256 := fun x hx => by
    obtain ⟨b, _, rfl⟩ := List.mem_map.1 hx
    exact List.mem_range.2 b.isLt
  have := (h2.subperm h3).length_le
  simpa using this

theorem frequencyAnalyze_length_le (m : List Byte) : (frequencyAnalyze m).length ≤ 256 := by
  simpa using nodup_bytes_length (frequencyAnalyze_counts m).1

theorem frequencyAnalyze_ne_nil {m : List Byte} (h : m ≠ []) : frequencyAnalyze m ≠ [] := by
  intro h0
  obtain ⟨x, hx⟩ := List.exists_mem_of_ne_nil m h
  have := ((frequencyAnalyze_counts m).2.2 x).1 hx
  simp [h0] at this

end Sys2Proof.Machine
end

