-- ==== Sys2Proof/Laws/Tree.lean ====
section
/-! SUPPORT. What the tree builder builds (42_encoder.md R98): the node table is numbered in order, the tree has the
table's entries as its leaves, every internal node's frequency is the sum of its children's. -/

namespace Sys2Proof.Machine

/-- The leaves of a tree from left to right, as table entries. -/
def Tree.leaves : Tree → List Entry
  | .leaf _ symbol freq => [⟨symbol, freq⟩]
  | .internal _ _ l r => l.leaves ++ r.leaves

/-- Every internal node's frequency is the sum of its children's (R18). -/
def Tree.Summed : Tree → Prop
  | .leaf _ _ _ => True
  | .internal _ freq l r => freq = l.freq + r.freq ∧ l.Summed ∧ r.Summed

/-- A child is numbered before its parent. -/
def Tree.Numbered : Tree → Prop
  | .leaf _ _ _ => True
  | .internal seq _ l r => l.seq < seq ∧ r.seq < seq ∧ l.Numbered ∧ r.Numbered

theorem extractMin_isSome {q : List Tree} (h : q ≠ []) : ∃ a r, extractMin q = some (a, r) := by
  cases q with
  | nil => exact absurd rfl h
  | cons t ts =>
    simp only [extractMin]
    split
    · exact ⟨_, _, rfl⟩
    · split <;> exact ⟨_, _, rfl⟩

theorem extractMin_none {q : List Tree} (h : extractMin q = none) : q = [] := by
  by_contra hq
  obtain ⟨a, r, har⟩ := extractMin_isSome hq
  simp [har] at h

/-- What extraction does: it splits off one element. -/
theorem extractMin_perm {q r : List Tree} {a : Tree} (h : extractMin q = some (a, r)) : q.Perm (a :: r) := by
  induction q generalizing a r with
  | nil => simp [extractMin] at h
  | cons t ts ih =>
    simp only [extractMin] at h
    split at h
    · cases h; exact List.Perm.refl _
    · rename_i m rest hm
      split at h
      · cases h; exact List.Perm.refl _
      · cases h
        exact ((ih hm).cons t).trans (List.Perm.swap _ _ _)

/-- The extracted element has the least key (R14): no other is before it. -/
theorem extractMin_least {q r : List Tree} {a : Tree} (h : extractMin q = some (a, r)) :
    ∀ t ∈ r, t.before a = false := by
  induction q generalizing a r with
  | nil => simp [extractMin] at h
  | cons t ts ih =>
    simp only [extractMin] at h
    split at h
    · rename_i hn
      cases h
      rw [extractMin_none hn]; simp
    · rename_i m rest hm
      have hp := extractMin_perm hm
      split at h
      · rename_i hb
        cases h
        intro u hu
        have hasym : ∀ x y : Tree, x.before y = true → y.before x = false := by
          intro x y; simp only [Tree.before, Bool.or_eq_true, Bool.and_eq_true, decide_eq_true_eq, Bool.or_eq_false_iff,
            Bool.and_eq_false_iff, decide_eq_false_iff_not]; omega
        have htrans : ∀ x y z : Tree, x.before y = true → z.before y = false → z.before x = false := by
          intro x y z; simp only [Tree.before, Bool.or_eq_true, Bool.and_eq_true, decide_eq_true_eq, Bool.or_eq_false_iff,
            Bool.and_eq_false_iff, decide_eq_false_iff_not]; omega
        rcases List.mem_cons.1 (hp.mem_iff.1 hu) with rfl | hu
        · exact hasym _ _ hb
        · exact htrans _ _ _ hb (ih hm u hu)
      · rename_i hb
        cases h
        intro u hu
        rcases List.mem_cons.1 hu with rfl | hu
        · simpa using hb
        · exact ih hm u hu

/-- The queue invariant of the merge loop: node k of the table has number k, every node is summed and numbered, the
queue's nodes are in the table, and the queue's leaves are the table entries. -/
structure MergeInv (t : FreqTable) (nodes q : List Tree) : Prop where
  seqs : nodes.map Tree.seq = List.range nodes.length
  good : ∀ n ∈ nodes, n.Summed ∧ n.Numbered
  sub : ∀ n ∈ q, n ∈ nodes
  leaves : (q.flatMap Tree.leaves).Perm t
  children : ∀ n ∈ nodes, ∀ s f l r, n = .internal s f l r → l ∈ nodes ∧ r ∈ nodes

theorem MergeInv.merge {t : FreqTable} {nodes q q1 q2 : List Tree} {a b : Tree} (h : MergeInv t nodes q)
    (h1 : extractMin q = some (a, q1)) (h2 : extractMin q1 = some (b, q2)) :
    MergeInv t (nodes ++ [.internal nodes.length (a.freq + b.freq) a b])
      (.internal nodes.length (a.freq + b.freq) a b :: q2) := by
  have hp1 := extractMin_perm h1
  have hp2 := extractMin_perm h2
  have ha : a ∈ nodes := h.sub a (hp1.mem_iff.2 (by simp))
  have hb : b ∈ nodes := h.sub b (hp1.mem_iff.2 (List.mem_cons_of_mem _ (hp2.mem_iff.2 (by simp))))
  have hlt : ∀ n ∈ nodes, n.seq < nodes.length := fun n hn => by
    have : n.seq ∈ List.range nodes.length := h.seqs ▸ List.mem_map_of_mem hn
    exact List.mem_range.1 this
  refine ⟨?_, ?_, ?_, ?_, ?_⟩
  · simp [h.seqs, List.range_succ, Tree.seq]
  · intro n hn
    rcases List.mem_append.1 hn with hn | hn
    · exact h.good n hn
    · rw [List.mem_singleton.1 hn]
      exact ⟨⟨rfl, (h.good a ha).1, (h.good b hb).1⟩, hlt a ha, hlt b hb, (h.good a ha).2, (h.good b hb).2⟩
  · intro n hn
    rcases List.mem_cons.1 hn with rfl | hn
    · simp
    · exact List.mem_append_left _ (h.sub n (hp1.mem_iff.2 (List.mem_cons_of_mem _ (hp2.mem_iff.2 (List.mem_cons_of_mem _ hn)))))
  · have hq : q.Perm (a :: b :: q2) := hp1.trans (hp2.cons a)
    have := (hq.flatMap_right Tree.leaves).symm.trans h.leaves
    simpa [Tree.leaves, List.append_assoc] using this
  · intro n hn s f l r hnr
    rcases List.mem_append.1 hn with hn | hn
    · have := h.children n hn s f l r hnr
      exact ⟨List.mem_append_left _ this.1, List.mem_append_left _ this.2⟩
    · rw [List.mem_singleton.1 hn] at hnr
      cases hnr
      exact ⟨List.mem_append_left _ ha, List.mem_append_left _ hb⟩

/-- What the merge loop does: with enough rounds one node is left in the queue, and one node per merge is made. -/
theorem mergeLoop_spec (t : FreqTable) (k : Nat) (nodes q : List Tree) (h : MergeInv t nodes q) (hq : q ≠ [])
    (hk : q.length ≤ k + 1) :
    ∃ ms root, mergeLoop k nodes q = (nodes ++ ms, [root]) ∧ ms.length = q.length - 1 ∧
      MergeInv t (nodes ++ ms) [root] ∧ (2 ≤ q.length → root.seq + 1 = (nodes ++ ms).length) ∧
      (∀ m ∈ ms, ∃ s f l r, m = .internal s f l r) := by
  induction k generalizing nodes q with
  | zero =>
    match q, hq, hk with
    | [r], _, _ => exact ⟨[], r, by simp [mergeLoop], by simp, by simpa using h, by simp, by simp⟩
  | succ k ih =>
    obtain ⟨a, q1, h1⟩ := extractMin_isSome hq
    have hp1 := extractMin_perm h1
    have hl1 := hp1.length_eq
    simp only [List.length_cons] at hl1
    cases h2 : extractMin q1 with
    | none =>
      have hn := extractMin_none h2
      subst hn
      simp only [List.length_nil, Nat.zero_add] at hl1
      match q, hl1 with
      | [r], _ =>
        exact ⟨[], r, by simp [mergeLoop, h1, h2], by simp, by simpa using h, by simp, by simp⟩
    | some br =>
      obtain ⟨b, q2⟩ := br
      have hl2 := (extractMin_perm h2).length_eq
      simp only [List.length_cons] at hl2
      obtain ⟨ms, root, e1, e2, e3, e4, e5⟩ := ih _ _ (h.merge h1 h2) (by simp) (by simp; omega)
      refine ⟨.internal nodes.length (a.freq + b.freq) a b :: ms, root, ?_, ?_, ?_, ?_, ?_⟩
      · simp only [mergeLoop, h1, h2, e1, List.append_assoc, List.singleton_append]
      · simp [e2]; omega
      · simpa using e3
      · intro _
        by_cases hq2 : q2 = []
        · subst hq2
          have hms : ms = [] := List.length_eq_zero_iff.1 (by simp [e2])
          subst hms
          have hr : root ∈ [Tree.internal nodes.length (a.freq + b.freq) a b] := by
            have : mergeLoop k (nodes ++ [.internal nodes.length (a.freq + b.freq) a b])
                [.internal nodes.length (a.freq + b.freq) a b] =
                (nodes ++ [.internal nodes.length (a.freq + b.freq) a b],
                  [.internal nodes.length (a.freq + b.freq) a b]) := by
              cases k <;> simp [mergeLoop, extractMin]
            rw [this] at e1
            have := (Prod.mk.inj e1).2
            rw [this]; simp
          rw [List.mem_singleton.1 hr]
          simp [Tree.seq]
        · have : 0 < q2.length := List.length_pos_iff.2 hq2
          have := e4 (by simp; omega)
          simpa [List.append_assoc] using this
      · intro m hm
        rcases List.mem_cons.1 hm with rfl | hm
        · exact ⟨_, _, _, _, rfl⟩
        · exact e5 m hm

theorem leavesFrom_length (n : Nat) (t : FreqTable) : (leavesFrom n t).length = t.length := by
  induction t generalizing n with
  | nil => rfl
  | cons e t ih => simp [leavesFrom, ih]

theorem leavesFrom_seqs (n : Nat) (t : FreqTable) : (leavesFrom n t).map Tree.seq = List.range' n t.length := by
  induction t generalizing n with
  | nil => rfl
  | cons e t ih => simp [leavesFrom, ih, Tree.seq, List.range'_succ]

theorem leavesFrom_leaves (n : Nat) (t : FreqTable) : (leavesFrom n t).flatMap Tree.leaves = t := by
  induction t generalizing n with
  | nil => rfl
  | cons e t ih => simp [leavesFrom, ih, Tree.leaves]

theorem leavesFrom_mem {n : Nat} {t : FreqTable} {m : Tree} (h : m ∈ leavesFrom n t) :
    ∃ s x f, m = .leaf s x f := by
  induction t generalizing n with
  | nil => simp [leavesFrom] at h
  | cons e t ih =>
    simp only [leavesFrom, List.mem_cons] at h
    rcases h with rfl | h
    · exact ⟨_, _, _, rfl⟩
    · exact ih h

theorem mergeInv_leaves (t : FreqTable) : MergeInv t (leavesFrom 0 t) (leavesFrom 0 t) := by
  refine ⟨?_, ?_, fun n hn => hn, ?_, ?_⟩
  · rw [leavesFrom_seqs, leavesFrom_length, List.range_eq_range']
  · intro n hn
    obtain ⟨s, x, f, rfl⟩ := leavesFrom_mem hn
    exact ⟨trivial, trivial⟩
  · rw [leavesFrom_leaves]
  · intro n hn s f l r hnr
    obtain ⟨s', x, f', rfl⟩ := leavesFrom_mem hn
    cases hnr

/-- What the tree builder builds from a table with an entry (R98). -/
structure BuiltFrom (t : FreqTable) (b : Built) : Prop where
  /-- The table's entries as leaves, in order, then one internal node per merge. -/
  split : ∃ ms, b.nodes = leavesFrom 0 t ++ ms ∧ ∀ m ∈ ms, ∃ s f l r, m = .internal s f l r
  length : b.nodes.length = 2 * t.length - 1
  root_seq : b.root.seq = 2 * t.length - 2
  root_mem : b.root ∈ b.nodes
  seqs : b.nodes.map Tree.seq = List.range b.nodes.length
  good : ∀ n ∈ b.nodes, n.Summed ∧ n.Numbered
  leaves : b.root.leaves.Perm t
  children : ∀ n ∈ b.nodes, ∀ s f l r, n = .internal s f l r → l ∈ b.nodes ∧ r ∈ b.nodes

theorem treeBuild_spec {t : FreqTable} (h : t ≠ []) : ∃ b, treeBuild t = some b ∧ BuiltFrom t b := by
  have hl : leavesFrom 0 t ≠ [] := by
    intro h0
    exact h (List.length_eq_zero_iff.1 (by rw [← leavesFrom_length 0 t, h0]; rfl))
  have hpos : 0 < t.length := List.length_pos_iff.2 h
  obtain ⟨ms, root, e1, e2, e3, e4, e5⟩ :=
    mergeLoop_spec t t.length _ _ (mergeInv_leaves t) hl (by rw [leavesFrom_length]; omega)
  rw [leavesFrom_length] at e2 e4
  refine ⟨⟨leavesFrom 0 t ++ ms, root⟩, by simp [treeBuild, e1], ⟨ms, rfl, e5⟩, ?_, ?_, e3.sub root (by simp), e3.seqs,
    e3.good, by simpa using e3.leaves, e3.children⟩
  · simp [leavesFrom_length, e2]; omega
  · show root.seq = _
    by_cases h2 : 2 ≤ t.length
    · have := e4 h2
      simp [leavesFrom_length, e2] at this
      omega
    · have hm : ms = [] := List.length_eq_zero_iff.1 (by omega)
      subst hm
      have := e3.sub root (by simp)
      have hs : root.seq ∈ List.range' 0 t.length := by
        rw [← leavesFrom_seqs]
        exact List.mem_map_of_mem (by simpa using this)
      simp at hs
      omega

theorem treeBuild_nil : treeBuild [] = none := rfl

theorem treeBuild_some {t : FreqTable} {b : Built} (h : treeBuild t = some b) : t ≠ [] ∧ BuiltFrom t b := by
  have hne : t ≠ [] := by rintro rfl; simp [treeBuild_nil] at h
  obtain ⟨b', hb', hs⟩ := treeBuild_spec hne
  rw [h] at hb'
  cases hb'
  exact ⟨hne, hs⟩

/-- A node of a built tree has its number below the length of the node table, and so have its children. -/
theorem BuiltFrom.seq_lt {t : FreqTable} {b : Built} (h : BuiltFrom t b) {n : Tree} (hn : n ∈ b.nodes) :
    n.seq < b.nodes.length := by
  have : n.seq ∈ List.range b.nodes.length := h.seqs ▸ List.mem_map_of_mem hn
  exact List.mem_range.1 this

/-- Every bit of a leaf's word (R47). -/
theorem Tree.infoWord_leaf_getLsbD (s f : Nat) (x : Byte) (i : Nat) (hi : i < 32) :
    (Tree.leaf s x f).infoWord.getLsbD i = (decide (i = 31) || (decide (18 ≤ i) && x.getLsbD (i - 18))) := by
  interval_cases i <;>
    simp [Tree.infoWord, placeField, -BitVec.getLsbD_eq_getElem, BitVec.getLsbD_of_ge]

/-- Every bit of an inner node's word (R47). -/
theorem Tree.infoWord_internal_getLsbD (s f : Nat) (l r : Tree) (i : Nat) (hi : i < 32) :
    (Tree.internal s f l r).infoWord.getLsbD i =
      (decide (i = 31) || decide (i = 30) || (decide (9 ≤ i) && (BitVec.ofNat 9 r.seq).getLsbD (i - 9)) ||
        (BitVec.ofNat 9 l.seq).getLsbD i) := by
  interval_cases i <;>
    simp [Tree.infoWord, placeField, -BitVec.getLsbD_eq_getElem, BitVec.getLsbD_of_ge]

end Sys2Proof.Machine
end

