-- ==== Sys2Proof/Laws/Codes.lean ====
section
/-! SUPPORT. Codes and walks (42_encoder.md R100, R101, 43_decoder.md R111): a code is the path to its leaf, codes are
prefix-free, walking a payload gives the message, and a walk that ends gives a message with that payload. -/

namespace Sys2Proof.Machine

/-- The node a path leads to, if the tree goes that far. -/
def Tree.follow : Tree → Bits → Option Tree
  | t, [] => some t
  | .leaf _ _ _, _ :: _ => none
  | .internal _ _ l r, b :: bs => if b then r.follow bs else l.follow bs

@[simp] theorem Tree.follow_nil (t : Tree) : t.follow [] = some t := by cases t <;> rfl

theorem Tree.follow_append (t : Tree) (p q : Bits) :
    t.follow (p ++ q) = (t.follow p).bind (fun u => u.follow q) := by
  induction p generalizing t with
  | nil => simp
  | cons b p ih =>
    cases t with
    | leaf => simp [Tree.follow]
    | internal s f l r => cases b <;> simp [Tree.follow, ih]

/-- The codes below a node are exactly the paths from it to leaves, after the node's own path (R100). -/
theorem Tree.mem_codesFrom (t : Tree) (p : Bits) (c : Code) :
    c ∈ t.codesFrom p ↔ ∃ q s f, c.bits = p ++ q ∧ t.follow q = some (.leaf s c.symbol f) := by
  induction t generalizing p with
  | leaf s x f =>
    obtain ⟨y, bits⟩ := c
    simp only [Tree.codesFrom, List.mem_singleton, Code.mk.injEq]
    constructor
    · rintro ⟨rfl, rfl⟩
      exact ⟨[], s, f, by simp, rfl⟩
    · rintro ⟨q, s', f', h1, h2⟩
      cases q with
      | nil => simp at h2 h1; exact ⟨h2.2.1.symm, h1⟩
      | cons b q => simp [Tree.follow] at h2
  | internal s f l r ihl ihr =>
    simp only [Tree.codesFrom, List.mem_append, ihl, ihr]
    constructor
    · rintro (⟨q, s', f', h1, h2⟩ | ⟨q, s', f', h1, h2⟩)
      · exact ⟨false :: q, s', f', by simp [h1], by simpa [Tree.follow] using h2⟩
      · exact ⟨true :: q, s', f', by simp [h1], by simpa [Tree.follow] using h2⟩
    · rintro ⟨q, s', f', h1, h2⟩
      cases q with
      | nil => simp at h2
      | cons b q =>
        cases b with
        | false => left; exact ⟨q, s', f', by simp [h1], by simpa [Tree.follow] using h2⟩
        | true => right; exact ⟨q, s', f', by simp [h1], by simpa [Tree.follow] using h2⟩

theorem Tree.codesFrom_symbols (t : Tree) (p : Bits) :
    (t.codesFrom p).map Code.symbol = t.leaves.map Entry.symbol := by
  induction t generalizing p with
  | leaf => rfl
  | internal s f l r ihl ihr => simp [Tree.codesFrom, Tree.leaves, ihl, ihr]

/-- One code per leaf, in leaf order (R100). -/
theorem codeGen_symbols (t : Tree) : (codeGen t).map Code.symbol = t.leaves.map Entry.symbol := by
  cases t with
  | leaf => rfl
  | internal s f l r => simp [codeGen, Tree.leaves, Tree.codesFrom_symbols]

theorem mem_codeGen_internal (s f : Nat) (l r : Tree) (c : Code) :
    c ∈ codeGen (.internal s f l r) ↔
      ∃ s' f', (Tree.internal s f l r).follow c.bits = some (.leaf s' c.symbol f') := by
  have := Tree.mem_codesFrom (.internal s f l r) [] c
  simp only [List.nil_append] at this
  rw [show codeGen (.internal s f l r) = (Tree.internal s f l r).codesFrom [] by simp [codeGen, Tree.codesFrom], this]
  constructor
  · rintro ⟨q, s', f', rfl, h⟩; exact ⟨s', f', h⟩
  · rintro ⟨s', f', h⟩; exact ⟨_, s', f', rfl, h⟩

/-- No code is empty (R19). -/
theorem codeGen_bits_ne_nil {t : Tree} {c : Code} (h : c ∈ codeGen t) : c.bits ≠ [] := by
  cases t with
  | leaf s x f => simp [codeGen] at h; simp [h]
  | internal s f l r =>
    obtain ⟨s', f', h⟩ := (mem_codeGen_internal s f l r c).1 h
    intro h0
    simp [h0] at h

/-- A path to a leaf is no proper start of a path to a leaf. -/
theorem Tree.follow_leaf_maximal {t : Tree} {p q : Bits} {s f s' f' : Nat} {x y : Byte}
    (hp : t.follow p = some (.leaf s x f)) (hq : t.follow (p ++ q) = some (.leaf s' y f')) : q = [] := by
  rw [Tree.follow_append, hp] at hq
  cases q with
  | nil => rfl
  | cons b q => simp [Tree.follow] at hq

/-- A node below another has a smaller number. -/
theorem Tree.follow_seq_lt {t u : Tree} {q : Bits} (ht : t.Numbered) (hq : q ≠ []) (hf : t.follow q = some u) :
    u.seq < t.seq := by
  induction q generalizing t with
  | nil => exact absurd rfl hq
  | cons c q ih =>
    cases t with
    | leaf => simp [Tree.follow] at hf
    | internal s f l r =>
      obtain ⟨hl, hr, nl, nr⟩ := ht
      show u.seq < s
      cases c with
      | false =>
        simp only [Tree.follow, Bool.false_eq_true, if_false] at hf
        by_cases hq : q = []
        · subst hq; simp at hf; subst hf; exact hl
        · exact Nat.lt_trans (ih nl hq hf) hl
      | true =>
        simp only [Tree.follow, if_true] at hf
        by_cases hq : q = []
        · subst hq; simp at hf; subst hf; exact hr
        · exact Nat.lt_trans (ih nr hq hf) hr

theorem codeOf_mem {c : List Code} {x : Byte} (h : x ∈ c.map Code.symbol) : ⟨x, codeOf c x⟩ ∈ c := by
  unfold codeOf
  cases hf : c.find? (fun k => k.symbol = x) with
  | none =>
    obtain ⟨k, hk, rfl⟩ := List.mem_map.1 h
    have := List.find?_eq_none.1 hf k hk
    simp at this
  | some k =>
    have h1 := List.mem_of_find?_eq_some hf
    have h2 : k.symbol = x := by simpa using List.find?_some hf
    subst h2
    exact h1

theorem codeOf_eq {c : List Code} {k : Code} (hn : (c.map Code.symbol).Nodup) (h : k ∈ c) :
    codeOf c k.symbol = k.bits := by
  have h1 : (⟨k.symbol, codeOf c k.symbol⟩ : Code) ∈ c := codeOf_mem (List.mem_map_of_mem h)
  have := List.inj_on_of_nodup_map hn h1 h rfl
  exact congrArg Code.bits this

/-! ### Walking -/

/-- The symbols of a tree. -/
abbrev Tree.symbols (t : Tree) : List Byte := t.leaves.map Entry.symbol

theorem walk_leaf_cons (s : Nat) (x : Byte) (f total : Nat) (bs : Bits) (cur : Tree) (out : List Byte)
    (h : out.length < total) :
    walk (.leaf s x f) total (false :: bs) cur out = walk (.leaf s x f) total bs cur (out ++ [x]) := by
  have : ¬ out.length = total := by omega
  simp [walk, this]

/-- From an inner node, the bits that lead to a leaf emit its symbol and return to the root (R111). -/
theorem walk_path (root cur : Tree) (hr : ∃ s f l r, root = .internal s f l r) (total : Nat) (q rest : Bits)
    (hq : q ≠ []) (s f : Nat) (x : Byte) (out : List Byte) (hlen : out.length < total)
    (h : cur.follow q = some (.leaf s x f)) :
    walk root total (q ++ rest) cur out = walk root total rest root (out ++ [x]) := by
  obtain ⟨s0, f0, l0, r0, rfl⟩ := hr
  have hne : ¬ out.length = total := by omega
  induction q generalizing cur with
  | nil => exact absurd rfl hq
  | cons b q ih =>
    cases cur with
    | leaf s1 x1 f1 => simp [Tree.follow] at h
    | internal s1 f1 l1 r1 =>
      simp only [List.cons_append, walk, Tree.child]
      have h' : (if b then r1 else l1).follow q = some (.leaf s x f) := by
        cases b <;> simpa [Tree.follow] using h
      generalize (if b then r1 else l1) = ch at h'
      cases ch with
      | leaf s2 x2 f2 =>
        cases q with
        | nil =>
          simp at h'
          obtain ⟨rfl, rfl, rfl⟩ := h'
          simp [hne]
        | cons b2 q => simp [Tree.follow] at h'
      | internal s2 f2 l2 r2 =>
        have hq2 : q ≠ [] := by rintro rfl; simp at h'
        exact ih _ hq2 h'

/-- Walking one code from the root emits its symbol. -/
theorem walk_code (root : Tree) (total : Nat) (rest : Bits) (x : Byte) (out : List Byte) (hx : x ∈ root.symbols)
    (hlen : out.length < total) :
    walk root total (codeOf (codeGen root) x ++ rest) root out = walk root total rest root (out ++ [x]) := by
  have hm := codeOf_mem (c := codeGen root) (x := x) (by rw [codeGen_symbols]; exact hx)
  cases root with
  | leaf s y f =>
    simp only [codeGen, List.mem_singleton, Code.mk.injEq] at hm
    obtain ⟨rfl, hb⟩ := hm
    rw [show codeGen (.leaf s x f) = [⟨x, [false]⟩] from rfl, hb]
    exact walk_leaf_cons s x f total rest _ out hlen
  | internal s f l r =>
    have hne := codeGen_bits_ne_nil hm
    obtain ⟨s', f', hf⟩ := (mem_codeGen_internal s f l r _).1 hm
    exact walk_path _ _ ⟨s, f, l, r, rfl⟩ total _ rest hne s' f' x out hlen hf

/-- Walking a message's payload emits the message (R101, R111). -/
theorem walk_payload (root : Tree) (total : Nat) (m : List Byte) (rest : Bits) (out : List Byte)
    (hm : ∀ x ∈ m, x ∈ root.symbols) (hlen : out.length + m.length ≤ total) :
    walk root total (payloadBits m (codeGen root) ++ rest) root out = walk root total rest root (out ++ m) := by
  induction m generalizing out with
  | nil => simp [payloadBits]
  | cons x m ih =>
    simp only [payloadBits, List.flatMap_cons, List.append_assoc] at ih ⊢
    rw [walk_code root total _ x out (hm x (by simp)) (by simp at hlen; omega),
      ih (out ++ [x]) (fun y hy => hm y (List.mem_cons_of_mem _ hy)) (by simp at hlen ⊢; omega)]
    simp

theorem walk_end (root : Tree) (total : Nat) (out : List Byte) : walk root total [] root out = .ok out := by
  simp [walk]

/-- From an inner node, the bits that lead to an inner node emit nothing (R111). -/
theorem walk_inside (root cur u : Tree) (hr : ∃ s f l r, root = .internal s f l r) (total : Nat) (q rest : Bits)
    (out : List Byte) (h : cur.follow q = some u) (hu : ∃ s f l r, u = .internal s f l r) :
    walk root total (q ++ rest) cur out = walk root total rest u out := by
  obtain ⟨s0, f0, l0, r0, rfl⟩ := hr
  obtain ⟨s3, f3, l3, r3, rfl⟩ := hu
  induction q generalizing cur with
  | nil => simp at h; rw [h]; rfl
  | cons b q ih =>
    cases cur with
    | leaf s1 x1 f1 => simp [Tree.follow] at h
    | internal s1 f1 l1 r1 =>
      simp only [List.cons_append, walk, Tree.child]
      have h' : (if b then r1 else l1).follow q = some (.internal s3 f3 l3 r3) := by
        cases b <;> simpa [Tree.follow] using h
      generalize (if b then r1 else l1) = ch at h'
      cases ch with
      | leaf s2 x2 f2 => cases q <;> simp [Tree.follow] at h'
      | internal s2 f2 l2 r2 => exact ih _ h'

/-- A code read when TOTAL symbols are out is one symbol too many, whatever follows it (R111). -/
theorem walk_code_beyond (root : Tree) (total : Nat) (rest : Bits) (x : Byte) (out : List Byte)
    (hx : x ∈ root.symbols) (hlen : out.length = total) :
    walk root total (codeOf (codeGen root) x ++ rest) root out = .error .countMismatch := by
  have hm := codeOf_mem (c := codeGen root) (x := x) (by rw [codeGen_symbols]; exact hx)
  cases root with
  | leaf s y f =>
    simp only [codeGen, List.mem_singleton, Code.mk.injEq] at hm
    obtain ⟨rfl, hb⟩ := hm
    rw [show codeGen (.leaf s x f) = [⟨x, [false]⟩] from rfl, hb]
    simp [walk, hlen]
  | internal s f l r =>
    have hne := codeGen_bits_ne_nil hm
    obtain ⟨s', f', hf⟩ := (mem_codeGen_internal s f l r _).1 hm
    simp only at hf hne
    generalize codeOf (codeGen (.internal s f l r)) x = q at hf hne
    obtain ⟨q, b, rfl⟩ : ∃ q' b, q = q' ++ [b] := ⟨_, _, (List.dropLast_concat_getLast hne).symm⟩
    rw [Tree.follow_append] at hf
    cases hq : (Tree.internal s f l r).follow q with
    | none => rw [hq] at hf; simp at hf
    | some u =>
      rw [hq] at hf
      cases u with
      | leaf s1 x1 f1 => simp [Tree.follow] at hf
      | internal s1 f1 l1 r1 =>
        rw [List.append_assoc, walk_inside _ _ _ ⟨s, f, l, r, rfl⟩ total q _ out hq ⟨_, _, _, _, rfl⟩]
        have hc : (if b then r1 else l1) = .leaf s' x f' := by cases b <;> simpa [Tree.follow] using hf
        simp [walk, Tree.child, hc, hlen]

/-- Bits that start a code without reaching its end leave the walk inside the tree (R111). -/
theorem walk_incomplete (root : Tree) (hroot : root.Numbered) (total : Nat) (q : Bits) (c : Code) (out : List Byte)
    (hc : c ∈ codeGen root) (hq : q <+: c.bits) (hne : q ≠ []) (hlt : q ≠ c.bits) :
    walk root total q root out = .error .walkIncomplete := by
  obtain ⟨e, he⟩ := hq
  have he0 : e ≠ [] := by rintro rfl; exact hlt (by simpa using he)
  cases root with
  | leaf s y f =>
    simp only [codeGen, List.mem_singleton] at hc
    subst hc
    cases q with
    | nil => exact absurd rfl hne
    | cons b q => simp at he; exact absurd he.2.2 he0
  | internal s f l r =>
    obtain ⟨s', f', hf⟩ := (mem_codeGen_internal s f l r _).1 hc
    rw [← he, Tree.follow_append] at hf
    cases hq : (Tree.internal s f l r).follow q with
    | none => rw [hq] at hf; simp at hf
    | some u =>
      rw [hq] at hf
      have hu : ∃ s f l r, u = .internal s f l r := by
        cases u with
        | leaf s1 x1 f1 =>
          cases e with
          | nil => exact absurd rfl he0
          | cons b e => simp [Tree.follow] at hf
        | internal s1 f1 l1 r1 => exact ⟨_, _, _, _, rfl⟩
      have := walk_inside (.internal s f l r) _ u ⟨s, f, l, r, rfl⟩ total q [] out hq hu
      rw [List.append_nil] at this
      have hseq := Tree.follow_seq_lt hroot hne hq
      rw [this]
      simp only [walk]
      rw [if_neg (by omega)]

/-- A walk that succeeds has read the codes of what it emitted (R111): from a node at path `p` below the root, `p` and
the bits left spell the symbols still emitted. -/
theorem walk_sound (root : Tree) (hn : root.symbols.Nodup) (hseq : root.Numbered) (total : Nat) (bits p : Bits)
    (cur : Tree) (out res : List Byte) (hp : root.follow p = some cur)
    (hcur : p = [] ∨ ∃ s f l r, cur = .internal s f l r ∧ cur.seq ≠ root.seq)
    (hout : out.length ≤ total) (h : walk root total bits cur out = .ok res) :
    ∃ m, res = out ++ m ∧ p ++ bits = payloadBits m (codeGen root) ∧ (∀ x ∈ m, x ∈ root.symbols) ∧
      res.length ≤ total := by
  have hkey : ∀ (y : Byte), y ∈ root.symbols → y ∈ (codeGen root).map Code.symbol := fun y hy => by
    rw [codeGen_symbols]; exact hy
  have hnd : ((codeGen root).map Code.symbol).Nodup := by rw [codeGen_symbols]; exact hn
  induction bits generalizing p cur out with
  | nil =>
    simp only [walk] at h
    split at h
    · rename_i hs
      cases h
      rcases hcur with rfl | ⟨s, f, l, r, rfl, hne⟩
      · exact ⟨[], by simp, by simp [payloadBits], by simp, hout⟩
      · exact absurd hs hne
    · simp at h
  | cons b bits ih =>
    cases root with
    | leaf s x f =>
      have hp0 : p = [] ∧ cur = .leaf s x f := by
        cases p with
        | nil => simp at hp; exact ⟨rfl, hp.symm⟩
        | cons c p => simp [Tree.follow] at hp
      obtain ⟨rfl, rfl⟩ := hp0
      simp only [walk] at h
      split at h
      · simp at h
      · rename_i hb
        split at h
        · simp at h
        · rename_i hl
          have hb' : b = false := by simpa using hb
          subst hb'
          obtain ⟨m, e1, e2, e3, e4⟩ := ih [] (.leaf s x f) (out ++ [x]) rfl (Or.inl rfl) (by simp; omega) h
          refine ⟨x :: m, by simp [e1], ?_, ?_, e4⟩
          · simp only [List.nil_append] at e2 ⊢
            simp [payloadBits, codeGen, codeOf] at e2 ⊢
            exact e2
          · intro y hy
            rcases List.mem_cons.1 hy with rfl | hy
            · simp [Tree.leaves]
            · exact e3 y hy
    | internal s f l r =>
      have hci : ∃ s1 f1 l1 r1, cur = .internal s1 f1 l1 r1 := by
        rcases hcur with rfl | ⟨s1, f1, l1, r1, rfl, _⟩
        · simp at hp; exact ⟨s, f, l, r, hp.symm⟩
        · exact ⟨_, _, _, _, rfl⟩
      obtain ⟨s1, f1, l1, r1, rfl⟩ := hci
      have hfol : (Tree.internal s f l r).follow (p ++ [b]) = some (if b then r1 else l1) := by
        rw [Tree.follow_append, hp]; cases b <;> simp [Tree.follow]
      simp only [walk, Tree.child] at h
      generalize hch : (if b then r1 else l1) = ch at h hfol
      cases ch with
      | leaf s2 x2 f2 =>
        simp only at h
        split at h
        · simp at h
        · rename_i hl
          obtain ⟨m, e1, e2, e3, e4⟩ := ih [] (.internal s f l r) (out ++ [x2]) rfl (Or.inl rfl) (by simp; omega) h
          have hmem : (⟨x2, p ++ [b]⟩ : Code) ∈ codeGen (.internal s f l r) :=
            (mem_codeGen_internal s f l r _).2 ⟨s2, f2, hfol⟩
          have hc := codeOf_eq hnd hmem
          simp only at hc
          refine ⟨x2 :: m, by simp [e1], ?_, ?_, e4⟩
          · simp only [List.nil_append] at e2
            simp only [payloadBits, List.flatMap_cons] at e2 ⊢
            rw [hc, ← e2]; simp
          · intro y hy
            rcases List.mem_cons.1 hy with rfl | hy
            · show y ∈ (Tree.internal s f l r).leaves.map Entry.symbol
              rw [← codeGen_symbols]; exact List.mem_map_of_mem (f := Code.symbol) hmem
            · exact e3 y hy
      | internal s2 f2 l2 r2 =>
        simp only at h
        have hlt := Tree.follow_seq_lt hseq (q := p ++ [b]) (by simp) hfol
        obtain ⟨m, e1, e2, e3, e4⟩ := ih (p ++ [b]) (.internal s2 f2 l2 r2) out hfol
          (Or.inr ⟨s2, f2, l2, r2, rfl, by omega⟩) hout h
        exact ⟨m, e1, by simpa using e2, e3, e4⟩

end Sys2Proof.Machine
end

