-- ==== Sys2Proof/Laws/Container.lean ====
section
/-! SUPPORT. The container reader (43_decoder.md R107, R108): what it accepts, and that it reads back what the writer
wrote. -/

namespace Sys2Proof.Machine

/-- Entry `i` as it stands in a container (R72). -/
def entryAt (ctr : Nat → Byte) (i : Nat) : Entry := ⟨ctr (4 + 3 * i), be16 ctr (5 + 3 * i)⟩

/-- A table as a container must hold it (R108): no zero count, no repeated symbol. -/
def TableOk (t : FreqTable) : Prop := (∀ e ∈ t, e.count ≠ 0) ∧ (FreqTable.symbols t).Nodup

/-- The entry loop from entry `i` on: it succeeds exactly on entries with non-zero counts and new symbols. -/
theorem readEntries_ok_iff (ctr : Nat → Byte) (k i : Nat) (t res : FreqTable) (ht : TableOk t) :
    readEntries ctr k (4 + 3 * i) t = .ok res ↔
      res = t ++ (List.range' i k).map (entryAt ctr) ∧ TableOk res := by
  induction k generalizing i t with
  | zero =>
    simp only [readEntries, Except.ok.injEq, List.range'_zero, List.map_nil, List.append_nil]
    constructor
    · rintro rfl; exact ⟨rfl, ht⟩
    · rintro ⟨rfl, _⟩; rfl
  | succ k ih =>
    have e1 : 4 + 3 * i + 1 = 5 + 3 * i := by omega
    have e2 : 4 + 3 * i + 3 = 4 + 3 * (i + 1) := by omega
    simp only [readEntries, e1, e2, List.range'_succ, List.map_cons]
    by_cases h0 : be16 ctr (5 + 3 * i) = 0
    · simp only [h0, if_true]
      constructor
      · intro h; cases h
      · rintro ⟨rfl, h⟩
        exact absurd h0 (h.1 (entryAt ctr i) (by simp))
    · rw [if_neg h0]
      by_cases hd : t.any (fun e => e.symbol = ctr (4 + 3 * i)) = true
      · rw [if_pos hd]
        constructor
        · intro h; cases h
        · rintro ⟨rfl, h⟩
          obtain ⟨e, he, hs⟩ := List.any_eq_true.1 hd
          have hn := h.2
          simp only [FreqTable.symbols, List.map_append, List.map_cons] at hn
          have := (List.nodup_append.1 hn).2.2 e.symbol (List.mem_map_of_mem he) (entryAt ctr i).symbol (by simp)
          exact absurd (by simpa [entryAt] using hs) this
      · rw [if_neg hd]
        have hok : TableOk (t ++ [entryAt ctr i]) := by
          refine ⟨fun e he => ?_, ?_⟩
          · rcases List.mem_append.1 he with he | he
            · exact ht.1 e he
            · rw [List.mem_singleton.1 he]; exact h0
          · simp only [FreqTable.symbols, List.map_append, List.map_cons, List.map_nil]
            refine List.nodup_append.2 ⟨ht.2, by simp, fun a ha b hb hab => hd ?_⟩
            obtain ⟨e, he, rfl⟩ := List.mem_map.1 ha
            rw [List.mem_singleton.1 hb] at hab
            exact List.any_eq_true.2 ⟨e, he, by simpa [entryAt] using hab⟩
        rw [show (⟨ctr (4 + 3 * i), be16 ctr (5 + 3 * i)⟩ : Entry) = entryAt ctr i from rfl, ih (i + 1) _ hok]
        simp

/-- What `ContainerRead` accepts (R108). -/
theorem containerRead_ok_iff (ctr : Nat → Byte) (n d : Nat) (t : FreqTable) :
    containerRead ctr n d = .ok t ↔
      n ≠ 0 ∧ d ≤ 7 ∧ t = (List.range n).map (entryAt ctr) ∧ TableOk t := by
  have key := readEntries_ok_iff ctr n 0
  simp only [Nat.mul_zero, Nat.add_zero] at key
  have h0 : TableOk [] := ⟨by simp, by simp⟩
  unfold containerRead
  by_cases hn : n = 0
  · simp [hn]
  · rw [if_neg hn]
    cases hr : readEntries ctr n 4 [] with
    | error e =>
      constructor
      · intro h; cases h
      · rintro ⟨_, _, rfl, h⟩
        have := (key [] _ h0).2 ⟨by simp [List.range_eq_range'], h⟩
        rw [hr] at this; cases this
    | ok r =>
      have := (key [] r h0).1 hr
      rw [List.nil_append, ← List.range_eq_range'] at this
      by_cases hd : 7 < d
      · simp only [hd, if_true]
        constructor
        · intro h; cases h
        · rintro ⟨_, h, _⟩; omega
      · simp only [hd, if_false, Except.ok.injEq]
        constructor
        · rintro rfl; exact ⟨hn, by omega, this⟩
        · rintro ⟨_, _, rfl, _⟩; exact this.1

theorem containerRead_tableOk {ctr : Nat → Byte} {n d : Nat} {t : FreqTable} (h : containerRead ctr n d = .ok t) :
    TableOk t ∧ t.length = n ∧ n ≠ 0 ∧ n ≤ 256 ∧ d ≤ 7 := by
  obtain ⟨h1, h2, h3, h4⟩ := (containerRead_ok_iff ctr n d t).1 h
  have hl : t.length = n := by simp [h3]
  refine ⟨h4, hl, h1, ?_, h2⟩
  rw [← hl]
  simpa using nodup_bytes_length h4.2

/-- What `Structural` accepts (R107). -/
theorem structuralCheck_ok_iff (present : Bool) (len cap : Nat) (ctr : Nat → Byte) (h : Header) :
    structuralCheck present len cap ctr = .ok h ↔
      present = true ∧ len ≤ cap ∧ 6 + 3 * be32 ctr 0 ≤ len ∧
        h = ⟨be32 ctr 0, (ctr (4 + 3 * be32 ctr 0)).toNat, len - (5 + 3 * be32 ctr 0)⟩ := by
  unfold structuralCheck
  split
  · rename_i h1; simp [h1]
  · rename_i h1
    split
    · constructor
      · intro h; cases h
      · rintro ⟨_, _, _⟩; omega
    · split
      · constructor
        · intro h; cases h
        · rintro ⟨_, _, _, _⟩; omega
      · split
        · constructor
          · intro h; cases h
          · rintro ⟨_, _, _, _⟩; omega
        · split
          · constructor
            · intro h; cases h
            · rintro ⟨_, _, _, _⟩; omega
          · split
            · constructor
              · intro h; cases h
              · rintro ⟨_, _, _, _⟩; omega
            · simp only [Except.ok.injEq]
              constructor
              · rintro rfl
                refine ⟨by simpa using h1, by omega, by omega, rfl⟩
              · rintro ⟨_, _, _, rfl⟩; rfl

/-! ### Reading back what was written -/

theorem getD_append_left' {l k : List Byte} {i : Nat} (h : i < l.length) (d : Byte) :
    (l ++ k).getD i d = l.getD i d := by
  simp [List.getD, List.getElem?_append_left h]

theorem getD_append_right' {l k : List Byte} (i : Nat) (d : Byte) :
    (l ++ k).getD (l.length + i) d = k.getD i d := by
  simp [List.getD, List.getElem?_append_right]

/-- Byte `3i + j` of the entries of a header. -/
theorem entries_getD (t : FreqTable) (i : Nat) (hi : i < t.length) (j : Nat) (hj : j < 3) (d : Byte) :
    (t.flatMap Entry.bytes).getD (3 * i + j) d = (t[i].bytes).getD j d := by
  induction t generalizing i with
  | nil => simp at hi
  | cons e t ih =>
    rw [List.flatMap_cons]
    cases i with
    | zero =>
      rw [getD_append_left' (by simp; omega)]
      simp
    | succ i =>
      have : 3 * (i + 1) + j = e.bytes.length + (3 * i + j) := by simp; omega
      rw [this, getD_append_right', ih i (by simpa using hi)]
      simp

/-- The bytes of a written container (R72, R103): its count, its entries, its discarded-bit count, its payload. -/
theorem container_layout (ctr : Nat → Byte) (t : FreqTable) (d : Nat) (p : List Byte) (hd : d < 256)
    (ht : t.length < 2 ^ 32) (hc : ∀ e ∈ t, e.count < 2 ^ 16)
    (h : ∀ i < (containerWrite t d p).length, ctr i = (containerWrite t d p).getD i 0) :
    be32 ctr 0 = t.length ∧ (List.range t.length).map (entryAt ctr) = t ∧
      (ctr (4 + 3 * t.length)).toNat = d ∧ (List.range p.length).map (fun i => ctr (5 + 3 * t.length + i)) = p := by
  rw [containerWrite_length] at h
  have hw : containerWrite t d p = put32 t.length ++ (t.flatMap Entry.bytes ++ ([BitVec.ofNat 8 d] ++ p)) := by
    simp [containerWrite, List.append_assoc]
  have hE : (t.flatMap Entry.bytes).length = 3 * t.length := flatMap_entry_bytes_length t
  have hfirst : ∀ i < 4, ctr i = (put32 t.length).getD i 0 := fun i hi => by
    rw [h i (by omega), hw, getD_append_left' (by simpa using hi)]
  have hent : ∀ i, i < 3 * t.length → ctr (4 + i) = (t.flatMap Entry.bytes).getD i 0 := fun i hi => by
    rw [h (4 + i) (by omega), hw, show 4 + i = (put32 t.length).length + i by simp, getD_append_right',
      getD_append_left' (by omega)]
  have hrest : ∀ i, i < 1 + p.length → ctr (4 + 3 * t.length + i) = (BitVec.ofNat 8 d :: p).getD i 0 := fun i hi => by
    rw [h (4 + 3 * t.length + i) (by omega), hw,
      show 4 + 3 * t.length + i = (put32 t.length).length + ((t.flatMap Entry.bytes).length + i) by simp [hE]; omega,
      getD_append_right', getD_append_right']
    rfl
  refine ⟨be32_put32 ctr _ ht hfirst, ?_, ?_, ?_⟩
  · apply List.ext_getElem
    · simp
    · intro i h1 h2
      have hcount := hc t[i] (List.getElem_mem h2)
      have b0 := hent (3 * i) (by omega)
      have b1 := hent (3 * i + 1) (by omega)
      have b2 := hent (3 * i + 2) (by omega)
      have e0 := entries_getD t i h2 0 (by omega) 0
      have e1 := entries_getD t i h2 1 (by omega) 0
      have e2 := entries_getD t i h2 2 (by omega) 0
      simp only [Nat.add_zero] at e0
      rw [e0] at b0; rw [e1] at b1; rw [e2] at b2
      simp only [Entry.bytes, put16, List.getD_cons_zero, List.getD_cons_succ] at b0 b1 b2
      simp only [List.getElem_map, List.getElem_range, entryAt]
      have hb : be16 ctr (5 + 3 * i) = t[i].count := be16_put16 ctr _ _ hcount
        (by rw [show 5 + 3 * i = 4 + (3 * i + 1) by omega]; exact b1)
        (by rw [show 5 + 3 * i + 1 = 4 + (3 * i + 2) by omega]; exact b2)
      rw [hb, b0]
  · have := hrest 0 (by omega)
    simp only [Nat.add_zero, List.getD_cons_zero] at this
    rw [this, BitVec.toNat_ofNat]
    exact Nat.mod_eq_of_lt hd
  · apply List.ext_getElem
    · simp
    · intro i h1 h2
      have := hrest (1 + i) (by omega)
      simp only [List.getElem_map, List.getElem_range]
      rw [show 5 + 3 * t.length + i = 4 + 3 * t.length + (1 + i) by omega, this]
      simp [Nat.add_comm 1 i, List.getD, List.getElem?_eq_getElem h2]

end Sys2Proof.Machine
end

