-- ==== Sys2Proof/Laws/Decode.lean ====
section
/-! SUPPORT. The fields of a packet, and that a packet is its fields. -/

namespace Sys2Proof

theorem Packet.make_getLsbD (w : Bool) (sp : BitVec 3) (ix d : Word) (i : Nat) :
    (Packet.make w sp ix d).getLsbD i =
      ((decide (i = 67) && w) || (decide (64 ≤ i) && sp.getLsbD (i - 64)) ||
        (decide (32 ≤ i) && ix.getLsbD (i - 32)) || d.getLsbD i) := by
  by_cases hi : i < 68
  · have h1 : (BitVec.ofBool w).getLsbD (i - 67) = (decide (i ≤ 67) && w) := by
      have : i - 67 = 0 := by omega
      rw [this]; cases w <;> simp [show i ≤ 67 by omega]
    have h2 : (!decide (i < 32)) = decide (32 ≤ i) := by rw [← decide_not]; exact decide_eq_decide.2 (by omega)
    have h3 : (!decide (i < 64)) = decide (64 ≤ i) := by rw [← decide_not]; exact decide_eq_decide.2 (by omega)
    have h4 : (!decide (i < 67)) = decide (i = 67) := by
      rw [← decide_not]; exact decide_eq_decide.2 (by omega)
    simp only [Packet.make, BitVec.getLsbD_or, BitVec.getLsbD_shiftLeft, BitVec.getLsbD_setWidth, h1]
    simp only [hi, show i - 67 < 68 by omega, show i - 64 < 68 by omega, show i - 32 < 68 by omega, decide_true,
      Bool.true_and, show i ≤ 67 by omega, h2, h3, h4]
  · rw [BitVec.getLsbD_of_ge _ _ (by omega), BitVec.getLsbD_of_ge sp _ (by omega), BitVec.getLsbD_of_ge ix _ (by omega),
      BitVec.getLsbD_of_ge d _ (by omega)]
    simp; omega

@[simp] theorem Packet.make_writeBit (w : Bool) (sp : BitVec 3) (ix d : Word) :
    Packet.writeBit (Packet.make w sp ix d) = w := by
  simp [Packet.writeBit, -BitVec.getLsbD_eq_getElem, Packet.make_getLsbD, BitVec.getLsbD_of_ge]

@[simp] theorem Packet.make_space (w : Bool) (sp : BitVec 3) (ix d : Word) :
    Packet.space (Packet.make w sp ix d) = sp := by
  apply BitVec.eq_of_getLsbD_eq
  intro i hi
  have h1 : 64 + i ≠ 67 := by omega
  have h2 : ix.getLsbD (64 + i - 32) = false := BitVec.getLsbD_of_ge _ _ (by omega)
  have h3 : d.getLsbD (64 + i) = false := BitVec.getLsbD_of_ge _ _ (by omega)
  simp [Packet.space, BitVec.getLsbD_extractLsb', -BitVec.getLsbD_eq_getElem, Packet.make_getLsbD, hi, h1, h2, h3]

@[simp] theorem Packet.make_index (w : Bool) (sp : BitVec 3) (ix d : Word) :
    Packet.index (Packet.make w sp ix d) = ix := by
  apply BitVec.eq_of_getLsbD_eq
  intro i hi
  have h1 : 32 + i ≠ 67 := by omega
  have h2 : ¬ 64 ≤ 32 + i := by omega
  simp [Packet.index, BitVec.getLsbD_extractLsb', -BitVec.getLsbD_eq_getElem, Packet.make_getLsbD, hi, h1, h2]

@[simp] theorem Packet.make_data (w : Bool) (sp : BitVec 3) (ix d : Word) :
    Packet.data (Packet.make w sp ix d) = d := by
  apply BitVec.eq_of_getLsbD_eq
  intro i hi
  have h1 : i ≠ 67 := by omega
  have h2 : ¬ 64 ≤ i := by omega
  have h3 : ¬ 32 ≤ i := by omega
  simp [Packet.data, BitVec.getLsbD_extractLsb', -BitVec.getLsbD_eq_getElem, Packet.make_getLsbD, hi, h1, h2, h3]

/-- A packet is the four fields it is read as. -/
theorem Packet.make_fields (p : Packet) : Packet.make (Packet.writeBit p) (Packet.space p) (Packet.index p) (Packet.data p) = p := by
  apply BitVec.eq_of_getLsbD_eq
  intro i hi
  rw [Packet.make_getLsbD]
  simp only [Packet.writeBit, Packet.space, Packet.index, Packet.data, BitVec.getLsbD_extractLsb', Nat.zero_add]
  by_cases h1 : i = 67
  · subst h1; simp [-BitVec.getLsbD_eq_getElem]
  by_cases h2 : 64 ≤ i
  · have e : 64 + (i - 64) = i := by omega
    simp [-BitVec.getLsbD_eq_getElem, h1, h2, e, show i - 64 < 3 by omega, show ¬ i - 32 < 32 by omega, show ¬ i < 32 by omega]
  by_cases h3 : 32 ≤ i
  · have e : 32 + (i - 32) = i := by omega
    simp [-BitVec.getLsbD_eq_getElem, h1, h2, h3, e, show i - 32 < 32 by omega, show ¬ i < 32 by omega]
  · simp [-BitVec.getLsbD_eq_getElem, h1, h2, h3, show i < 32 by omega]

end Sys2Proof
end

