-- ==== Sys2Proof/Laws/State.lean ====
section
/-! SUPPORT. One lemma per field per update of the state, so that no proof unfolds a record update. -/

namespace Sys2Proof.Machine

@[simp] theorem State.withPhase_phase (s : State) (p : Phase) : (s.withPhase p).phase = p := rfl
@[simp] theorem State.withPhase_regs (s : State) (p : Phase) : (s.withPhase p).regs = s.regs := rfl
@[simp] theorem State.withPhase_caps (s : State) (p : Phase) : (s.withPhase p).caps = s.caps := rfl
@[simp] theorem State.withPhase_mem (s : State) (p : Phase) : (s.withPhase p).mem = s.mem := rfl
@[simp] theorem State.withPhase_fresh (s : State) (p : Phase) : (s.withPhase p).fresh = s.fresh := rfl
@[simp] theorem State.withPhase_events (s : State) (p : Phase) : (s.withPhase p).events = s.events := rfl
@[simp] theorem State.withPhase_response (s : State) (p : Phase) : (s.withPhase p).response = s.response := rfl

@[simp] theorem State.withRegs_phase (s : State) (r : Regs) : (s.withRegs r).phase = s.phase := rfl
@[simp] theorem State.withRegs_regs (s : State) (r : Regs) : (s.withRegs r).regs = r := rfl
@[simp] theorem State.withRegs_caps (s : State) (r : Regs) : (s.withRegs r).caps = s.caps := rfl
@[simp] theorem State.withRegs_mem (s : State) (r : Regs) : (s.withRegs r).mem = s.mem := rfl
@[simp] theorem State.withRegs_fresh (s : State) (r : Regs) : (s.withRegs r).fresh = s.fresh := rfl
@[simp] theorem State.withRegs_events (s : State) (r : Regs) : (s.withRegs r).events = s.events := rfl
@[simp] theorem State.withRegs_response (s : State) (r : Regs) : (s.withRegs r).response = s.response := rfl

@[simp] theorem State.withMem_phase (s : State) (m : Memory) : (s.withMem m).phase = s.phase := rfl
@[simp] theorem State.withMem_regs (s : State) (m : Memory) : (s.withMem m).regs = s.regs := rfl
@[simp] theorem State.withMem_caps (s : State) (m : Memory) : (s.withMem m).caps = s.caps := rfl
@[simp] theorem State.withMem_mem (s : State) (m : Memory) : (s.withMem m).mem = m := rfl
@[simp] theorem State.withMem_fresh (s : State) (m : Memory) : (s.withMem m).fresh = s.fresh := rfl
@[simp] theorem State.withMem_events (s : State) (m : Memory) : (s.withMem m).events = s.events := rfl
@[simp] theorem State.withMem_response (s : State) (m : Memory) : (s.withMem m).response = s.response := rfl

@[simp] theorem State.withFresh_phase (s : State) (n : Nat) : (s.withFresh n).phase = s.phase := rfl
@[simp] theorem State.withFresh_regs (s : State) (n : Nat) : (s.withFresh n).regs = s.regs := rfl
@[simp] theorem State.withFresh_caps (s : State) (n : Nat) : (s.withFresh n).caps = s.caps := rfl
@[simp] theorem State.withFresh_mem (s : State) (n : Nat) : (s.withFresh n).mem = s.mem := rfl
@[simp] theorem State.withFresh_fresh (s : State) (n : Nat) : (s.withFresh n).fresh = n := rfl
@[simp] theorem State.withFresh_events (s : State) (n : Nat) : (s.withFresh n).events = s.events := rfl
@[simp] theorem State.withFresh_response (s : State) (n : Nat) : (s.withFresh n).response = s.response := rfl

@[simp] theorem State.withEvents_phase (s : State) (l : List Event) : (s.withEvents l).phase = s.phase := rfl
@[simp] theorem State.withEvents_regs (s : State) (l : List Event) : (s.withEvents l).regs = s.regs := rfl
@[simp] theorem State.withEvents_caps (s : State) (l : List Event) : (s.withEvents l).caps = s.caps := rfl
@[simp] theorem State.withEvents_mem (s : State) (l : List Event) : (s.withEvents l).mem = s.mem := rfl
@[simp] theorem State.withEvents_fresh (s : State) (l : List Event) : (s.withEvents l).fresh = s.fresh := rfl
@[simp] theorem State.withEvents_events (s : State) (l : List Event) : (s.withEvents l).events = l := rfl
@[simp] theorem State.withEvents_response (s : State) (l : List Event) : (s.withEvents l).response = s.response := rfl

@[simp] theorem State.withResponse_phase (s : State) (r : Option Word) : (s.withResponse r).phase = s.phase := rfl
@[simp] theorem State.withResponse_regs (s : State) (r : Option Word) : (s.withResponse r).regs = s.regs := rfl
@[simp] theorem State.withResponse_caps (s : State) (r : Option Word) : (s.withResponse r).caps = s.caps := rfl
@[simp] theorem State.withResponse_mem (s : State) (r : Option Word) : (s.withResponse r).mem = s.mem := rfl
@[simp] theorem State.withResponse_fresh (s : State) (r : Option Word) : (s.withResponse r).fresh = s.fresh := rfl
@[simp] theorem State.withResponse_events (s : State) (r : Option Word) : (s.withResponse r).events = s.events := rfl
@[simp] theorem State.withResponse_response (s : State) (r : Option Word) : (s.withResponse r).response = r := rfl

@[simp] theorem State.withEvents_events_self (s : State) : s.withEvents s.events = s := rfl
@[simp] theorem State.withEvents_withEvents (s : State) (l k : List Event) :
    (s.withEvents l).withEvents k = s.withEvents k := rfl

@[simp] theorem Regs.clearResults_status (r : Regs) : r.clearResults.status = r.status := rfl
@[simp] theorem Regs.clearResults_msgLen (r : Regs) : r.clearResults.msgLen = r.msgLen := rfl
@[simp] theorem Regs.clearResults_ctrLen (r : Regs) : r.clearResults.ctrLen = r.ctrLen := rfl
@[simp] theorem Regs.clearResults_ctrPresent (r : Regs) : r.clearResults.ctrPresent = r.ctrPresent := rfl
@[simp] theorem Regs.clearResults_decLen (r : Regs) : r.clearResults.decLen = 0 := rfl
@[simp] theorem Regs.clearResults_nSyms (r : Regs) : r.clearResults.nSyms = 0 := rfl
@[simp] theorem Regs.clearResults_root (r : Regs) : r.clearResults.root = 0 := rfl
@[simp] theorem Regs.clearResults_encBits (r : Regs) : r.clearResults.encBits = 0 := rfl
@[simp] theorem Regs.clearResults_decBits (r : Regs) : r.clearResults.decBits = 0 := rfl
@[simp] theorem Regs.clearResults_discard (r : Regs) : r.clearResults.discard = 0 := rfl
@[simp] theorem Regs.clearResults_payloadOff (r : Regs) : r.clearResults.payloadOff = 0 := rfl
@[simp] theorem Regs.clearResults_total (r : Regs) : r.clearResults.total = 0 := rfl
@[simp] theorem Regs.clearResults_valResult (r : Regs) : r.clearResults.valResult = 0 := rfl
@[simp] theorem Regs.clearResults_valSymcount (r : Regs) : r.clearResults.valSymcount = 0 := rfl
@[simp] theorem Regs.clearResults_valDiscard (r : Regs) : r.clearResults.valDiscard = 0 := rfl
@[simp] theorem Regs.clearResults_valPayload (r : Regs) : r.clearResults.valPayload = 0 := rfl
@[simp] theorem Regs.clearResults_verResult (r : Regs) : r.clearResults.verResult = 0 := rfl
@[simp] theorem Regs.clearResults_verMismatch (r : Regs) : r.clearResults.verMismatch = 0 := rfl
@[simp] theorem Regs.clearResults_idem (r : Regs) : r.clearResults.clearResults = r.clearResults := rfl

@[simp] theorem Memory.clearTables_msg (m : Memory) : m.clearTables.msg = m.msg := rfl
@[simp] theorem Memory.clearTables_ctr (m : Memory) : m.clearTables.ctr = m.ctr := rfl
@[simp] theorem Memory.clearTables_dec (m : Memory) : m.clearTables.dec = m.dec := rfl
@[simp] theorem Memory.clearTables_freq (m : Memory) : m.clearTables.freq = [] := rfl
@[simp] theorem Memory.clearTables_node (m : Memory) : m.clearTables.node = [] := rfl
@[simp] theorem Memory.clearTables_code (m : Memory) : m.clearTables.code = [] := rfl

@[simp] theorem State.startCommand_phase (s : State) (c : Command) :
    (s.startCommand c).phase = .busy c := rfl
@[simp] theorem State.startCommand_regs (s : State) (c : Command) :
    (s.startCommand c).regs = { s.regs.clearResults with status := startStatus } := rfl
@[simp] theorem State.startCommand_caps (s : State) (c : Command) :
    (s.startCommand c).caps = s.caps := rfl
@[simp] theorem State.startCommand_mem (s : State) (c : Command) :
    (s.startCommand c).mem = s.mem.clearTables := rfl
@[simp] theorem State.startCommand_fresh (s : State) (c : Command) :
    (s.startCommand c).fresh = s.fresh := rfl
@[simp] theorem State.startCommand_events (s : State) (c : Command) :
    (s.startCommand c).events = s.events := rfl
@[simp] theorem State.startCommand_response (s : State) (c : Command) :
    (s.startCommand c).response = s.response := rfl

@[simp] theorem State.reportBadCommand_phase (s : State) :
    (s.reportBadCommand).phase = s.phase := rfl
@[simp] theorem State.reportBadCommand_regs (s : State) :
    (s.reportBadCommand).regs = { s.regs with status := badCommandStatus } := rfl
@[simp] theorem State.reportBadCommand_caps (s : State) :
    (s.reportBadCommand).caps = s.caps := rfl
@[simp] theorem State.reportBadCommand_mem (s : State) :
    (s.reportBadCommand).mem = s.mem := rfl
@[simp] theorem State.reportBadCommand_fresh (s : State) :
    (s.reportBadCommand).fresh = s.fresh := rfl
@[simp] theorem State.reportBadCommand_events (s : State) :
    (s.reportBadCommand).events = s.events := rfl
@[simp] theorem State.reportBadCommand_response (s : State) :
    (s.reportBadCommand).response = s.response := rfl

@[simp] theorem State.complete_phase (s : State) (e : Option CodecError) :
    (s.complete e).phase = .idle := rfl
@[simp] theorem State.complete_regs (s : State) (e : Option CodecError) :
    (s.complete e).regs = { s.regs with status := completionStatus e s.regs.status } := rfl
@[simp] theorem State.complete_caps (s : State) (e : Option CodecError) :
    (s.complete e).caps = s.caps := rfl
@[simp] theorem State.complete_mem (s : State) (e : Option CodecError) :
    (s.complete e).mem = s.mem := rfl
@[simp] theorem State.complete_fresh (s : State) (e : Option CodecError) :
    (s.complete e).fresh = s.fresh := rfl
@[simp] theorem State.complete_events (s : State) (e : Option CodecError) :
    (s.complete e).events = s.events := rfl
@[simp] theorem State.complete_response (s : State) (e : Option CodecError) :
    (s.complete e).response = s.response := rfl

@[simp] theorem State.ignoreWrite_phase (s : State) :
    (s.ignoreWrite).phase = s.phase := rfl
@[simp] theorem State.ignoreWrite_regs (s : State) :
    (s.ignoreWrite).regs = { s.regs with status := setWign s.regs.status } := rfl
@[simp] theorem State.ignoreWrite_caps (s : State) :
    (s.ignoreWrite).caps = s.caps := rfl
@[simp] theorem State.ignoreWrite_mem (s : State) :
    (s.ignoreWrite).mem = s.mem := rfl
@[simp] theorem State.ignoreWrite_fresh (s : State) :
    (s.ignoreWrite).fresh = s.fresh := rfl
@[simp] theorem State.ignoreWrite_events (s : State) :
    (s.ignoreWrite).events = s.events := rfl
@[simp] theorem State.ignoreWrite_response (s : State) :
    (s.ignoreWrite).response = s.response := rfl

@[simp] theorem State.respond_phase (s : State) (v : Word) :
    (s.respond v).phase = s.phase := rfl
@[simp] theorem State.respond_regs (s : State) (v : Word) :
    (s.respond v).regs = s.regs := rfl
@[simp] theorem State.respond_caps (s : State) (v : Word) :
    (s.respond v).caps = s.caps := rfl
@[simp] theorem State.respond_mem (s : State) (v : Word) :
    (s.respond v).mem = s.mem := rfl
@[simp] theorem State.respond_fresh (s : State) (v : Word) :
    (s.respond v).fresh = s.fresh := rfl
@[simp] theorem State.respond_events (s : State) (v : Word) :
    (s.respond v).events = s.events := rfl
@[simp] theorem State.respond_response (s : State) (v : Word) :
    (s.respond v).response = some v := rfl

@[simp] theorem State.respondDraw_phase (s : State) :
    (s.respondDraw).phase = s.phase := rfl
@[simp] theorem State.respondDraw_regs (s : State) :
    (s.respondDraw).regs = s.regs := rfl
@[simp] theorem State.respondDraw_caps (s : State) :
    (s.respondDraw).caps = s.caps := rfl
@[simp] theorem State.respondDraw_mem (s : State) :
    (s.respondDraw).mem = s.mem := rfl
@[simp] theorem State.respondDraw_fresh (s : State) :
    (s.respondDraw).fresh = s.fresh + 1 := rfl
@[simp] theorem State.respondDraw_events (s : State) :
    (s.respondDraw).events = s.events := rfl
@[simp] theorem State.respondDraw_response (s : State) :
    (s.respondDraw).response = some (Config.draw s.fresh) := rfl

end Sys2Proof.Machine
end

