-- ==== Sys2Proof/Laws/Engine.lean ====
section
/-! SUPPORT. What the completion step of each command can do, and what none of them touches. -/

namespace Sys2Proof.Machine

theorem engineTurn_of_idle {s : State} (h : s.phase = .idle) : engineTurn s = s := by simp [engineTurn, h]

theorem engineTurn_of_busy {s : State} {c : Command} (h : s.phase = .busy c) : engineTurn s = completionStep c s := by
  simp [engineTurn, h]

/-- ENCODE completes with its result or with its failure rule (R104). -/
theorem completeEncode_cases (s : State) :
    (∃ r, encodeBody s = .ok r ∧ completeEncode s = (applyEncode s r).complete none) ∨
    ∃ e, encodeBody s = .error e ∧ completeEncode s = (failEncode s).complete (some e) := by
  unfold completeEncode
  cases encodeBody s with
  | ok r => exact Or.inl ⟨r, rfl, rfl⟩
  | error e => exact Or.inr ⟨e, rfl, rfl⟩

/-- DECODE completes with its result or with its failure rule (R113). -/
theorem completeDecode_cases (s : State) :
    (∃ r, decodeBody s = .ok r ∧ completeDecode s = (applyDecode s r).complete none) ∨
    ∃ f, decodeBody s = .error f ∧ completeDecode s = (failDecode s f).complete (some f.error) := by
  unfold completeDecode
  cases decodeBody s with
  | ok r => exact Or.inl ⟨r, rfl, rfl⟩
  | error e => exact Or.inr ⟨e, rfl, rfl⟩

/-- VERIFY completes with DECODE's result or DECODE's failure rule, and its own report (R119). -/
theorem completeVerify_cases (s : State) :
    (∃ r, decodeBody s = .ok r ∧ completeVerify s = (reportDecoded (applyDecode s r)).complete none) ∨
    ∃ f, decodeBody s = .error f ∧
      completeVerify s = (reportUndecoded (failDecode s f) f.error).complete none := by
  unfold completeVerify
  cases decodeBody s with
  | ok r => exact Or.inl ⟨r, rfl, rfl⟩
  | error e => exact Or.inr ⟨e, rfl, rfl⟩

/-- DECODE's failure rule: nothing, or DEC unspecified below a TOTAL (R113). -/
theorem failDecode_cases (s : State) (f : DecodeFailure) :
    (f.spoiled = none ∧ failDecode s f = s) ∨
    ∃ total, f.spoiled = some total ∧
      failDecode s f =
        (s.withMem { s.mem with dec := s.mem.dec.forgetBelow total s.fresh }).withFresh (s.fresh + 1) := by
  unfold failDecode
  cases h : f.spoiled with
  | none => exact Or.inl ⟨rfl, rfl⟩
  | some n => exact Or.inr ⟨n, rfl, rfl⟩

/-- VERIFY's report writes VER_RESULT and VER_MISMATCH and nothing else (R119). -/
theorem reportDecoded_eq (s : State) :
    ∃ r m, reportDecoded s = s.withRegs { s.regs with verResult := r, verMismatch := m } := by
  unfold reportDecoded
  split <;> exact ⟨_, _, rfl⟩

@[simp] theorem failDecode_regs (s : State) (f : DecodeFailure) : (failDecode s f).regs = s.regs := by
  rcases failDecode_cases s f with ⟨_, h⟩ | ⟨_, _, h⟩ <;> simp [h]

@[simp] theorem failDecode_caps (s : State) (f : DecodeFailure) : (failDecode s f).caps = s.caps := by
  rcases failDecode_cases s f with ⟨_, h⟩ | ⟨_, _, h⟩ <;> simp [h]

@[simp] theorem failDecode_events (s : State) (f : DecodeFailure) : (failDecode s f).events = s.events := by
  rcases failDecode_cases s f with ⟨_, h⟩ | ⟨_, _, h⟩ <;> simp [h]

@[simp] theorem failDecode_response (s : State) (f : DecodeFailure) : (failDecode s f).response = s.response := by
  rcases failDecode_cases s f with ⟨_, h⟩ | ⟨_, _, h⟩ <;> simp [h]

@[simp] theorem failDecode_phase (s : State) (f : DecodeFailure) : (failDecode s f).phase = s.phase := by
  rcases failDecode_cases s f with ⟨_, h⟩ | ⟨_, _, h⟩ <;> simp [h]

/-- The failure rule touches no buffer but DEC and no table. -/
theorem failDecode_mem (s : State) (f : DecodeFailure) :
    (failDecode s f).mem = { s.mem with dec := (failDecode s f).mem.dec } := by
  rcases failDecode_cases s f with ⟨_, h⟩ | ⟨_, _, h⟩ <;> simp [h]

@[simp] theorem reportDecoded_mem (s : State) : (reportDecoded s).mem = s.mem := by
  obtain ⟨_, _, h⟩ := reportDecoded_eq s; rw [h]; rfl

@[simp] theorem reportDecoded_caps (s : State) : (reportDecoded s).caps = s.caps := by
  obtain ⟨_, _, h⟩ := reportDecoded_eq s; rw [h]; rfl

@[simp] theorem reportDecoded_events (s : State) : (reportDecoded s).events = s.events := by
  obtain ⟨_, _, h⟩ := reportDecoded_eq s; rw [h]; rfl

@[simp] theorem reportDecoded_fresh (s : State) : (reportDecoded s).fresh = s.fresh := by
  obtain ⟨_, _, h⟩ := reportDecoded_eq s; rw [h]; rfl

@[simp] theorem reportDecoded_response (s : State) : (reportDecoded s).response = s.response := by
  obtain ⟨_, _, h⟩ := reportDecoded_eq s; rw [h]; rfl

end Sys2Proof.Machine
end

