-- ==== Sys2Proof/Laws/Flags.lean ====
section
/-! SUPPORT. The fields of the status words. -/

namespace Sys2Proof.Machine

/-- Every bit of a report word. -/
theorem packReport_getLsbD (a b c : Bool) (e : BitVec 4) (d : BitVec 8) (i : Nat) :
    (packReport a b c e d).getLsbD i =
      ((decide (i = 0) && a) || (decide (i = 1) && b) || (decide (i = 2) && c) ||
        (decide (4 ≤ i) && e.getLsbD (i - 4)) || (decide (8 ≤ i) && d.getLsbD (i - 8))) := by
  by_cases hi : i < 32
  · interval_cases i <;>
      simp [packReport, placeField, -BitVec.getLsbD_eq_getElem, BitVec.getLsbD_ofBool, BitVec.getLsbD_of_ge]
  · have h1 : e.getLsbD (i - 4) = false := BitVec.getLsbD_of_ge _ _ (by omega)
    have h2 : d.getLsbD (i - 8) = false := BitVec.getLsbD_of_ge _ _ (by omega)
    rw [BitVec.getLsbD_of_ge _ _ (by omega), h1, h2]
    simp; omega

@[simp] theorem statusBusy_pack (a b c : Bool) (e : BitVec 4) (d : BitVec 8) :
    statusBusy (packStatus a b c e d) = a := by
  simp [statusBusy, packStatus, -BitVec.getLsbD_eq_getElem, packReport_getLsbD]

@[simp] theorem statusDone_pack (a b c : Bool) (e : BitVec 4) (d : BitVec 8) :
    statusDone (packStatus a b c e d) = b := by
  simp [statusDone, packStatus, -BitVec.getLsbD_eq_getElem, packReport_getLsbD]

@[simp] theorem statusWign_pack (a b c : Bool) (e : BitVec 4) (d : BitVec 8) :
    statusWign (packStatus a b c e d) = c := by
  simp [statusWign, packStatus, -BitVec.getLsbD_eq_getElem, packReport_getLsbD]

@[simp] theorem statusErr_pack (a b c : Bool) (e : BitVec 4) (d : BitVec 8) :
    statusErr (packStatus a b c e d) = e := by
  apply BitVec.eq_of_getLsbD_eq
  intro i hi
  have h1 : ¬ 8 ≤ 4 + i := by omega
  have h2 : 4 + i ≠ 0 ∧ 4 + i ≠ 1 ∧ 4 + i ≠ 2 := by omega
  simp [statusErr, packStatus, BitVec.getLsbD_extractLsb', -BitVec.getLsbD_eq_getElem, packReport_getLsbD, hi, h1, h2]

@[simp] theorem statusDetail_pack (a b c : Bool) (e : BitVec 4) (d : BitVec 8) :
    statusDetail (packStatus a b c e d) = d := by
  apply BitVec.eq_of_getLsbD_eq
  intro i hi
  have h2 : 8 + i ≠ 0 ∧ 8 + i ≠ 1 ∧ 8 + i ≠ 2 := by omega
  have h3 : e.getLsbD (8 + i - 4) = false := BitVec.getLsbD_of_ge _ _ (by omega)
  simp [statusDetail, packStatus, BitVec.getLsbD_extractLsb', -BitVec.getLsbD_eq_getElem, packReport_getLsbD, hi, h2, h3]

@[simp] theorem setWign_pack (a b c : Bool) (e : BitVec 4) (d : BitVec 8) :
    setWign (packStatus a b c e d) = packStatus a b true e d := by
  apply BitVec.eq_of_getLsbD_eq
  intro i hi
  have h4 : (4#32).getLsbD i = decide (i = 2) := by
    have : ∀ j : Fin 32, (4#32).getLsbD j.val = decide (j.val = 2) := by decide
    exact this ⟨i, hi⟩
  simp only [setWign, packStatus, BitVec.getLsbD_or, packReport_getLsbD]
  rw [show (4 : Word) = 4#32 from rfl, h4]
  by_cases h : i = 2
  · subst h; simp
  · simp [h]

@[simp] theorem statusWign_setWign (w : Word) : statusWign (setWign w) = true := by
  simp [statusWign, setWign]

theorem completionStatus_eq (e : Option CodecError) (w : Word) :
    completionStatus e w = packStatus false true (statusWign w) (errCode e) (errDetail e) := rfl

@[simp] theorem statusWign_completionStatus (e : Option CodecError) (w : Word) :
    statusWign (completionStatus e w) = statusWign w := by simp [completionStatus]

end Sys2Proof.Machine
end

