-- ==== Sys2Proof/Laws/Memory.lean ====
section
/-! SUPPORT. What the memory operations do: reads after writes, what stays, and the canonical form. -/

namespace Sys2Proof.Machine

/-! ### Cells -/

variable {α : Type}

@[simp] theorem cellAt?_nil (a : Nat) : cellAt? ([] : List (Nat × α)) a = none := rfl

theorem cellAt?_putCell (l : List (Nat × α)) (a b : Nat) (v : α) :
    cellAt? (putCell l a v) b = if a = b then some v else cellAt? l b := by
  induction l with
  | nil => simp [putCell, cellAt?]
  | cons x l ih =>
    obtain ⟨c, w⟩ := x
    by_cases h1 : a < c
    · simp [putCell, cellAt?, h1]
    · by_cases h2 : a = c
      · subst h2; by_cases h3 : a = b <;> simp [putCell, cellAt?, h3]
      · simp only [putCell, h1, h2, if_false, cellAt?, ih]
        by_cases h3 : c = b
        · have : a ≠ b := by omega
          simp [h3, this]
        · simp [h3]

theorem cellAt?_filter (l : List (Nat × α)) (p : Nat → Bool) (b : Nat) :
    cellAt? (l.filter (fun x => p x.1)) b = if p b then cellAt? l b else none := by
  induction l with
  | nil => simp
  | cons x l ih =>
    obtain ⟨c, w⟩ := x
    by_cases hp : p c
    · by_cases hc : c = b
      · subst hc; simp [List.filter, hp, cellAt?]
      · simp [List.filter, hp, cellAt?, hc, ih]
    · by_cases hc : c = b
      · subst hc; simp [List.filter, hp, ih]
      · simp [List.filter, hp, cellAt?, hc, ih]

theorem cellAt?_dropCell (l : List (Nat × α)) (a b : Nat) :
    cellAt? (dropCell l a) b = if a = b then none else cellAt? l b := by
  have := cellAt?_filter l (fun i => i ≠ a) b
  simp only [dropCell]
  rw [show (fun x : Nat × α => decide (x.1 ≠ a)) = (fun x => (fun i => decide (i ≠ a)) x.1) from rfl, this]
  by_cases h : a = b
  · subst h; simp
  · simp [h, Ne.symm h]

theorem mem_putCell {l : List (Nat × α)} {a : Nat} {v : α} {x : Nat × α} (h : x ∈ putCell l a v) :
    x = (a, v) ∨ x ∈ l := by
  induction l with
  | nil => simpa [putCell] using h
  | cons y l ih =>
    obtain ⟨c, w⟩ := y
    simp only [putCell] at h
    split at h
    · simpa using h
    · split at h
      · rcases List.mem_cons.1 h with h | h <;> simp [h]
      · rcases List.mem_cons.1 h with h | h
        · simp [h]
        · rcases ih h with h | h <;> simp [h]

theorem rising_putCell {l : List (Nat × α)} (h : Rising l) (a : Nat) (v : α) : Rising (putCell l a v) := by
  induction l with
  | nil => simp [putCell, Rising]
  | cons y l ih =>
    obtain ⟨c, w⟩ := y
    obtain ⟨hc, hl⟩ := List.pairwise_cons.1 h
    simp only [putCell]
    split
    · rename_i hac
      refine List.pairwise_cons.2 ⟨fun x hx => ?_, h⟩
      rcases List.mem_cons.1 hx with rfl | hx
      · exact hac
      · exact Nat.lt_trans hac (hc x hx)
    · split
      · rename_i hac; subst hac
        exact List.pairwise_cons.2 ⟨hc, hl⟩
      · refine List.pairwise_cons.2 ⟨fun x hx => ?_, ih hl⟩
        rcases mem_putCell hx with rfl | hx
        · show c < a; omega
        · exact hc x hx

theorem rising_filter {l : List (Nat × α)} (h : Rising l) (p : Nat × α → Bool) : Rising (l.filter p) :=
  List.Pairwise.filter p h

theorem rising_dropCell {l : List (Nat × α)} (h : Rising l) (a : Nat) : Rising (dropCell l a) :=
  rising_filter h _

theorem mem_dropCell {l : List (Nat × α)} {a : Nat} {x : Nat × α} (h : x ∈ dropCell l a) : x ∈ l :=
  List.mem_of_mem_filter h

theorem cellAt?_mem {l : List (Nat × α)} {a : Nat} {v : α} (h : cellAt? l a = some v) : (a, v) ∈ l := by
  induction l with
  | nil => simp at h
  | cons y l ih =>
    obtain ⟨c, w⟩ := y
    simp only [cellAt?] at h
    split at h
    · rename_i hc; subst hc; cases h; simp
    · exact List.mem_cons_of_mem _ (ih h)

/-! ### Byte buffers -/

@[simp] theorem Buffer.set_marks (b : Buffer) (a : Nat) (v : Byte) : (b.set a v).marks = b.marks := rfl
@[simp] theorem Buffer.set_epoch (b : Buffer) (a : Nat) (v : Byte) : (b.set a v).epoch = b.epoch := rfl
@[simp] theorem Buffer.set_unlisted (b : Buffer) (a : Nat) (v : Byte) (c : Nat) :
    (b.set a v).unlisted c = b.unlisted c := rfl

/-- A read after a write: the byte written at its address, the old byte everywhere else. -/
theorem Buffer.get_set (b : Buffer) (a c : Nat) (v : Byte) :
    (b.set a v).get c = if a = c then v else b.get c := by
  simp only [Buffer.get, Buffer.set_unlisted]
  rw [show (b.set a v).cells = putCell b.cells a v from rfl, cellAt?_putCell]
  split <;> rfl

@[simp] theorem Buffer.store_marks (b : Buffer) (start : Nat) (k : List Byte) : (b.store start k).marks = b.marks := by
  induction k generalizing b start with
  | nil => rfl
  | cons v k ih => simp [Buffer.store, ih]

@[simp] theorem Buffer.store_epoch (b : Buffer) (start : Nat) (k : List Byte) : (b.store start k).epoch = b.epoch := by
  induction k generalizing b start with
  | nil => rfl
  | cons v k ih => simp [Buffer.store, ih]

/-- A read after a store of a byte list: its bytes where it lies, the old byte everywhere else. -/
theorem Buffer.get_store (b : Buffer) (start c : Nat) (k : List Byte) :
    (b.store start k).get c = if start ≤ c then k.getD (c - start) (b.get c) else b.get c := by
  induction k generalizing b start with
  | nil => simp [Buffer.store]
  | cons v k ih =>
    simp only [Buffer.store, ih, Buffer.get_set]
    by_cases h : start = c
    · subst h; simp
    · by_cases h2 : start + 1 ≤ c
      · have h3 : start ≤ c := by omega
        have h4 : c - start = (c - (start + 1)) + 1 := by omega
        simp [h, h2, h3, h4]
      · have h3 : ¬ start ≤ c := by omega
        simp [h, h2, h3]

theorem Buffer.get_store_zero (b : Buffer) (c : Nat) (k : List Byte) :
    (b.store 0 k).get c = k.getD c (b.get c) := by
  simp [Buffer.get_store]

theorem epochAt_filter {marks : List (Nat × Nat)} {limit epoch a : Nat} (h : limit ≤ a) :
    epochAt (marks.filter (fun m => limit < m.1)) epoch a = epochAt marks epoch a := by
  induction marks with
  | nil => rfl
  | cons m marks ih =>
    obtain ⟨l, e⟩ := m
    by_cases hl : limit < l
    · simp [List.filter, hl, epochAt, ih]
    · have : ¬ a < l := by omega
      simp [List.filter, hl, epochAt, this, ih]

/-- Forgetting the bytes below a limit leaves every byte from the limit on as it was. -/
theorem Buffer.get_forgetBelow (b : Buffer) (limit e c : Nat) :
    (b.forgetBelow limit e).get c = if c < limit then Config.freeByte e c else b.get c := by
  have hcells : cellAt? (b.cells.filter (fun x => decide (limit ≤ x.1))) c =
      if limit ≤ c then cellAt? b.cells c else none := by
    have := cellAt?_filter b.cells (fun i => limit ≤ i) c
    simpa using this
  by_cases h : c < limit
  · have h2 : ¬ limit ≤ c := by omega
    rw [if_neg h2] at hcells
    simp [Buffer.get, h, Buffer.unlisted, Buffer.forgetBelow, epochAt, hcells]
  · have h2 : limit ≤ c := by omega
    rw [if_pos h2] at hcells
    simp [Buffer.get, h, Buffer.unlisted, Buffer.forgetBelow, epochAt, epochAt_filter h2, hcells]

theorem Buffer.wf_set {b : Buffer} (h : b.wf) (a : Nat) (v : Byte) : (b.set a v).wf :=
  ⟨rising_putCell h.1 a v, h.2⟩

theorem Buffer.wf_store {b : Buffer} (h : b.wf) (start : Nat) (k : List Byte) : (b.store start k).wf := by
  induction k generalizing b start with
  | nil => exact h
  | cons v k ih => exact ih (Buffer.wf_set h start v) (start + 1)

theorem Buffer.wf_forgetBelow {b : Buffer} (h : b.wf) (limit e : Nat) : (b.forgetBelow limit e).wf :=
  ⟨rising_filter h.1 _, List.pairwise_cons.2 ⟨fun m hm => by simpa using (List.mem_filter.1 hm).2, rising_filter h.2 _⟩⟩

theorem Buffer.wf_hostSet {b : Buffer} (h : b.wf) (cap i : Nat) (data : Word) : (b.hostSet cap i data).wf := by
  unfold Buffer.hostSet
  split
  · exact Buffer.wf_set h _ _
  · exact h

theorem Buffer.wf_unspecified (e : Nat) : (Buffer.unspecified e).wf := by
  simp [Buffer.wf, Buffer.unspecified, Rising]

/-- The addresses a store lists: the old ones and its own. -/
theorem Buffer.store_cells_lt {b : Buffer} {start cap : Nat} {k : List Byte}
    (h : ∀ x ∈ b.cells, x.1 < cap) (hk : start + k.length ≤ cap) : ∀ x ∈ (b.store start k).cells, x.1 < cap := by
  induction k generalizing b start with
  | nil => exact h
  | cons v k ih =>
    refine ih (b := b.set start v) (fun x hx => ?_) (by simp at hk; omega)
    rcases mem_putCell hx with rfl | hx
    · show start < cap
      simp at hk; omega
    · exact h x hx

theorem Buffer.get_hostSet (b : Buffer) (cap i c : Nat) (data : Word) :
    (b.hostSet cap i data).get c = if i = c ∧ i < cap then storedByte data else b.get c := by
  unfold Buffer.hostSet
  by_cases h : i < cap
  · simp [h, Buffer.get_set]
  · simp [h]

/-! ### Word tables -/

@[simp] theorem WordTable.get_nil (i : Nat) : WordTable.get [] i = 0 := rfl

/-- A word read after a write. -/
theorem WordTable.get_set (t : WordTable) (i j : Nat) (v : Word) :
    WordTable.get (WordTable.set t i v) j = if i = j then v else WordTable.get t j := by
  unfold WordTable.set WordTable.get
  split
  · rename_i h; subst h
    rw [cellAt?_dropCell]; split <;> rfl
  · rw [cellAt?_putCell]; split <;> rfl

/-- Words not named by a list of writes keep their value. -/
theorem WordTable.get_setAll_of_not_mem (t : WordTable) (l : List (Nat × Word)) (j : Nat)
    (h : ∀ x ∈ l, x.1 ≠ j) : WordTable.get (WordTable.setAll t l) j = WordTable.get t j := by
  induction l generalizing t with
  | nil => rfl
  | cons x l ih =>
    obtain ⟨i, v⟩ := x
    rw [WordTable.setAll, ih _ (fun x hx => h x (List.mem_cons_of_mem _ hx)), WordTable.get_set]
    have : i ≠ j := h (i, v) (by simp)
    simp [this]

/-- Where the writes of a list name each index at most once, each word reads as written. -/
theorem WordTable.get_setAll_of_mem (t : WordTable) (l : List (Nat × Word)) (j : Nat) (v : Word)
    (hn : (l.map Prod.fst).Nodup) (h : (j, v) ∈ l) : WordTable.get (WordTable.setAll t l) j = v := by
  induction l generalizing t with
  | nil => simp at h
  | cons x l ih =>
    obtain ⟨i, w⟩ := x
    simp only [List.map_cons, List.nodup_cons] at hn
    rw [WordTable.setAll]
    rcases List.mem_cons.1 h with h | h
    · cases h
      rw [WordTable.get_setAll_of_not_mem, WordTable.get_set]
      · simp
      · intro x hx hxj
        exact hn.1 (List.mem_map.2 ⟨x, hx, hxj⟩)
    · exact ih _ hn.2 h

theorem WordTable.wf_set {t : WordTable} (h : WordTable.wf t) (i : Nat) (v : Word) : WordTable.wf (WordTable.set t i v) := by
  unfold WordTable.set
  split
  · exact ⟨rising_dropCell h.1 i, fun x hx => h.2 x (mem_dropCell hx)⟩
  · rename_i hv
    refine ⟨rising_putCell h.1 i v, fun x hx => ?_⟩
    rcases mem_putCell hx with rfl | hx
    · exact hv
    · exact h.2 x hx

theorem WordTable.wf_setAll {t : WordTable} (h : WordTable.wf t) (l : List (Nat × Word)) :
    WordTable.wf (WordTable.setAll t l) := by
  induction l generalizing t with
  | nil => exact h
  | cons x l ih => exact ih (WordTable.wf_set h x.1 x.2)

/-- The indices a list of writes can list: the old ones and its own. -/
theorem WordTable.setAll_bound {t : WordTable} {l : List (Nat × Word)} {n : Nat}
    (h : ∀ x ∈ t, x.1 < n) (hl : ∀ x ∈ l, x.1 < n) : ∀ x ∈ WordTable.setAll t l, x.1 < n := by
  induction l generalizing t with
  | nil => exact h
  | cons y l ih =>
    refine ih (t := WordTable.set t y.1 y.2) (fun x hx => ?_) (fun x hx => hl x (List.mem_cons_of_mem _ hx))
    unfold WordTable.set at hx
    split at hx
    · exact h x (mem_dropCell hx)
    · rcases mem_putCell hx with rfl | hx
      · exact hl y (by simp)
      · exact h x hx

theorem WordTable.wf_nil : WordTable.wf [] := by simp [WordTable.wf, Rising]

/-! ### The whole memory -/

theorem Memory.wf_clearTables {m : Memory} (h : m.wf) : m.clearTables.wf :=
  ⟨h.1, WordTable.wf_nil, WordTable.wf_nil, WordTable.wf_nil⟩

theorem State.wf_resetMem {s : State} (h : s.mem.wf) : s.resetMem.wf := by
  unfold State.resetMem
  split
  · exact ⟨⟨h.1.1, Buffer.wf_unspecified _, Buffer.wf_unspecified _⟩, WordTable.wf_nil, WordTable.wf_nil, WordTable.wf_nil⟩
  · exact Memory.wf_clearTables h

theorem State.powerUp_mem_wf (caps : Caps) : (State.powerUp caps).mem.wf :=
  ⟨⟨Buffer.wf_unspecified 0, Buffer.wf_unspecified 1, Buffer.wf_unspecified 2⟩, WordTable.wf_nil, WordTable.wf_nil,
    WordTable.wf_nil⟩

theorem State.reset_mem_wf : State.reset.mem.wf := State.powerUp_mem_wf _

end Sys2Proof.Machine
end

