-- ==== Sys2Proof/Laws/Exec.lean ====
section
/-! SUPPORT. What a host transaction can do, and what a step can do: one lemma each, for later proofs to cite. -/

namespace Sys2Proof.Machine

theorem State.isBusy_of_idle {s : State} (h : s.phase = .idle) : s.isBusy = false := by simp [State.isBusy, h]

theorem State.isBusy_of_busy {s : State} {c : Command} (h : s.phase = .busy c) : s.isBusy = true := by
  simp [State.isBusy, h]

theorem State.isBusy_cases (s : State) :
    (s.phase = .idle ∧ s.isBusy = false) ∨ ∃ c, s.phase = .busy c ∧ s.isBusy = true := by
  cases h : s.phase with
  | idle => exact Or.inl ⟨rfl, State.isBusy_of_idle h⟩
  | busy c => exact Or.inr ⟨c, rfl, State.isBusy_of_busy h⟩

theorem State.hostRead_of_idle {s : State} (h : s.phase = .idle) (v : Word) : s.hostRead v = s.respond v := by
  simp [State.hostRead, State.isBusy_of_idle h]

theorem State.hostRead_of_busy {s : State} {c : Command} (h : s.phase = .busy c) (v : Word) :
    s.hostRead v = s.respondDraw := by
  simp [State.hostRead, State.isBusy_of_busy h]

theorem State.hostWrite_of_idle {s : State} (h : s.phase = .idle) (f : State → State) :
    s.hostWrite f = (f s).withResponse none := by
  simp [State.hostWrite, State.isBusy_of_idle h]

theorem State.hostWrite_of_busy {s : State} {c : Command} (h : s.phase = .busy c) (f : State → State) :
    s.hostWrite f = s.ignoreWrite.withResponse none := by
  simp [State.hostWrite, State.isBusy_of_busy h]

/-- Reserved and out-of-range registers read 0 (R44, R53). -/
theorem State.readReg_of_ge (s : State) {i : Nat} (h : 22 ≤ i) : s.readReg i = 0 := by
  unfold State.readReg
  rw [List.getD_eq_default]
  exact h

theorem storedPresent_eq (v : Word) : storedPresent v = if v.getLsbD 0 then 1 else 0 := by
  apply BitVec.eq_of_getLsbD_eq
  intro i hi
  have h1 : (1 : Word).getLsbD i = decide (i = 0) := by
    have : ∀ j : Fin 32, (1 : Word).getLsbD j.val = decide (j.val = 0) := by decide
    exact this ⟨i, hi⟩
  rw [storedPresent, BitVec.getLsbD_and, h1]
  by_cases h : i = 0
  · subst h
    cases hv : v.getLsbD 0 <;> simp
  · cases hv : v.getLsbD 0 <;> simp [h]

/-- What a host write does while IDLE (41_host_port.md R82 to R96), by kind. -/
inductive WriteEffect (s : State) : Instr → State → Prop
  | ignored (i : Instr) : ¬ isCommandWrite i → WriteEffect s i s
  | regs (index data : Word) : index ≠ 0 →
      WriteEffect s (.regWr index data) (s.withRegs (s.regs.hostWrite index.toNat data))
  | msg (index data : Word) : WriteEffect s (.msgWr index data)
      (s.withMem { s.mem with msg := s.mem.msg.hostSet s.caps.msg index.toNat data })
  | ctr (index data : Word) : WriteEffect s (.ctrWr index data)
      (s.withMem { s.mem with ctr := s.mem.ctr.hostSet s.caps.ctr index.toNat data })
  | bad (i : Instr) : isCommandWrite i → WriteEffect s i s.reportBadCommand
  | start (c : Command) (i : Instr) : isCommandWrite i → (i = startingWrite c ∨ ∃ v, i = .regWr 0 v) →
      WriteEffect s i (s.startCommand c)

/-- Every transaction answers a next state: a read returns a word, exactly or as a host read; a write is a host write
with one of the effects above. -/
theorem exec_cases (i : Instr) (s : State) :
    (i.isRead = true ∧ ∃ v, exec i s = .next (s.respond v) ∧
      (i = .regRd 1 ∨ i = .regRd 19 ∨ i = .regRd 20 ∨ i = .regRd 21)) ∨
    (i.isRead = true ∧ ∃ v, exec i s = .next (s.hostRead v)) ∨
    (i.isRead = false ∧ ∃ f : State → State, exec i s = .next (s.hostWrite f) ∧ WriteEffect s i (f s)) := by
  cases i with
  | encode => exact Or.inr (Or.inr ⟨rfl, _, rfl, .start .encode _ (by simp [isCommandWrite]) (Or.inl rfl)⟩)
  | decode => exact Or.inr (Or.inr ⟨rfl, _, rfl, .start .decode _ (by simp [isCommandWrite]) (Or.inl rfl)⟩)
  | validate => exact Or.inr (Or.inr ⟨rfl, _, rfl, .start .validate _ (by simp [isCommandWrite]) (Or.inl rfl)⟩)
  | verify => exact Or.inr (Or.inr ⟨rfl, _, rfl, .start .verify _ (by simp [isCommandWrite]) (Or.inl rfl)⟩)
  | badCommand data => exact Or.inr (Or.inr ⟨rfl, _, rfl, .bad _ (by simp [isCommandWrite])⟩)
  | regRd index =>
    by_cases h : index = 1 ∨ index = 19 ∨ index = 20 ∨ index = 21
    · exact Or.inl ⟨rfl, s.readReg index.toNat, by
        simp only [exec, execRegRd]; rw [if_pos h], by simpa using h⟩
    · exact Or.inr (Or.inl ⟨rfl, s.readReg index.toNat, by
        simp only [exec, execRegRd]; rw [if_neg h]⟩)
  | regWr index data =>
    right; right
    refine ⟨rfl, ?_⟩
    by_cases h : index = 0
    · subst h
      refine ⟨fun s => s.writeCmd data, by simp [exec, execRegWr], ?_⟩
      unfold State.writeCmd
      cases decodeCmd data with
      | none => exact .bad _ (by simp [isCommandWrite])
      | some c => exact .start c _ (by simp [isCommandWrite]) (Or.inr ⟨data, rfl⟩)
    · exact ⟨fun s => s.withRegs (s.regs.hostWrite index.toNat data), by
        simp only [exec, execRegWr]; rw [if_neg h], .regs index data h⟩
  | msgRd index => exact Or.inr (Or.inl ⟨rfl, _, rfl⟩)
  | msgWr index data => exact Or.inr (Or.inr ⟨rfl, _, rfl, .msg index data⟩)
  | ctrRd index => exact Or.inr (Or.inl ⟨rfl, _, rfl⟩)
  | ctrWr index data => exact Or.inr (Or.inr ⟨rfl, _, rfl, .ctr index data⟩)
  | decRd index => exact Or.inr (Or.inl ⟨rfl, _, rfl⟩)
  | decWr index data => exact Or.inr (Or.inr ⟨rfl, _, rfl, .ignored _ (by simp [isCommandWrite])⟩)
  | freqRd index => exact Or.inr (Or.inl ⟨rfl, _, rfl⟩)
  | freqWr index data => exact Or.inr (Or.inr ⟨rfl, _, rfl, .ignored _ (by simp [isCommandWrite])⟩)
  | nodeRd index => exact Or.inr (Or.inl ⟨rfl, _, rfl⟩)
  | nodeWr index data => exact Or.inr (Or.inr ⟨rfl, _, rfl, .ignored _ (by simp [isCommandWrite])⟩)
  | codeRd index => exact Or.inr (Or.inl ⟨rfl, _, rfl⟩)
  | codeWr index data => exact Or.inr (Or.inr ⟨rfl, _, rfl, .ignored _ (by simp [isCommandWrite])⟩)
  | rsvRd index => exact Or.inr (Or.inl ⟨rfl, _, rfl⟩)
  | rsvWr index data => exact Or.inr (Or.inr ⟨rfl, _, rfl, .ignored _ (by simp [isCommandWrite])⟩)

/-- What a transaction does to the state, whatever it is: it returns a word, it is an ignored write while BUSY, or it
has its effect while IDLE. -/
theorem exec_next_cases {i : Instr} {s t : State} (h : exec i s = .next t) :
    (i.isRead = true ∧ ∃ v, t = s.respond v) ∨ (i.isRead = true ∧ s.isBusy = true ∧ t = s.respondDraw) ∨
    (i.isRead = false ∧ s.isBusy = true ∧ t = s.ignoreWrite.withResponse none) ∨
    (i.isRead = false ∧ s.phase = .idle ∧ ∃ u, WriteEffect s i u ∧ t = u.withResponse none) := by
  rcases exec_cases i s with ⟨hr, v, e, _⟩ | ⟨hr, v, e⟩ | ⟨hr, f, e, hw⟩ <;> rw [e] at h <;> cases h
  · exact Or.inl ⟨hr, v, rfl⟩
  · rcases s.isBusy_cases with ⟨hp, hb⟩ | ⟨c, hp, hb⟩
    · exact Or.inl ⟨hr, v, State.hostRead_of_idle hp v⟩
    · exact Or.inr (Or.inl ⟨hr, hb, State.hostRead_of_busy hp v⟩)
  · rcases s.isBusy_cases with ⟨hp, hb⟩ | ⟨c, hp, hb⟩
    · exact Or.inr (Or.inr (Or.inr ⟨hr, hp, f s, hw, State.hostWrite_of_idle hp f⟩))
    · exact Or.inr (Or.inr (Or.inl ⟨hr, hb, State.hostWrite_of_busy hp f⟩))

/-- The instruction a packet decodes to is never a write to REG[0] through REG_WR: that is a CMD row (R82). -/
theorem decodePacket_ne_regWr_zero (p : Packet) (v : Word) : decodePacket p ≠ .regWr 0 v := by
  unfold decodePacket decodeWrite decodeRead decodeRegWrite decodeCommandWrite
  split
  · split <;> (try split) <;> (try split) <;> (try split) <;> (try split) <;> (try split) <;> simp_all
  · split <;> simp

/-- What a step does: the engine's turn, a reset, or a transaction. -/
theorem step_cases {s t : State} (h : step s = .next t) :
    (s.events = [] ∧ t = engineTurn s) ∨
    (∃ rest, s.events = .engine :: rest ∧ t = engineTurn (s.withEvents rest)) ∨
    (∃ rest, s.events = .reset :: rest ∧ t = (s.withEvents rest).resetInput) ∨
    ∃ p rest, s.events = .packet p :: rest ∧ exec (decodePacket p) (s.withEvents rest) = .next t := by
  unfold step at h
  split at h
  · rename_i he; cases h; exact Or.inl ⟨he, rfl⟩
  · rename_i p rest he; exact Or.inr (Or.inr (Or.inr ⟨p, rest, he, h⟩))
  · rename_i rest he; cases h; exact Or.inr (Or.inl ⟨rest, he, rfl⟩)
  · rename_i rest he; cases h; exact Or.inr (Or.inr (Or.inl ⟨rest, he, rfl⟩))

end Sys2Proof.Machine
end

