-- ==== Sys2Proof/Laws/PerInstr.lean ====
section
/-! SUPPORT. Every instruction, as syntax, against its row of opcode_table.json: one lemma per constructor. -/

namespace Sys2Proof.Laws.TableRow

/-- The row's mask and match (opcode_table.json), written out from the table. -/
def row : Instr → Packet × Packet
  | .encode => (0xFFFFFFFFFFFFFFFFF, 0x80000000000000001)
  | .decode => (0xFFFFFFFFFFFFFFFFF, 0x80000000000000002)
  | .validate => (0xFFFFFFFFFFFFFFFFF, 0x80000000000000003)
  | .verify => (0xFFFFFFFFFFFFFFFFF, 0x80000000000000004)
  | .badCommand _ => (0xFFFFFFFFF00000000, 0x80000000000000000)
  | .regRd _ => (0xF0000000000000000, 0x00000000000000000)
  | .regWr _ _ => (0xF0000000000000000, 0x80000000000000000)
  | .msgRd _ => (0xF0000000000000000, 0x10000000000000000)
  | .msgWr _ _ => (0xF0000000000000000, 0x90000000000000000)
  | .ctrRd _ => (0xF0000000000000000, 0x20000000000000000)
  | .ctrWr _ _ => (0xF0000000000000000, 0xA0000000000000000)
  | .decRd _ => (0xF0000000000000000, 0x30000000000000000)
  | .decWr _ _ => (0xF0000000000000000, 0xB0000000000000000)
  | .freqRd _ => (0xF0000000000000000, 0x40000000000000000)
  | .freqWr _ _ => (0xF0000000000000000, 0xC0000000000000000)
  | .nodeRd _ => (0xF0000000000000000, 0x50000000000000000)
  | .nodeWr _ _ => (0xF0000000000000000, 0xD0000000000000000)
  | .codeRd _ => (0xF0000000000000000, 0x60000000000000000)
  | .codeWr _ _ => (0xF0000000000000000, 0xE0000000000000000)
  | .rsvRd _ => (0xF0000000000000000, 0x70000000000000000)
  | .rsvWr _ _ => (0xF0000000000000000, 0xF0000000000000000)

/-- The packet of the instruction has the bits its row fixes (R68, R70), and it is a read exactly when the row's W bit
is 0. -/
def Statement (i : Instr) : Prop :=
  encodePacket i &&& (row i).1 = (row i).2 ∧ (row i).2.getLsbD 67 = !i.isRead

/-- The mask of the HOST rows keeps W and SPACE. -/
theorem make_and_host (w : Bool) (sp : BitVec 3) (ix d : Word) :
    Packet.make w sp ix d &&& 0xF0000000000000000 = Packet.make w sp 0 0 := by
  apply BitVec.eq_of_getLsbD_eq
  intro i hi
  have hm : ∀ j : Fin 68, (0xF0000000000000000 : Packet).getLsbD j.val = decide (64 ≤ j.val) := by decide
  rw [BitVec.getLsbD_and, Packet.make_getLsbD, Packet.make_getLsbD, hm ⟨i, hi⟩]
  by_cases h : 64 ≤ i
  · simp [h, -BitVec.getLsbD_eq_getElem, BitVec.getLsbD_of_ge ix (i - 32) (by omega), BitVec.getLsbD_of_ge d i (by omega)]
  · simp [h, show i ≠ 67 by omega]

/-- The mask of the BAD_COMMAND row keeps W, SPACE and INDEX. -/
theorem make_and_cmd (w : Bool) (sp : BitVec 3) (ix d : Word) :
    Packet.make w sp ix d &&& 0xFFFFFFFFF00000000 = Packet.make w sp ix 0 := by
  apply BitVec.eq_of_getLsbD_eq
  intro i hi
  have hm : ∀ j : Fin 68, (0xFFFFFFFFF00000000 : Packet).getLsbD j.val = decide (32 ≤ j.val) := by decide
  rw [BitVec.getLsbD_and, Packet.make_getLsbD, Packet.make_getLsbD, hm ⟨i, hi⟩]
  by_cases h : 32 ≤ i
  · simp [h, -BitVec.getLsbD_eq_getElem]
  · simp [h, show i ≠ 67 by omega, show ¬ 64 ≤ i by omega]

theorem encode : Statement .encode := ⟨by decide, by decide⟩

theorem decode : Statement .decode := ⟨by decide, by decide⟩

theorem validate : Statement .validate := ⟨by decide, by decide⟩

theorem verify : Statement .verify := ⟨by decide, by decide⟩

theorem badCommand (data : Word) : Statement (.badCommand data) :=
  ⟨(make_and_cmd _ _ _ _).trans (by rfl), by simp only [row, Instr.isRead]; decide⟩

theorem regRd (index : Word) : Statement (.regRd index) :=
  ⟨(make_and_host _ _ _ _).trans (by rfl), by simp only [row, Instr.isRead]; decide⟩

theorem regWr (index : Word) (data : Word) : Statement (.regWr index data) :=
  ⟨(make_and_host _ _ _ _).trans (by rfl), by simp only [row, Instr.isRead]; decide⟩

theorem msgRd (index : Word) : Statement (.msgRd index) :=
  ⟨(make_and_host _ _ _ _).trans (by rfl), by simp only [row, Instr.isRead]; decide⟩

theorem msgWr (index : Word) (data : Word) : Statement (.msgWr index data) :=
  ⟨(make_and_host _ _ _ _).trans (by rfl), by simp only [row, Instr.isRead]; decide⟩

theorem ctrRd (index : Word) : Statement (.ctrRd index) :=
  ⟨(make_and_host _ _ _ _).trans (by rfl), by simp only [row, Instr.isRead]; decide⟩

theorem ctrWr (index : Word) (data : Word) : Statement (.ctrWr index data) :=
  ⟨(make_and_host _ _ _ _).trans (by rfl), by simp only [row, Instr.isRead]; decide⟩

theorem decRd (index : Word) : Statement (.decRd index) :=
  ⟨(make_and_host _ _ _ _).trans (by rfl), by simp only [row, Instr.isRead]; decide⟩

theorem decWr (index : Word) (data : Word) : Statement (.decWr index data) :=
  ⟨(make_and_host _ _ _ _).trans (by rfl), by simp only [row, Instr.isRead]; decide⟩

theorem freqRd (index : Word) : Statement (.freqRd index) :=
  ⟨(make_and_host _ _ _ _).trans (by rfl), by simp only [row, Instr.isRead]; decide⟩

theorem freqWr (index : Word) (data : Word) : Statement (.freqWr index data) :=
  ⟨(make_and_host _ _ _ _).trans (by rfl), by simp only [row, Instr.isRead]; decide⟩

theorem nodeRd (index : Word) : Statement (.nodeRd index) :=
  ⟨(make_and_host _ _ _ _).trans (by rfl), by simp only [row, Instr.isRead]; decide⟩

theorem nodeWr (index : Word) (data : Word) : Statement (.nodeWr index data) :=
  ⟨(make_and_host _ _ _ _).trans (by rfl), by simp only [row, Instr.isRead]; decide⟩

theorem codeRd (index : Word) : Statement (.codeRd index) :=
  ⟨(make_and_host _ _ _ _).trans (by rfl), by simp only [row, Instr.isRead]; decide⟩

theorem codeWr (index : Word) (data : Word) : Statement (.codeWr index data) :=
  ⟨(make_and_host _ _ _ _).trans (by rfl), by simp only [row, Instr.isRead]; decide⟩

theorem rsvRd (index : Word) : Statement (.rsvRd index) :=
  ⟨(make_and_host _ _ _ _).trans (by rfl), by simp only [row, Instr.isRead]; decide⟩

theorem rsvWr (index : Word) (data : Word) : Statement (.rsvWr index data) :=
  ⟨(make_and_host _ _ _ _).trans (by rfl), by simp only [row, Instr.isRead]; decide⟩

end Sys2Proof.Laws.TableRow
end

