-- ==== Sys2Proof/Tests/Slice0.lean ====
section
/-! SUPPORT. Tests: expected values come from 95_test_vectors.md (the row is named at each test) or are worked out from
the rule named; and a witness for every statement that has hypotheses, `witness_<statement>`. -/

namespace Sys2Proof.Tests

open Sys2Proof.Machine

/-! ### Small states -/

/-- An IDLE machine after the host has stored `msg` in MSG and a file `ctr` in CTR. -/
def holding (caps : Caps) (msg ctr : List Byte) : State :=
  { State.powerUp caps with
    regs := { Regs.zero with
      msgLen := BitVec.ofNat 32 msg.length, ctrLen := BitVec.ofNat 32 ctr.length, ctrPresent := 1 }
    mem := { (State.powerUp caps).mem with
      msg := (Buffer.unspecified 0).store 0 msg, ctr := (Buffer.unspecified 1).store 0 ctr } }

/-- The default parameters of 95_test_vectors.md. -/
def caps64 : Caps := ⟨64, 64, 64⟩

/-- V-EN5's container of "AB". -/
def ctrAB : List Byte := [0, 0, 0, 2, 0x41, 0, 1, 0x42, 0, 1, 6, 0x40]

/-- V-EN7's container of "ABRACADABRA". -/
def ctrABRA : List Byte :=
  [0, 0, 0, 5, 0x41, 0, 5, 0x42, 0, 2, 0x52, 0, 2, 0x43, 0, 1, 0x44, 0, 1, 1, 0x6E, 0x8A, 0xDC]

/-- "ABRACADABRA". -/
def msgABRA : List Byte := [0x41, 0x42, 0x52, 0x41, 0x43, 0x41, 0x44, 0x41, 0x42, 0x52, 0x41]

/-- "AB" in MSG, its container in CTR, IDLE. -/
def ab : State := holding caps64 [0x41, 0x42] ctrAB

/-- The same machine while it runs `c`. -/
def abRuns (c : Command) : State := ab.startCommand c

/-- DECODE running on a file. -/
def decoding (ctr : List Byte) : State := (holding caps64 [] ctr).startCommand .decode

/-- The state one step later. -/
def next (s : State) : State :=
  match step s with
  | .next t => t
  | .fault _ => s
  | .refused _ => s

/-- The state after one transaction. -/
def after (i : Instr) (s : State) : State := next (s.withEvents [.packet (encodePacket i)])

/-- The first `n` bytes of a buffer. -/
def bytes (b : Buffer) (n : Nat) : List Byte := (List.range n).map b.get

/-- The first `n` words of a table. -/
def words (t : WordTable) (n : Nat) : List Word := (List.range n).map (WordTable.get t)

/-- R68's packet, field beside field: W, SPACE, INDEX, DATA. -/
def fields (w : BitVec 1) (space : BitVec 3) (index data : BitVec 32) : Packet := w ++ space ++ index ++ data

/-! ### Well-formedness -/

/-- Each check refuses its ill-formed term: INDEX 0 of REG_WR, and the four command words of BAD_COMMAND (R70). -/
theorem test_illFormed_refused :
    (Instr.regWr 0 7).wellFormed = false ∧ (Instr.badCommand 1).wellFormed = false ∧
      (Instr.badCommand 2).wellFormed = false ∧ (Instr.badCommand 3).wellFormed = false ∧
      (Instr.badCommand 4).wellFormed = false := by decide

/-- Their neighbours are accepted. -/
theorem test_wellFormed_accepted :
    (Instr.regWr 1 7).wellFormed = true ∧ (Instr.badCommand 0).wellFormed = true ∧
      (Instr.badCommand 5).wellFormed = true ∧ (Instr.badCommand 0x101).wellFormed = true := by decide

/-! ### Decoding: words written out from R68 and R70 -/

/-- Bit by bit: W = 1, SPACE = 000, INDEX = 0, DATA = 1 is ENCODE; W = 1, SPACE = 001, INDEX = 3, DATA = 0x141 is
MSG_WR (30_encoding.md R68's second example). -/
theorem test_decode_bits :
    decodePacket 0b10000000000000000000000000000000000000000000000000000000000000000001 = .encode ∧
      decodePacket 0b10010000000000000000000000000000001100000000000000000000000101000001 = .msgWr 3 0x141 := by
  decide

theorem test_decode_cmd :
    decodePacket (fields 1 0b000 0 1) = .encode ∧ decodePacket (fields 1 0b000 0 2) = .decode ∧
      decodePacket (fields 1 0b000 0 3) = .validate ∧ decodePacket (fields 1 0b000 0 4) = .verify ∧
      decodePacket (fields 1 0b000 0 0x80000001) = .badCommand 0x80000001 := by decide

theorem test_decode_reads :
    decodePacket (fields 0 0b000 0xFFFFFFFF 0) = .regRd 0xFFFFFFFF ∧ decodePacket (fields 0 0b001 9 0) = .msgRd 9 ∧
      decodePacket (fields 0 0b010 9 0) = .ctrRd 9 ∧ decodePacket (fields 0 0b011 9 0) = .decRd 9 ∧
      decodePacket (fields 0 0b100 0x41 0) = .freqRd 0x41 ∧ decodePacket (fields 0 0b101 1021 0) = .nodeRd 1021 ∧
      decodePacket (fields 0 0b110 0x411 0) = .codeRd 0x411 ∧
      decodePacket (fields 0 0b111 5 0xFFFFFFFF) = .rsvRd 5 := by decide

theorem test_decode_writes :
    decodePacket (fields 1 0b000 3 1) = .regWr 3 1 ∧ decodePacket (fields 1 0b001 3 1) = .msgWr 3 1 ∧
      decodePacket (fields 1 0b010 3 1) = .ctrWr 3 1 ∧ decodePacket (fields 1 0b011 3 1) = .decWr 3 1 ∧
      decodePacket (fields 1 0b100 3 1) = .freqWr 3 1 ∧ decodePacket (fields 1 0b101 3 1) = .nodeWr 3 1 ∧
      decodePacket (fields 1 0b110 3 1) = .codeWr 3 1 ∧ decodePacket (fields 1 0b111 3 1) = .rsvWr 3 1 := by decide

/-- A table word is a packet up to bit 67 (log 9); the host's word is what the next step runs. -/
theorem test_tableWord :
    decodeTableWord 72 0x9_00000003_00000141 = some (.msgWr 3 0x141) ∧ decodeTableWord 72 (2 ^ 68) = none ∧
      (next (State.reset.withFetchWord 72 0x8_00000000_00000101)).regs.status = 0x62 := by decide

/-! ### Commands -/

/-- V-EN7: STATUS, the container, and CTR_LEN, N_SYMS, ROOT, ENC_BITS, DISCARD, PAYLOAD_OFF, TOTAL. -/
theorem test_encode_container :
    let t := next ((holding caps64 msgABRA []).startCommand .encode)
    t.regs.status = 2 ∧ bytes t.mem.ctr 23 = ctrABRA ∧ t.regs.ctrPresent = 1 ∧
      [t.regs.ctrLen, t.regs.nSyms, t.regs.root, t.regs.encBits, t.regs.discard, t.regs.payloadOff, t.regs.total] =
        [23, 5, 8, 23, 1, 20, 11] := by decide

/-- V-TB5 (the tie-breaks) and V-CG3 (the codes of A and R) after the same ENCODE. -/
theorem test_encode_tables :
    let t := next ((holding caps64 msgABRA []).startCommand .encode)
    words t.mem.node 20 =
        [5, 0x81040000, 2, 0x81080000, 2, 0x81480000, 1, 0x810C0000, 1, 0x81100000, 2, 0xC0000803, 4, 0xC0000401,
          6, 0xC0000C05, 11, 0xC0000E00, 0, 0] ∧
      t.mem.code.get 0x410 = 1 ∧ t.mem.code.get 0x411 = 0 ∧ t.mem.code.get 0x520 = 3 ∧
      t.mem.code.get 0x521 = 0xE0000000 ∧ t.mem.freq.get 0x41 = 5 := by decide

/-- V-DC3: the message comes back, with DEC_LEN, DEC_BITS, DISCARD, N_SYMS, ROOT, TOTAL, PAYLOAD_OFF. -/
theorem test_decode_message :
    let t := next (decoding ctrABRA)
    t.regs.status = 2 ∧ bytes t.mem.dec 11 = msgABRA ∧
      [t.regs.decLen, t.regs.decBits, t.regs.discard, t.regs.nSyms, t.regs.root, t.regs.total, t.regs.payloadOff] =
        [11, 23, 1, 5, 8, 11, 20] := by decide

/-- V-DC11 BAD_BIT, V-DC14 a symbol beyond TOTAL, V-DC15 WALK_INCOMPLETE, V-DC17 padding bits ignored. -/
theorem test_decode_payloads :
    (next (decoding [0, 0, 0, 1, 0x41, 0, 2, 6, 0x40])).regs.status = 0x1432 ∧
      (next (decoding [0, 0, 0, 2, 0x41, 0, 1, 0x42, 0, 1, 5, 0x60])).regs.status = 0x1632 ∧
      (next (decoding [0, 0, 0, 3, 0x41, 0, 1, 0x42, 0, 1, 0x43, 0, 1, 7, 0x80])).regs.status = 0x1532 ∧
      bytes (next (decoding [0, 0, 0, 2, 0x41, 0, 1, 0x42, 0, 1, 6, 0x7F])).mem.dec 2 = [0x41, 0x42] := by decide

/-- V-VA8: one symbol, no payload. -/
theorem test_validate_noPayload :
    let t := next ((holding caps64 [] [0, 0, 0, 1, 0x41, 0, 1, 7]).startCommand .validate)
    [t.regs.status, t.regs.valResult, t.regs.valSymcount, t.regs.valDiscard, t.regs.valPayload] =
      [2, 0x436, 1, 7, 0] := by decide

/-- V-VA14: discarded_bits 8 is a content failure, which VALIDATE does not see. -/
theorem test_validate_badDiscard :
    let t := next ((holding caps64 [] [0, 0, 0, 1, 0x41, 0, 1, 8, 0]).startCommand .validate)
    [t.regs.status, t.regs.valResult, t.regs.valSymcount, t.regs.valDiscard, t.regs.valPayload] =
      [2, 7, 1, 8, 1] := by decide

/-- V-VE2: the original differs at index 1. -/
theorem test_verify_mismatch :
    let t := next ((holding caps64 [0x41, 0x43] ctrAB).startCommand .verify)
    [t.regs.status, t.regs.verResult, t.regs.verMismatch, t.regs.decLen] = [2, 4, 1, 2] := by decide

/-- V-VE9: the decode fails; VERIFY reports it and raises nothing. -/
theorem test_verify_undecoded :
    let t := next
      ((holding caps64 (List.replicate 12 0x41) [0, 0, 0, 1, 0x41, 0, 0x0C, 4, 0]).startCommand .verify)
    [t.regs.status, t.regs.verResult, t.regs.verMismatch, t.regs.decLen] = [2, 0x1630, 0xFFFFFFFF, 0] := by decide

/-- V-BC7: the whole word is decoded, not its low byte. -/
theorem test_badCommand : (after (.badCommand 0x101) ab).regs.status = 0x62 := by decide

/-! ### The host port -/

/-- V-HP4, V-HP5, V-HP6: what the writable registers store, and a write to STATUS that is ignored. -/
theorem test_regWr :
    (after (.regWr 4 0xFFFFFFFF) State.reset).readReg 4 = 1 ∧
      (after (.regWr 2 0xFFFFFFFF) State.reset).readReg 2 = 0xFFFFFFFF ∧
      (after (.regWr 1 0xFF) State.reset).readReg 1 = 0 := by decide

/-- V-HP1, V-HP3, V-HP7: CMD reads 0, CAP_MSG the parameter, a register beyond the map 0. -/
theorem test_regRd :
    (after (.regRd 0) State.reset).response = some 0 ∧ (after (.regRd 19) State.reset).response = some 64 ∧
      (after (.regRd 22) State.reset).response = some 0 ∧
      (after (.regRd 0xFFFFFFFF) State.reset).response = some 0 := by decide

/-- R84, R86, R69: DATA[7:0] is stored; the write at the capacity is ignored (R53). -/
theorem test_byteWr :
    (after (.msgWr 63 0x141) State.reset).mem.msg.get 63 = 0x41 ∧
      (after (.ctrWr 63 0x1FF) State.reset).mem.ctr.get 63 = 0xFF ∧
      (after (.msgWr 64 0x41) State.reset).mem = State.reset.mem := by decide

/-- R83, R85, R87: a byte is zero-extended; the read at the capacity gives 0. -/
theorem test_byteRd :
    (after (.msgRd 1) ab).response = some 0x42 ∧ (after (.ctrRd 11) ab).response = some 0x40 ∧
      (after (.decRd 0) (next (abRuns .decode))).response = some 0x41 ∧
      (after (.msgRd 64) ab).response = some 0 ∧ (after (.decRd 64) ab).response = some 0 := by decide

/-- R89, R91, R93, R95 after the ENCODE of "AB" (V-TB2, V-CG4); the last index of each table and the one beyond. -/
theorem test_tableRd :
    let t := next (abRuns .encode)
    (after (.freqRd 0x42) t).response = some 1 ∧ (after (.nodeRd 5) t).response = some 0xC0000200 ∧
      (after (.codeRd 0x421) t).response = some 0x80000000 ∧ (after (.rsvRd 0) t).response = some 0 ∧
      (after (.freqRd 256) t).response = some 0 ∧ (after (.nodeRd 1022) t).response = some 0 ∧
      (after (.codeRd 4096) t).response = some 0 := by decide

/-- R88, R90, R92, R94, R96: ignored while IDLE. -/
theorem test_readOnlyWr :
    let t := next (abRuns .encode)
    (after (.decWr 0 7) t).mem = t.mem ∧ (after (.freqWr 0x41 7) t).mem = t.mem ∧
      (after (.nodeWr 0 7) t).mem = t.mem ∧ (after (.codeWr 0x410 7) t).mem = t.mem ∧
      (after (.rsvWr 0 7) t).mem = t.mem ∧ (after (.decWr 0 7) t).regs = t.regs := by decide

/-- Program P6's second half: BUSY, then BUSY and WIGN after a write, then DONE and WIGN, with MSG_LEN kept. -/
theorem test_writeWhileBusy :
    (abRuns .encode).regs.status = 1 ∧ (after (.regWr 2 1) (abRuns .encode)).regs.status = 5 ∧
      (next (after (.regWr 2 1) (abRuns .encode))).regs.status = 6 ∧
      (next (after (.regWr 2 1) (abRuns .encode))).regs.msgLen = 2 := by decide

/-- R138: a reset while ENCODE runs, and one while IDLE. -/
theorem test_reset :
    (next ((abRuns .encode).withEvents [.reset])).phase = .idle ∧
      (next ((abRuns .encode).withEvents [.reset])).regs = Regs.zero ∧
      (next ((abRuns .encode).withEvents [.reset])).mem.ctr.cells = [] ∧
      bytes (next (ab.withEvents [.reset])).mem.ctr 12 = ctrAB := by decide

/-! ### Witnesses: a state and operands that meet a statement's hypotheses together -/

/-- The host's next transaction is `i`. -/
def waiting (i : Instr) (s : State) : State := s.withEvents [.packet (encodePacket i)]

theorem witness_DecodeEncodeRoundTrip :
    (Instr.badCommand 5).wellFormed = true ∧ (Instr.regWr 1 0).wellFormed = true ∧
      (Instr.rsvWr 0xFFFFFFFF 0xFFFFFFFF).wellFormed = true := by decide

theorem witness_CommandWordSelects :
    (0 : Word) ≠ 1 ∧ (0 : Word) ≠ 2 ∧ (0 : Word) ≠ 3 ∧ (0 : Word) ≠ 4 ∧ (5 : Word) ≠ 4 := by decide

theorem witness_StepRunsDecodedPacket :
    (waiting (.msgWr 3 1) ab).events = .packet 0x90000000300000001 :: [] ∧
      decodeTableWord 72 0x90000000300000001 = some (.msgWr 3 1) := by decide

theorem witness_StepTakesEngineTurns :
    (((abRuns .verify).withEvents [.engine]).events = .engine :: [] ∧ (abRuns .verify).phase = .busy .verify) ∧
      ((ab.withEvents [.engine]).events = .engine :: [] ∧ ab.phase = .idle) ∧
      (abRuns .verify).events = [] ∧ ab.events = [] := by decide

theorem witness_ResetClearsTheMachine :
    (ab.withEvents [.reset]).events = .reset :: [] ∧ (ab.withEvents [.reset]).phase = .idle ∧
      ((abRuns .decode).withEvents [.reset]).events = .reset :: [] ∧
      ((abRuns .decode).withEvents [.reset]).phase = .busy .decode := by decide

/-- Both values of WIGN: not set before the write, set after it; and a clearing CMD write. -/
theorem witness_BusyWriteOnlySetsWign :
    (abRuns .encode).phase = .busy .encode ∧ (Instr.regWr 2 1).isRead = false ∧
      statusWign (abRuns .encode).regs.status = false ∧
      step (waiting (.regWr 2 1) (abRuns .encode)) = .next (after (.regWr 2 1) (abRuns .encode)) ∧
      statusWign (after (.regWr 2 1) (abRuns .encode)).regs.status = true ∧
      step (after (.regWr 2 1) (abRuns .encode)) = .next (next (after (.regWr 2 1) (abRuns .encode))) :=
  ⟨rfl, rfl, by decide, rfl, by decide, rfl⟩

/-- The exact reads' neighbours 0, 2, 18 and 22 are draws. -/
theorem witness_ReadsWhileBusy :
    (abRuns .encode).phase = .busy .encode ∧ (Instr.regRd 18).isRead = true ∧ Instr.regRd 18 ≠ .regRd 1 ∧
      Instr.regRd 18 ≠ .regRd 19 ∧ Instr.regRd 18 ≠ .regRd 20 ∧ Instr.regRd 18 ≠ .regRd 21 ∧
      Instr.regRd 22 ≠ .regRd 21 ∧ Instr.regRd 0 ≠ .regRd 1 ∧ Instr.regRd 2 ≠ .regRd 1 ∧
      (Instr.msgRd 1).isRead = true ∧ Instr.msgRd 1 ≠ .regRd 1 := by decide

theorem witness_ReadsWhileBusy_status : StatusTruthful (abRuns .encode) := ⟨false, false, none, by decide⟩

/-- The last register of the map, the first reserved one, the last index. -/
theorem witness_RegReadReturnsRegister :
    ab.phase = .idle ∧ 22 ≤ (22 : Word).toNat ∧ 22 ≤ (0xFFFFFFFF : Word).toNat ∧
      (after (.regRd 21) ab).response = some 64 ∧ (after (.regRd 22) ab).response = some 0 ∧
      (after (.regRd 18) (next ((holding caps64 [0x41] ctrAB).startCommand .verify))).response = some 1 := by decide

theorem witness_ReservedRegisters :
    ab.phase = .idle ∧ (abRuns .encode).phase = .busy .encode ∧ 22 ≤ (22 : Word).toNat ∧
      22 ≤ (0xFFFFFFFF : Word).toNat ∧ (after (.regWr 22 7) ab).regs = ab.regs := by decide

theorem witness_CapacitiesAreConstant :
    step (abRuns .encode) = .next (next (abRuns .encode)) ∧ ab.phase = .idle ∧
      (after (.regWr 19 7) ab).caps = caps64 := ⟨rfl, rfl, rfl⟩

/-- The stored registers 2 and 4 and their neighbours 1 and 5. -/
theorem witness_RegWriteStores :
    ab.phase = .idle ∧ (2 : Word) ≠ 0 ∧ (after (.regWr 2 9) ab).regs.msgLen = 9 ∧
      (after (.regWr 3 9) ab).regs.ctrLen = 9 ∧ (after (.regWr 4 2) ab).regs.ctrPresent = 0 ∧
      ((1 : Word) ≠ 0 ∧ (1 : Word) ≠ 2 ∧ (1 : Word) ≠ 3 ∧ (1 : Word) ≠ 4 ∧ (after (.regWr 1 9) ab).regs = ab.regs) ∧
      ((5 : Word) ≠ 0 ∧ (5 : Word) ≠ 2 ∧ (5 : Word) ≠ 3 ∧ (5 : Word) ≠ 4 ∧ (after (.regWr 5 9) ab).regs = ab.regs) := by
  decide

theorem witness_ByteBufferReads :
    ab.phase = .idle ∧ (63 : Word).toNat < ab.caps.msg ∧ ¬ (64 : Word).toNat < ab.caps.msg := by decide

theorem witness_ByteBufferWrites :
    ab.phase = .idle ∧ (abRuns .encode).phase = .busy .encode ∧ (63 : Word).toNat < ab.caps.ctr ∧
      ¬ (64 : Word).toNat < ab.caps.ctr := by decide

theorem witness_WriteThenRead :
    ab.phase = .idle ∧ exec (.msgWr 63 0x141) ab = .next ((after (.msgWr 63 0x141) ab).withEvents []) ∧
      exec (.ctrWr 63 0x141) ab = .next ((after (.ctrWr 63 0x141) ab).withEvents []) ∧
      (63 : Word).toNat < ab.caps.msg ∧ (63 : Word).toNat < ab.caps.ctr ∧ (0 : Word) ≠ 63 :=
  ⟨rfl, rfl, rfl, by decide, by decide, by decide⟩

theorem witness_TableReads :
    ab.phase = .idle ∧ (255 : Word).toNat < 256 ∧ ¬ (256 : Word).toNat < 256 ∧ (1021 : Word).toNat < 1022 ∧
      ¬ (1022 : Word).toNat < 1022 ∧ (4095 : Word).toNat < 4096 ∧ ¬ (4096 : Word).toNat < 4096 := by decide

theorem witness_ReadOnlySpacesIgnoreWrites :
    (Instr.nodeWr 0 7 = .decWr 0 7 ∨ Instr.nodeWr 0 7 = .freqWr 0 7 ∨ Instr.nodeWr 0 7 = .nodeWr 0 7 ∨
        Instr.nodeWr 0 7 = .codeWr 0 7 ∨ Instr.nodeWr 0 7 = .rsvWr 0 7) ∧
      ab.phase = .idle ∧ (abRuns .decode).phase = .busy .decode := by decide

theorem witness_ReadsAndRepeatedWritesAreHarmless :
    (Instr.msgRd 0).isRead = true ∧ exec (.msgRd 0) ab = .next { ab with response := some 0x41 } ∧
      (Instr.msgWr 0 7).isRead = false ∧ exec (.msgWr 0 7) ab = .next ((after (.msgWr 0 7) ab).withEvents []) :=
  ⟨rfl, rfl, rfl, rfl⟩

theorem witness_ReadsAndRepeatedWritesAreHarmless_write : ¬ isCommandWrite (.msgWr 0 7) := by simp [isCommandWrite]

theorem witness_CommandStart : ab.phase = .idle ∧ (after (startingWrite .verify) ab).phase = .busy .verify := by decide

/-- The words on both sides of the four commands. -/
theorem witness_BadCommandReports :
    ((0 : Word) ≠ 1 ∧ (0 : Word) ≠ 2 ∧ (0 : Word) ≠ 3 ∧ (0 : Word) ≠ 4) ∧
      ((5 : Word) ≠ 1 ∧ (5 : Word) ≠ 2 ∧ (5 : Word) ≠ 3 ∧ (5 : Word) ≠ 4) ∧ ab.phase = .idle ∧
      (abRuns .encode).phase = .busy .encode ∧ (after (.badCommand 0) ab).regs.status = 0x62 ∧
      (after (.badCommand 5) (abRuns .encode)).regs.status = 5 := by decide

/-- A success and a failure of ENCODE, a success and a failure of DECODE. -/
theorem witness_CompletionSetsStatus :
    (abRuns .encode).phase = .busy .encode ∧ (∃ r, encodeBody (abRuns .encode) = .ok r) ∧
      (∃ x, encodeBody (decoding ctrAB) = .error x) ∧ (decoding ctrAB).phase = .busy .decode ∧
      (∃ r, decodeBody (decoding ctrAB) = .ok r) ∧ ∃ f, decodeBody (decoding []) = .error f :=
  ⟨rfl, ⟨_, rfl⟩, ⟨_, rfl⟩, rfl, ⟨_, rfl⟩, ⟨_, rfl⟩⟩

/-- V-FA4: B first, in first-seen order. -/
theorem witness_FrequencyTableCounts :
    ([0x42, 0x42, 0x42, 0x41] : List Byte) ≠ [] ∧
      frequencyAnalyze [0x42, 0x42, 0x42, 0x41] = [⟨0x42, 3⟩, ⟨0x41, 1⟩] := by decide

theorem witness_TreeOfATable : frequencyAnalyze msgABRA ≠ [] := by decide

/-- Tables of five entries and of one. -/
theorem witness_CodesArePrefixFree :
    (∃ b, treeBuild (frequencyAnalyze msgABRA) = some b) ∧
      ((frequencyAnalyze msgABRA).map Entry.symbol).Nodup ∧ 2 ≤ (frequencyAnalyze msgABRA).length ∧
      (∃ b, treeBuild [⟨0x41, 4⟩] = some b) ∧ (([⟨0x41, 4⟩] : FreqTable).map Entry.symbol).Nodup :=
  ⟨⟨_, rfl⟩, by decide, by decide, ⟨_, rfl⟩, by decide⟩

theorem witness_PayloadLength : ∃ b, treeBuild (frequencyAnalyze msgABRA) = some b := ⟨_, rfl⟩

/-- V-PK10: the last d bits of the whole sequence are dropped, with the largest d. -/
theorem witness_UnpackingBitOrder :
    ([0, 0x80] : List Byte) ≠ [] ∧ 7 ≤ 7 ∧ (8 : Nat) < 8 * ([0, 0x80] : List Byte).length - 7 ∧
      bitUnpack [0, 0x80] 7 = [false, false, false, false, false, false, false, false, true] := by decide

/-! The clauses of EncodeErrorsInOrder, each with the value next to it: V-EN3, V-EN20, V-EN18 and V-EN19, V-EN17. -/

theorem witness_EncodeErrorsInOrder_empty :
    ((holding caps64 [] []).startCommand .encode).phase = .busy .encode ∧
      ((holding caps64 [] []).startCommand .encode).regs.msgLen = 0 ∧
      (next ((holding caps64 [] []).startCommand .encode)).regs.status = 0x12 := by decide

theorem witness_EncodeErrorsInOrder_msg :
    let s := (holding ⟨2, 64, 64⟩ [0x41, 0x42, 0x43] []).startCommand .encode
    s.phase = .busy .encode ∧ s.regs.msgLen ≠ 0 ∧ s.caps.msg < s.regs.msgLen.toNat ∧
      (next s).regs.status = 0x152 := by decide

theorem count_le_of_small {m : List Byte} (h : m.length ≤ 65535) (x : Byte) : m.count x ≤ 65535 :=
  Nat.le_trans List.count_le_length h

theorem witness_EncodeErrorsInOrder_ctr :
    let s := (holding ⟨64, 11, 64⟩ [0x41, 0x42] []).startCommand .encode
    s.phase = .busy .encode ∧ s.regs.msgLen ≠ 0 ∧ s.regs.msgLen.toNat ≤ s.caps.msg ∧
      (∀ x ∈ s.message s.regs.msgLen.toNat, (s.message s.regs.msgLen.toNat).count x ≤ 65535) ∧
      s.caps.ctr < encodedSize (s.message s.regs.msgLen.toNat) ∧ (next s).regs.status = 0x252 ∧
      (next ((holding ⟨64, 12, 64⟩ [0x41, 0x42] []).startCommand .encode)).regs.status = 2 :=
  ⟨by decide, by decide, by decide, fun x _ => count_le_of_small (by decide) x, by decide, by decide, by decide⟩

/-- `n` times "A", for an `n` that is too many: the message, whatever `n` is. -/
theorem overflowing_message (n : Nat) (hn : n < 2 ^ 32) (h : 65535 < n) :
    let s := (holding ⟨n, 64, 64⟩ (List.replicate n 0x41) []).startCommand .encode
    let m := s.message s.regs.msgLen.toNat
    s.phase = .busy .encode ∧ s.regs.msgLen ≠ 0 ∧ s.regs.msgLen.toNat ≤ s.caps.msg ∧ (0x41 : Byte) ∈ m ∧
      65535 < m.count 0x41 ∧ ∀ y ∈ m, 65535 < m.count y → m.idxOf 0x41 ≤ m.idxOf y := by
  intro s m
  have hl : s.regs.msgLen = BitVec.ofNat 32 n := by
    show BitVec.ofNat 32 (List.replicate n _).length = _
    rw [List.length_replicate]
  have hn' : s.regs.msgLen.toNat = n := by rw [hl, BitVec.toNat_ofNat]; exact Nat.mod_eq_of_lt hn
  have hm : m = List.replicate n 0x41 := by
    show s.message s.regs.msgLen.toNat = _
    rw [hn']
    apply List.ext_getElem (by simp [State.message])
    intro i h1 h2
    simp only [State.message, List.getElem_map, List.getElem_range, List.getElem_replicate]
    show ((Buffer.unspecified 0).store 0 (List.replicate n 0x41)).get i = 0x41
    rw [Buffer.get_store_zero]
    simp at h2
    simp [List.getD, h2]
  rw [hm]
  refine ⟨rfl, fun h0 => by rw [h0] at hn'; simp at hn'; omega, by rw [hn']; exact Nat.le_refl n,
    List.mem_replicate.2 ⟨by omega, rfl⟩, by rw [List.count_replicate_self]; exact h, fun y hy _ => ?_⟩
  rw [(List.mem_replicate.1 hy).2]

/-- V-EN17: 65536 times "A". -/
theorem witness_EncodeErrorsInOrder_overflow :
    let s := (holding ⟨65536, 64, 64⟩ (List.replicate 65536 0x41) []).startCommand .encode
    let m := s.message s.regs.msgLen.toNat
    s.phase = .busy .encode ∧ s.regs.msgLen ≠ 0 ∧ s.regs.msgLen.toNat ≤ s.caps.msg ∧ (0x41 : Byte) ∈ m ∧
      65535 < m.count 0x41 ∧ ∀ y ∈ m, 65535 < m.count y → m.idxOf 0x41 ≤ m.idxOf y :=
  overflowing_message 65536 (by decide) (by decide)

theorem witness_EncodeCommits :
    ab.phase = .idle ∧ ab.regs.msgLen ≠ 0 ∧ ab.regs.msgLen.toNat ≤ ab.caps.msg ∧
      (∀ x, (ab.message ab.regs.msgLen.toNat).count x ≤ 65535) ∧
      encodedSize (ab.message ab.regs.msgLen.toNat) ≤ ab.caps.ctr :=
  ⟨by decide, by decide, by decide, count_le_of_small (by decide), by decide⟩

theorem witness_EncodeFillsTables :
    (∃ r, encodeBody (abRuns .encode) = .ok r) ∧ (abRuns .encode).phase = .busy .encode ∧
      ResultsClearWhileBusy (abRuns .encode) :=
  ⟨⟨_, rfl⟩, rfl, fun _ => ⟨rfl, rfl⟩⟩

theorem witness_EncodeWritesContainer :
    (abRuns .encode).caps.Legal ∧ (∃ r, encodeBody (abRuns .encode) = .ok r) ∧
      (abRuns .encode).phase = .busy .encode :=
  ⟨by decide, ⟨_, rfl⟩, rfl⟩

/-- Two machines that differ in MSG beyond MSG_LEN, in CTR and in DEC_CAP. -/
theorem witness_EncodeIsDeterministic :
    let t := { holding ⟨64, 64, 8⟩ [0x41, 0x42, 0x43] [] with regs := { Regs.zero with msgLen := 2 } }
    ab.regs.msgLen = t.regs.msgLen ∧ ab.caps.msg = t.caps.msg ∧ ab.caps.ctr = t.caps.ctr ∧
      ∀ i, i < ab.regs.msgLen.toNat → ab.mem.msg.get i = t.mem.msg.get i := by decide

/-! The clauses of DecodeHeaderErrorsInOrder: V-ST1 to V-ST11 and V-DC5 to V-DC10, V-DC20. -/

/-- The statement's `bad`. -/
abbrev badEntry (ctr : Nat → Byte) (i : Nat) : Prop :=
  be16 ctr (5 + 3 * i) = 0 ∨ ∃ j < i, ctr (4 + 3 * j) = ctr (4 + 3 * i)

/-- The statement's `present`, with CTR_LEN within CTR_CAP. -/
abbrev fileFits (s : State) : Prop :=
  s.phase = .busy .decode ∧ s.regs.ctrPresent.getLsbD 0 = true ∧ s.regs.ctrLen.toNat ≤ s.caps.ctr

/-- V-ST1; V-ST11: 23 bytes with CTR_CAP = 22. -/
theorem witness_DecodeHeaderErrorsInOrder_file :
    let absent := State.reset.startCommand .decode
    let long := (holding ⟨64, 22, 64⟩ [] ctrABRA).startCommand .decode
    (absent.phase = .busy .decode ∧ ¬ absent.regs.ctrPresent.getLsbD 0 = true ∧ (next absent).regs.status = 0x22) ∧
      long.phase = .busy .decode ∧ long.regs.ctrPresent.getLsbD 0 = true ∧ long.caps.ctr < long.regs.ctrLen.toNat ∧
      (next long).regs.status = 0x252 := by decide

/-- Lengths 4 and 5, and with one symbol 6, 7 and 8: V-ST3, V-ST4, V-ST6, V-ST7, V-ST8. -/
theorem witness_DecodeHeaderErrorsInOrder_length :
    let l4 := decoding [0, 0, 0, 0]
    let l6 := decoding [0, 0, 0, 1, 0x41, 0]
    let l7 := decoding [0, 0, 0, 1, 0x41, 0, 1]
    let l8 := decoding [0, 0, 0, 1, 0x41, 0, 1, 7]
    (fileFits l4 ∧ l4.regs.ctrLen.toNat < 5 ∧ (next l4).regs.status = 0x132) ∧
      (fileFits l6 ∧ 5 ≤ l6.regs.ctrLen.toNat ∧ l6.regs.ctrLen.toNat < 4 + 3 * be32 l6.mem.ctr.get 0 ∧
        (next l6).regs.status = 0x232) ∧
      (fileFits l7 ∧ l7.regs.ctrLen.toNat = 4 + 3 * be32 l7.mem.ctr.get 0 ∧ (next l7).regs.status = 0x332) ∧
      (fileFits l8 ∧ l8.regs.ctrLen.toNat = 5 + 3 * be32 l8.mem.ctr.get 0 ∧ (next l8).regs.status = 0x432) ∧
      fileFits (decoding [0, 0, 0, 0, 0]) ∧ (next (decoding [0, 0, 0, 0, 0])).regs.status = 0x432 := by decide

/-- V-DC5: no entry; V-DC6: the first entry's count is 0; V-DC7: the second repeats the first. -/
theorem witness_DecodeHeaderErrorsInOrder_table :
    let none := decoding [0, 0, 0, 0, 0, 0x80]
    let zero := decoding [0, 0, 0, 1, 0x41, 0, 0, 7, 0]
    let dup := decoding [0, 0, 0, 2, 0x41, 0, 1, 0x41, 0, 1, 6, 0x40]
    (fileFits none ∧ 6 + 3 * be32 none.mem.ctr.get 0 ≤ none.regs.ctrLen.toNat ∧ be32 none.mem.ctr.get 0 = 0 ∧
        (next none).regs.status = 0x1032) ∧
      (fileFits zero ∧ 6 + 3 * be32 zero.mem.ctr.get 0 ≤ zero.regs.ctrLen.toNat ∧ 0 < be32 zero.mem.ctr.get 0 ∧
        (∀ j < 0, ¬ badEntry zero.mem.ctr.get j) ∧ be16 zero.mem.ctr.get (5 + 3 * 0) = 0 ∧
        (next zero).regs.status = 0x1132) ∧
      fileFits dup ∧ 6 + 3 * be32 dup.mem.ctr.get 0 ≤ dup.regs.ctrLen.toNat ∧ 1 < be32 dup.mem.ctr.get 0 ∧
        (∀ j < 1, ¬ badEntry dup.mem.ctr.get j) ∧ be16 dup.mem.ctr.get (5 + 3 * 1) ≠ 0 ∧
        badEntry dup.mem.ctr.get 1 ∧ (next dup).regs.status = 0x1232 := by decide

/-- V-DC10: discarded_bits 8; V-DC20: TOTAL 11 with DEC_CAP 10; V-DC21: with DEC_CAP 11 it decodes. -/
theorem witness_DecodeHeaderErrorsInOrder_end :
    let disc := decoding [0, 0, 0, 1, 0x41, 0, 1, 8, 0]
    let small := (holding ⟨64, 64, 10⟩ [] ctrABRA).startCommand .decode
    (fileFits disc ∧ 6 + 3 * be32 disc.mem.ctr.get 0 ≤ disc.regs.ctrLen.toNat ∧ be32 disc.mem.ctr.get 0 ≠ 0 ∧
        (∀ j < be32 disc.mem.ctr.get 0, ¬ badEntry disc.mem.ctr.get j) ∧
        7 < (disc.mem.ctr.get (4 + 3 * be32 disc.mem.ctr.get 0)).toNat ∧ (next disc).regs.status = 0x1332) ∧
      (fileFits small ∧ 6 + 3 * be32 small.mem.ctr.get 0 ≤ small.regs.ctrLen.toNat ∧
        be32 small.mem.ctr.get 0 ≠ 0 ∧ (∀ j < be32 small.mem.ctr.get 0, ¬ badEntry small.mem.ctr.get j) ∧
        (small.mem.ctr.get (4 + 3 * be32 small.mem.ctr.get 0)).toNat ≤ 7 ∧
        small.caps.dec <
          ((List.range (be32 small.mem.ctr.get 0)).map (fun i => be16 small.mem.ctr.get (5 + 3 * i))).sum ∧
        (next small).regs.status = 0x352) ∧
      (next ((holding ⟨64, 64, 11⟩ [] ctrABRA).startCommand .decode)).regs.status = 2 := by decide

theorem witness_DecodeCommits :
    ab.phase = .idle ∧ HoldsContainer ab [⟨0x41, 1⟩, ⟨0x42, 1⟩] 6 [0x40] ∧ ([0x40] : List Byte) ≠ [] ∧
      ReadableTable [⟨0x41, 1⟩, ⟨0x42, 1⟩] ∧ (6 : Byte).toNat ≤ 7 ∧
      FreqTable.total [⟨0x41, 1⟩, ⟨0x42, 1⟩] ≤ ab.caps.dec ∧
      Spells [⟨0x41, 1⟩, ⟨0x42, 1⟩] 6 [0x40] [0x41, 0x42] := by
  refine ⟨by decide, ?_, by decide, ?_, by decide, by decide, by decide, by decide, _, rfl, by decide⟩
  · unfold HoldsContainer; decide
  · unfold ReadableTable; decide

theorem witness_DecodeIsSound : statusErr (runCommand .decode ab).regs.status = 0 := by decide

/-! The clauses of DecodePayloadErrorsInOrder: each error with a payload at the edge of its clause. -/

/-- The statement's hypotheses that every clause shares, at DECODE running on `ctr`. -/
def payloadRead (ctr : List Byte) (t : FreqTable) (d : Byte) (p : List Byte) (b : Built) : Prop :=
  (decoding ctr).phase = .busy .decode ∧ HoldsContainer (decoding ctr) t d p ∧ p ≠ [] ∧ ReadableTable t ∧
    d.toNat ≤ 7 ∧ FreqTable.total t ≤ (decoding ctr).caps.dec ∧ treeBuild t = some b

/-- Bits "01" of the one-symbol table 41:1: the '1' comes when all TOTAL symbols are out (R125); V-DC13 with "00". -/
theorem witness_DecodePayloadErrorsInOrder_badBit :
    let ctr := [0, 0, 0, 1, 0x41, 0, 1, 6, 0x40]
    (∃ b, payloadRead ctr [⟨0x41, 1⟩] 6 [0x40] b ∧
      bitUnpack [0x40] 6 = payloadBits [0x41] (codeGen b.root) ++ true :: [] ∧
      (∀ x ∈ ([0x41] : List Byte), x ∈ ([⟨0x41, 1⟩] : FreqTable).map Entry.symbol) ∧
      ([⟨0x41, 1⟩] : FreqTable).length = 1 ∧ ([0x41] : List Byte).length ≤ FreqTable.total [⟨0x41, 1⟩]) ∧
      (next (decoding ctr)).regs.status = 0x1432 ∧
      (next (decoding [0, 0, 0, 1, 0x41, 0, 1, 6, 0])).regs.status = 0x1632 :=
  ⟨⟨_, ⟨rfl, by unfold HoldsContainer; decide, by decide, by unfold ReadableTable; decide, by decide, by decide, rfl⟩,
    by decide, by decide, by decide, by decide⟩, by decide, by decide⟩

/-- V-DC15: bits "1", the start of the codes "10" and "11". -/
theorem witness_DecodePayloadErrorsInOrder_incomplete :
    let ctr := [0, 0, 0, 3, 0x41, 0, 1, 0x42, 0, 1, 0x43, 0, 1, 7, 0x80]
    (∃ b, payloadRead ctr [⟨0x41, 1⟩, ⟨0x42, 1⟩, ⟨0x43, 1⟩] 7 [0x80] b ∧
      bitUnpack [0x80] 7 = payloadBits [] (codeGen b.root) ++ [true] ∧
      0 ≤ FreqTable.total [⟨0x41, 1⟩, ⟨0x42, 1⟩, ⟨0x43, 1⟩] ∧ [true] ≠ [] ∧
      ∃ c ∈ codeGen b.root, [true] <+: c.bits ∧ [true] ≠ c.bits) ∧
      (next (decoding ctr)).regs.status = 0x1532 :=
  ⟨⟨_, ⟨rfl, by unfold HoldsContainer; decide, by decide, by unfold ReadableTable; decide, by decide, by decide, rfl⟩,
    by decide, by decide, by decide, by decide⟩, by decide⟩

/-- V-DC14: bits "011" are A, B and a third symbol beyond TOTAL = 2. -/
theorem witness_DecodePayloadErrorsInOrder_beyond :
    let ctr := [0, 0, 0, 2, 0x41, 0, 1, 0x42, 0, 1, 5, 0x60]
    (∃ b, payloadRead ctr [⟨0x41, 1⟩, ⟨0x42, 1⟩] 5 [0x60] b ∧
      bitUnpack [0x60] 5 = payloadBits [0x41, 0x42, 0x42] (codeGen b.root) ++ [] ∧
      (∀ x ∈ ([0x41, 0x42, 0x42] : List Byte), x ∈ ([⟨0x41, 1⟩, ⟨0x42, 1⟩] : FreqTable).map Entry.symbol) ∧
      ([0x41, 0x42, 0x42] : List Byte).length = FreqTable.total [⟨0x41, 1⟩, ⟨0x42, 1⟩] + 1) ∧
      (next (decoding ctr)).regs.status = 0x1632 :=
  ⟨⟨_, ⟨rfl, by unfold HoldsContainer; decide, by decide, by unfold ReadableTable; decide, by decide, by decide, rfl⟩,
    by decide, by decide, by decide⟩, by decide⟩

/-- V-DC16: bits "110" are B and C; A's count is not met. -/
theorem witness_DecodePayloadErrorsInOrder_counts :
    let ctr := [0, 0, 0, 3, 0x41, 0, 1, 0x42, 0, 1, 0x43, 0, 1, 5, 0xC0]
    (∃ b, payloadRead ctr [⟨0x41, 1⟩, ⟨0x42, 1⟩, ⟨0x43, 1⟩] 5 [0xC0] b ∧
      bitUnpack [0xC0] 5 = payloadBits [0x42, 0x43] (codeGen b.root) ++ [] ∧
      (∀ x ∈ ([0x42, 0x43] : List Byte), x ∈ ([⟨0x41, 1⟩, ⟨0x42, 1⟩, ⟨0x43, 1⟩] : FreqTable).map Entry.symbol) ∧
      ([0x42, 0x43] : List Byte).length ≤ FreqTable.total [⟨0x41, 1⟩, ⟨0x42, 1⟩, ⟨0x43, 1⟩] ∧
      ∃ e ∈ ([⟨0x41, 1⟩, ⟨0x42, 1⟩, ⟨0x43, 1⟩] : FreqTable),
        ([0x42, 0x43] : List Byte).count e.symbol ≠ e.count) ∧
      (next (decoding ctr)).regs.status = 0x1632 :=
  ⟨⟨_, ⟨rfl, by unfold HoldsContainer; decide, by decide, by unfold ReadableTable; decide, by decide, by decide, rfl⟩,
    by decide, by decide, by decide, by decide⟩, by decide⟩

/-- V-DC12, the count check with TOTAL = 2: byte 2 of DEC is kept (R113), bytes 0 and 1 are no longer known; and a
failure before the walk, which keeps all of DEC. -/
theorem witness_DecodeFailureLeavesNoResult :
    let full := fun (ctr : List Byte) =>
      { decoding ctr with mem := { (decoding ctr).mem with dec := (Buffer.unspecified 2).store 0 [7, 8, 9] } }
    let late := full [0, 0, 0, 1, 0x41, 0, 2, 7, 0]
    let early := full []
    (late.phase = .busy .decode ∧ statusErr (engineTurn late).regs.status = 3 ∧
        20 ≤ (statusDetail (engineTurn late).regs.status).toNat ∧ (engineTurn late).mem.dec.cells = [(2, 9)]) ∧
      early.phase = .busy .decode ∧ statusErr (engineTurn early).regs.status = 3 ∧
      ¬ 20 ≤ (statusDetail (engineTurn early).regs.status).toNat ∧
      bytes (engineTurn early).mem.dec 3 = [7, 8, 9] := by decide

/-- The machine right after the ENCODE, and the same one after the host has overwritten the message. -/
theorem witness_EncodeThenDecodeRoundTrip :
    let u := runCommand .encode ab
    let w := (after (.msgWr 0 7) u).withEvents []
    ab.caps.Legal ∧ ab.regs.msgLen ≠ 0 ∧ ab.regs.msgLen.toNat ≤ ab.caps.msg ∧ ab.regs.msgLen.toNat ≤ ab.caps.dec ∧
      (∀ x, (ab.message ab.regs.msgLen.toNat).count x ≤ 65535) ∧
      encodedSize (ab.message ab.regs.msgLen.toNat) ≤ ab.caps.ctr ∧ w.caps = ab.caps ∧
      w.regs.ctrLen = u.regs.ctrLen ∧ w.regs.ctrPresent = u.regs.ctrPresent ∧
      ∀ i, i < u.regs.ctrLen.toNat → w.mem.ctr.get i = u.mem.ctr.get i :=
  ⟨by decide, by decide, by decide, by decide, count_le_of_small (by decide), by decide, by decide, by decide,
    by decide, by decide⟩

/-- One payload byte ("AB", V-TR5), and three (V-TR3). -/
theorem witness_TruncationIsDetected :
    ab.caps.Legal ∧ ab.regs.msgLen.toNat ≤ ab.caps.dec ∧
      (∃ r, encodeBody ab = .ok r ∧ (bitPack r.bits).length = 1) ∧
      ∃ r, encodeBody (holding caps64 msgABRA []) = .ok r ∧ 2 ≤ (bitPack r.bits).length :=
  ⟨by decide, by decide, ⟨_, rfl, by decide⟩, ⟨_, rfl, by decide⟩⟩

theorem witness_ValidateReports : ab.phase = .idle ∧ ab.regs.ctrPresent.getLsbD 0 = true := by decide

/-- Both verdicts: V-VA11 and V-VA4. -/
theorem witness_ValidatorAgreesWithDecode :
    (runCommand .validate ab).regs.valResult.getLsbD 0 = true ∧
      (runCommand .validate (holding caps64 [] [0, 0, 0, 0, 0])).regs.valResult.getLsbD 0 = false := by decide

/-- V-VE1, V-VE2, V-VE3, V-VE8, V-VE6: equal, a differing byte, a shorter original, one beyond MSG_CAP, no file. -/
theorem witness_VerifyReports :
    ab.phase = .idle ∧ (runCommand .verify ab).regs.verResult = 5 ∧
      (runCommand .verify (holding caps64 [0x41, 0x43] ctrAB)).regs.verMismatch = 1 ∧
      (runCommand .verify (holding caps64 [0x41] ctrAB)).regs.verMismatch = 1 ∧
      (runCommand .verify (holding ⟨4, 64, 64⟩ [0, 0, 0, 0, 0] ctrAB)).regs.verResult = 6 ∧
      (runCommand .verify { ab with regs := { ab.regs with ctrPresent := 0 } }).regs.verResult = 0x20 := by decide

/-- Each buffer changes somewhere: MSG by MSG_WR, CTR by CTR_WR, DEC by DECODE, CTR_LEN by REG_WR. -/
theorem witness_BufferOwnership :
    (step (waiting (.msgWr 0 7) ab) = .next (after (.msgWr 0 7) ab) ∧
        (after (.msgWr 0 7) ab).mem.msg ≠ (waiting (.msgWr 0 7) ab).mem.msg) ∧
      (step (waiting (.ctrWr 0 7) ab) = .next (after (.ctrWr 0 7) ab) ∧
        (after (.ctrWr 0 7) ab).mem.ctr ≠ (waiting (.ctrWr 0 7) ab).mem.ctr) ∧
      (step (decoding ctrAB) = .next (next (decoding ctrAB)) ∧
        (next (decoding ctrAB)).mem.dec ≠ (decoding ctrAB).mem.dec) ∧
      (step (waiting (.regWr 3 7) ab) = .next (after (.regWr 3 7) ab) ∧
        (after (.regWr 3 7) ab).regs.ctrLen ≠ (waiting (.regWr 3 7) ab).regs.ctrLen) :=
  ⟨⟨rfl, by decide⟩, ⟨rfl, by decide⟩, ⟨rfl, by decide⟩, rfl, by decide⟩

theorem witness_PhaseMovesOnlySo :
    (step (waiting .decode ab) = .next (after .decode ab) ∧ ab.phase = .idle ∧
        (after .decode ab).phase = .busy .decode) ∧
      step (abRuns .verify) = .next (next (abRuns .verify)) ∧ (abRuns .verify).phase = .busy .verify :=
  ⟨⟨rfl, rfl, rfl⟩, rfl, rfl⟩

theorem witness_RunningCommandEnds : (waiting (.regWr 2 1) (abRuns .encode)).phase = .busy .encode := by decide

theorem witness_LatencyChangesNoResult :
    (abRuns .verify).phase = .busy .verify ∧
      exec (.msgWr 0 7) (abRuns .verify) = .next ((after (.msgWr 0 7) (abRuns .verify)).withEvents []) :=
  ⟨rfl, rfl⟩

/-- The invariants' hypotheses at a machine with data in it, before the completion of an ENCODE. -/
theorem witness_StepKeepsMemoryCanonical :
    (abRuns .encode).mem.wf ∧ step (abRuns .encode) = .next (next (abRuns .encode)) := ⟨by decide, rfl⟩

theorem witness_StepKeepsStatusTruthful :
    StatusTruthful (abRuns .encode) ∧ step (abRuns .encode) = .next (next (abRuns .encode)) :=
  ⟨⟨false, false, none, by decide⟩, rfl⟩

theorem witness_StepKeepsSpacesBounded :
    SpacesBounded (abRuns .encode) ∧ step (abRuns .encode) = .next (next (abRuns .encode)) := by
  refine ⟨?_, rfl⟩
  unfold SpacesBounded; decide

theorem witness_StepKeepsResultsShaped :
    ResultsShaped (abRuns .encode) ∧ step (abRuns .encode) = .next (next (abRuns .encode)) :=
  ⟨⟨fun _ => ⟨rfl, rfl⟩, Or.inl (by decide)⟩, rfl⟩

theorem witness_StepKeepsFreeValuesFresh :
    FreeValuesFresh (abRuns .encode) ∧ step (abRuns .encode) = .next (next (abRuns .encode)) := by
  refine ⟨?_, rfl⟩
  unfold FreeValuesFresh; decide

end Sys2Proof.Tests
end

section
/-! PROOFS. Lemmas every proof about a step can use: the register accesses of the host port, what no command's
completion touches, and the rule by which a step keeps an invariant. -/

namespace Sys2Proof.Machine

/-! ### Registers at the port -/

/-- A write to any register but CMD, MSG_LEN, CTR_LEN and CTR_PRESENT stores nothing (R82). -/
theorem Regs.hostWrite_of_ge (r : Regs) {i : Nat} (v : Word) (h : 5 ≤ i) : r.hostWrite i v = r := by
  unfold Regs.hostWrite
  split
  · omega
  · omega
  · omega
  · rfl

@[simp] theorem Regs.hostWrite_status (r : Regs) (i : Nat) (v : Word) : (r.hostWrite i v).status = r.status := by
  unfold Regs.hostWrite
  split <;> rfl

theorem Regs.hostWrite_treeRegsAgree {r : Regs} (h : TreeRegsAgree r) (i : Nat) (v : Word) :
    TreeRegsAgree (r.hostWrite i v) := by
  unfold Regs.hostWrite
  split <;> exact h

/-- A register write while IDLE, CMD aside (R82). -/
theorem exec_regWr_of_idle {s : State} (h : s.phase = .idle) {i : Word} (hi : i ≠ 0) (v : Word) :
    exec (.regWr i v) s = .next ((s.withRegs (s.regs.hostWrite i.toNat v)).withResponse none) := by
  rw [← State.hostWrite_of_idle h fun s => s.withRegs (s.regs.hostWrite i.toNat v)]
  exact if_neg hi

/-- A write while IDLE to a register that is read-only or reserved is ignored (R82, R43, R44). -/
theorem exec_regWr_ignored {s : State} (h : s.phase = .idle) {i : Word} (hi : 5 ≤ i.toNat) (v : Word) :
    exec (.regWr i v) s = .next (s.withResponse none) := by
  have h0 : i ≠ 0 := by rintro rfl; simp at hi
  rw [exec_regWr_of_idle h h0, Regs.hostWrite_of_ge _ _ hi]
  rfl

/-- A register write while BUSY is ignored but for WIGN, whatever the index (R80). -/
theorem exec_regWr_of_busy {s : State} {c : Command} (h : s.phase = .busy c) (i v : Word) :
    exec (.regWr i v) s = .next (s.ignoreWrite.withResponse none) := by
  simp only [exec, execRegWr, State.hostWrite_of_busy h, ite_self]

/-- A register read while IDLE is exact, whatever the index (R81). -/
theorem exec_regRd_of_idle {s : State} (h : s.phase = .idle) (i : Word) :
    exec (.regRd i) s = .next (s.respond (s.readReg i.toNat)) := by
  simp only [exec, execRegRd, State.hostRead_of_idle h, ite_self]

/-- STATUS and the capacities read exactly while BUSY too (R81, R142). -/
theorem exec_regRd_exact (s : State) {i : Word} (h : i = 1 ∨ i = 19 ∨ i = 20 ∨ i = 21) :
    exec (.regRd i) s = .next (s.respond (s.readReg i.toNat)) :=
  if_pos h

/-! ### What no completion step touches (R126, R144) -/

/-- What the writes of a running command leave as it was, whatever the command. -/
structure BodyFrame (s u : State) : Prop where
  status : u.regs.status = s.regs.status
  msgLen : u.regs.msgLen = s.regs.msgLen
  msg : u.mem.msg = s.mem.msg
  caps : u.caps = s.caps
  events : u.events = s.events
  response : u.response = s.response

theorem BodyFrame.trans {s u v : State} (h : BodyFrame s u) (k : BodyFrame u v) : BodyFrame s v where
  status := k.status.trans h.status
  msgLen := k.msgLen.trans h.msgLen
  msg := k.msg.trans h.msg
  caps := k.caps.trans h.caps
  events := k.events.trans h.events
  response := k.response.trans h.response

theorem applyEncode_frame (s : State) (r : EncodeResult) : BodyFrame s (applyEncode s r) :=
  ⟨rfl, rfl, rfl, rfl, rfl, rfl⟩

theorem failEncode_frame (s : State) : BodyFrame s (failEncode s) := ⟨rfl, rfl, rfl, rfl, rfl, rfl⟩

theorem applyDecode_frame (s : State) (r : DecodeResult) : BodyFrame s (applyDecode s r) :=
  ⟨rfl, rfl, rfl, rfl, rfl, rfl⟩

theorem failDecode_frame (s : State) (f : DecodeFailure) : BodyFrame s (failDecode s f) := by
  obtain ⟨-, h⟩ | ⟨_, -, h⟩ := failDecode_cases s f <;> rw [h] <;> exact ⟨rfl, rfl, rfl, rfl, rfl, rfl⟩

theorem applyValidate_frame (s : State) : BodyFrame s (applyValidate s) := ⟨rfl, rfl, rfl, rfl, rfl, rfl⟩

theorem reportDecoded_frame (s : State) : BodyFrame s (reportDecoded s) := by
  obtain ⟨_, _, h⟩ := reportDecoded_eq s
  rw [h]
  exact ⟨rfl, rfl, rfl, rfl, rfl, rfl⟩

theorem reportUndecoded_frame (s : State) (e : CodecError) : BodyFrame s (reportUndecoded s e) :=
  ⟨rfl, rfl, rfl, rfl, rfl, rfl⟩

/-- Every command ends in the shared completion step, after writes that keep the frame (R126). -/
theorem completionStep_eq_complete (c : Command) (s : State) :
    ∃ u e, completionStep c s = u.complete e ∧ BodyFrame s u := by
  cases c with
  | encode =>
    obtain ⟨r, -, h⟩ | ⟨e, -, h⟩ := completeEncode_cases s
    · exact ⟨_, _, h, applyEncode_frame s r⟩
    · exact ⟨_, _, h, failEncode_frame s⟩
  | decode =>
    obtain ⟨r, -, h⟩ | ⟨f, -, h⟩ := completeDecode_cases s
    · exact ⟨_, _, h, applyDecode_frame s r⟩
    · exact ⟨_, _, h, failDecode_frame s f⟩
  | validate => exact ⟨_, _, rfl, applyValidate_frame s⟩
  | verify =>
    obtain ⟨r, -, h⟩ | ⟨f, -, h⟩ := completeVerify_cases s
    · exact ⟨_, _, h, (applyDecode_frame s r).trans (reportDecoded_frame _)⟩
    · exact ⟨_, _, h, (failDecode_frame s f).trans (reportUndecoded_frame _ _)⟩

@[simp] theorem completionStep_phase (c : Command) (s : State) : (completionStep c s).phase = .idle := by
  obtain ⟨u, e, h, -⟩ := completionStep_eq_complete c s
  rw [h, State.complete_phase]

@[simp] theorem completionStep_caps (c : Command) (s : State) : (completionStep c s).caps = s.caps := by
  obtain ⟨u, e, h, hu⟩ := completionStep_eq_complete c s
  rw [h, State.complete_caps, hu.caps]

theorem completionStep_status (c : Command) (s : State) :
    ∃ e, (completionStep c s).regs.status = completionStatus e s.regs.status := by
  obtain ⟨u, e, h, hu⟩ := completionStep_eq_complete c s
  exact ⟨e, by rw [h, State.complete_regs, hu.status]⟩

@[simp] theorem engineTurn_phase (s : State) : (engineTurn s).phase = .idle := by
  cases h : s.phase with
  | idle => rw [engineTurn_of_idle h, h]
  | busy c => rw [engineTurn_of_busy h, completionStep_phase]

/-! ### How a step keeps an invariant (R141) -/

/-- `P` is kept by everything a step is made of: the schedule and the port's bookkeeping, the two kinds of host
write, the completion step, the reset. -/
structure KeptByParts (P : State → Prop) : Prop where
  events : ∀ s l, P s → P (s.withEvents l)
  response : ∀ s r, P s → P (s.withResponse r)
  fresh : ∀ s, P s → P (s.withFresh (s.fresh + 1))
  ignoreWrite : ∀ s c, s.phase = .busy c → P s → P s.ignoreWrite
  write : ∀ s i u, s.phase = .idle → WriteEffect s i u → P s → P u
  complete : ∀ s c, s.phase = .busy c → P s → P (completionStep c s)
  reset : ∀ s, P s → P s.resetInput

theorem KeptByParts.exec {P : State → Prop} (hP : KeptByParts P) {i : Instr} {s t : State} (hs : P s)
    (h : exec i s = .next t) : P t := by
  obtain ⟨-, v, rfl⟩ | ⟨-, -, rfl⟩ | ⟨-, hb, rfl⟩ | ⟨-, hp, u, hu, rfl⟩ := exec_next_cases h
  · exact hP.response s _ hs
  · exact hP.fresh _ (hP.response s _ hs)
  · obtain ⟨-, hi⟩ | ⟨c, hc, -⟩ := s.isBusy_cases
    · exact absurd (hb.symm.trans hi) (by decide)
    · exact hP.response _ _ (hP.ignoreWrite s c hc hs)
  · exact hP.response _ _ (hP.write s i u hp hu hs)

theorem KeptByParts.engineTurn {P : State → Prop} (hP : KeptByParts P) {s : State} (hs : P s) : P (engineTurn s) := by
  cases h : s.phase with
  | idle => rwa [engineTurn_of_idle h]
  | busy c => rw [engineTurn_of_busy h]; exact hP.complete s c h hs

/-- An invariant each part keeps is kept by every step. -/
theorem KeptByParts.step {P : State → Prop} (hP : KeptByParts P) {s t : State} (hs : P s) (h : step s = .next t) :
    P t := by
  obtain ⟨-, rfl⟩ | ⟨rest, -, rfl⟩ | ⟨rest, -, rfl⟩ | ⟨p, rest, -, he⟩ := step_cases h
  · exact hP.engineTurn hs
  · exact hP.engineTurn (hP.events s rest hs)
  · exact hP.reset _ (hP.events s rest hs)
  · exact hP.exec (hP.events s rest hs) he

end Sys2Proof.Machine
end

section
/-! PROOFS. STATUS stays truthful (10_state.md R25, 60_exceptions.md R122, R123). -/

namespace Sys2Proof.Machine

/-- STATUS at reset is the word of an IDLE machine that has completed nothing (R25). -/
theorem packStatus_zero : packStatus false false false 0 0 = 0 := by decide

theorem StatusTruthful.congr {s t : State} (h : StatusTruthful s) (hp : t.phase = s.phase)
    (hs : t.regs.status = s.regs.status) : StatusTruthful t := by
  unfold StatusTruthful State.isBusy
  rw [hp, hs]
  exact h

/-- An IDLE machine whose STATUS is a completion's, with any error, is truthful. -/
theorem statusTruthful_of_done {s : State} (hp : s.phase = .idle) (wign : Bool) (e : Option CodecError)
    (hs : s.regs.status = packStatus false true wign (errCode e) (errDetail e)) : StatusTruthful s :=
  ⟨true, wign, e, by rw [hs, State.isBusy_of_idle hp], by simp [State.isBusy_of_idle hp], by simp⟩

/-- A machine whose STATUS shows no error and not DONE is truthful if it shows BUSY truly. -/
theorem statusTruthful_of_not_done {s : State} (wign : Bool) (hs : s.regs.status = packStatus s.isBusy false wign 0 0) :
    StatusTruthful s :=
  ⟨false, wign, none, hs, fun _ => rfl, fun _ => rfl⟩

theorem WriteEffect.statusTruthful {s u : State} {i : Instr} (hw : WriteEffect s i u) (hp : s.phase = .idle)
    (h : StatusTruthful s) : StatusTruthful u := by
  cases hw with
  | ignored => exact h
  | regs index data => exact h.congr rfl (Regs.hostWrite_status _ _ _)
  | msg | ctr => exact h.congr rfl rfl
  | bad => exact statusTruthful_of_done hp false (some .badCommand) rfl
  | start c => exact statusTruthful_of_not_done false rfl

theorem statusTruthful_keptByParts : KeptByParts StatusTruthful where
  events _ _ h := h
  response _ _ h := h
  fresh _ h := h
  ignoreWrite s c _ := by
    rintro ⟨done, wign, e, hs, hb, hd⟩
    exact ⟨done, true, e, by rw [State.ignoreWrite_regs, hs, setWign_pack]; rfl, hb, hd⟩
  write _ _ _ hp hw h := hw.statusTruthful hp h
  complete s c _ _ := by
    obtain ⟨e, hs⟩ := completionStep_status c s
    exact statusTruthful_of_done (completionStep_phase c s) _ e hs
  reset s _ := statusTruthful_of_not_done false packStatus_zero.symm

/-- Settles O50: STATUS is truthful after each part of a step, since it is only ever written by `setWign`, by the CMD
write, by the completion step and by the reset. -/
theorem stepKeepsStatusTruthful : Obligations.StepKeepsStatusTruthful :=
  fun _ _ hs h => statusTruthful_keptByParts.step hs h

end Sys2Proof.Machine
end

section
/-! PROOFS. The result registers keep their shape (10_state.md R30, R31, R34, R35, R51). -/

namespace Sys2Proof.Machine

/-- The registers of a tree of `n` symbols agree. -/
theorem treeRegsAgree_of_tree {r : Regs} {n root d : Nat} (hn : 1 ≤ n) (hn256 : n ≤ 256) (hroot : root = 2 * n - 2)
    (hd : d ≤ 7) (h1 : r.nSyms = BitVec.ofNat 32 n) (h2 : r.root = BitVec.ofNat 32 root)
    (h3 : r.payloadOff = BitVec.ofNat 32 (5 + 3 * n)) (h4 : r.discard = BitVec.ofNat 32 d) : TreeRegsAgree r := by
  right
  rw [h1, h2, h3, h4]
  simp (disch := omega) only [BitVec.toNat_ofNat, Nat.mod_eq_of_lt]
  exact ⟨hn, hn256, hroot, trivial, hd⟩

theorem encodeMessage_some {m : List Byte} {r : EncodeResult} (h : encodeMessage m = some r) :
    r.table = frequencyAnalyze m ∧ treeBuild r.table = some r.built := by
  unfold encodeMessage at h
  split at h
  · cases h
  · next hb => cases h; exact ⟨rfl, hb⟩

/-- A successful ENCODE has passed its checks and encoded the message (R104). -/
theorem encodeBody_ok {s : State} {r : EncodeResult} (h : encodeBody s = .ok r) :
    s.regs.msgLen ≠ 0 ∧ s.regs.msgLen.toNat ≤ s.caps.msg ∧
      encodeMessage (s.message s.regs.msgLen.toNat) = some r ∧ r.container.length ≤ s.caps.ctr := by
  unfold encodeBody at h
  split at h
  · cases h
  next hlen =>
  split at h
  · cases h
  next hmsg =>
  split at h
  · cases h
  split at h
  · cases h
  next hr =>
  split at h
  · cases h
  next hctr =>
  cases h
  exact ⟨hlen, Nat.le_of_not_lt hmsg, hr, Nat.le_of_not_lt hctr⟩

/-- What a successful ENCODE has built: the tree of the table of its message (R104). -/
theorem encodeBody_ok_tree {s : State} {r : EncodeResult} (h : encodeBody s = .ok r) :
    treeBuild r.table = some r.built ∧ r.table.length ≤ 256 := by
  obtain ⟨-, -, hr, -⟩ := encodeBody_ok h
  obtain ⟨ht, hb⟩ := encodeMessage_some hr
  exact ⟨hb, ht ▸ frequencyAnalyze_length_le _⟩

theorem decodeTable_ok {cap d : Nat} {t : FreqTable} {p : List Byte} {r : DecodeResult}
    (h : decodeTable cap t d p = .ok r) :
    FreqTable.total t ≤ cap ∧ r.table = t ∧ r.d = d ∧ r.bits = bitUnpack p d ∧ treeBuild t = some r.built ∧
      walk r.built.root (FreqTable.total t) r.bits r.built.root [] = .ok r.out ∧ countCheck r.out t = true := by
  unfold decodeTable at h
  split at h
  · cases h
  next hcap =>
  split at h
  · cases h
  next hb =>
  split at h
  · cases h
  next hw =>
  split at h
  next hc =>
    cases h
    exact ⟨Nat.le_of_not_lt hcap, rfl, rfl, rfl, hb, hw, hc⟩
  · cases h

/-- A successful DECODE has passed the structural checks, read the table and decoded the payload (R113). -/
theorem decodeBody_ok {s : State} {r : DecodeResult} (h : decodeBody s = .ok r) :
    ∃ hd t, s.structural = .ok hd ∧ containerRead s.mem.ctr.get hd.n hd.d = .ok t ∧
      decodeTable s.caps.dec t hd.d (payloadBytes s.mem.ctr.get hd) = .ok r := by
  unfold decodeBody at h
  split at h
  · cases h
  next hd hs =>
  split at h
  · cases h
  next t ht =>
  exact ⟨hd, t, hs, ht, h⟩

/-- What a successful DECODE has read: a table the container reader accepts, and its tree (R108, R113). -/
theorem decodeBody_ok_tree {s : State} {r : DecodeResult} (h : decodeBody s = .ok r) :
    treeBuild r.table = some r.built ∧ r.table.length ≤ 256 ∧ r.d ≤ 7 := by
  obtain ⟨hd, t, -, hread, hdec⟩ := decodeBody_ok h
  obtain ⟨-, rfl, hrd, -, hb, -, -⟩ := decodeTable_ok hdec
  obtain ⟨-, hlen, -, hn, hd7⟩ := containerRead_tableOk hread
  exact ⟨hb, hlen ▸ hn, hrd ▸ hd7⟩

theorem treeBuild_root_seq {t : FreqTable} {b : Built} (h : treeBuild t = some b) :
    1 ≤ t.length ∧ b.root.seq = 2 * t.length - 2 := by
  obtain ⟨hne, hb⟩ := treeBuild_some h
  exact ⟨List.length_pos_iff.2 hne, hb.root_seq⟩

theorem applyEncode_treeRegsAgree {s : State} {r : EncodeResult} (h : encodeBody s = .ok r) :
    TreeRegsAgree (applyEncode s r).regs := by
  obtain ⟨hb, hle⟩ := encodeBody_ok_tree h
  obtain ⟨hpos, hroot⟩ := treeBuild_root_seq hb
  exact treeRegsAgree_of_tree hpos hle hroot (Nat.le_of_lt_succ (discardedBits_lt r.bits.length)) rfl rfl rfl rfl

theorem applyDecode_treeRegsAgree {s : State} {r : DecodeResult} (h : decodeBody s = .ok r) :
    TreeRegsAgree (applyDecode s r).regs := by
  obtain ⟨hb, hle, hd⟩ := decodeBody_ok_tree h
  obtain ⟨hpos, hroot⟩ := treeBuild_root_seq hb
  exact treeRegsAgree_of_tree hpos hle hroot hd rfl rfl rfl rfl

theorem failDecode_treeRegsAgree {s : State} (h : TreeRegsAgree s.regs) (f : DecodeFailure) :
    TreeRegsAgree (failDecode s f).regs := by
  rwa [failDecode_regs]

theorem reportDecoded_treeRegsAgree {s : State} (h : TreeRegsAgree s.regs) : TreeRegsAgree (reportDecoded s).regs := by
  obtain ⟨_, _, hr⟩ := reportDecoded_eq s
  rw [hr]
  exact h

/-- A success writes the registers of a tree; a failure, and a verdict, leaves them. -/
theorem completionStep_treeRegsAgree {s : State} (h : TreeRegsAgree s.regs) (c : Command) :
    TreeRegsAgree (completionStep c s).regs := by
  cases c with
  | encode =>
    obtain ⟨r, hr, hc⟩ | ⟨e, -, hc⟩ := completeEncode_cases s <;> simp only [completionStep, hc]
    · exact applyEncode_treeRegsAgree hr
    · exact h
  | decode =>
    obtain ⟨r, hr, hc⟩ | ⟨f, -, hc⟩ := completeDecode_cases s <;> simp only [completionStep, hc]
    · exact applyDecode_treeRegsAgree hr
    · exact failDecode_treeRegsAgree h f
  | validate => exact h
  | verify =>
    obtain ⟨r, hr, hc⟩ | ⟨f, -, hc⟩ := completeVerify_cases s <;> simp only [completionStep, hc]
    · exact reportDecoded_treeRegsAgree (applyDecode_treeRegsAgree hr)
    · exact failDecode_treeRegsAgree h f

theorem resultsClearWhileBusy_of_idle {s : State} (h : s.phase = .idle) : ResultsClearWhileBusy s := by
  simp [ResultsClearWhileBusy, State.isBusy_of_idle h]

theorem WriteEffect.resultsShaped {s u : State} {i : Instr} (hw : WriteEffect s i u) (hp : s.phase = .idle)
    (h : ResultsShaped s) : ResultsShaped u := by
  have hidle : ∀ {v : State}, v.phase = s.phase → ResultsClearWhileBusy v := fun hv =>
    resultsClearWhileBusy_of_idle (hv.trans hp)
  cases hw with
  | ignored => exact h
  | regs index data => exact ⟨hidle rfl, Regs.hostWrite_treeRegsAgree h.2 _ _⟩
  | msg | ctr | bad => exact ⟨hidle rfl, h.2⟩
  | start c => exact ⟨fun _ => ⟨rfl, rfl⟩, .inl ⟨rfl, rfl, rfl, rfl, rfl, rfl, rfl, rfl⟩⟩

theorem resultsShaped_keptByParts : KeptByParts ResultsShaped where
  events _ _ h := h
  response _ _ h := h
  fresh _ h := h
  ignoreWrite s c hp := by
    rintro ⟨hclear, htree⟩
    obtain ⟨hregs, hmem⟩ := hclear (State.isBusy_of_busy hp)
    exact ⟨fun _ => ⟨congrArg (fun r : Regs => { r with status := setWign s.regs.status }) hregs, hmem⟩, htree⟩
  write _ _ _ hp hw h := hw.resultsShaped hp h
  complete s c _ h :=
    ⟨resultsClearWhileBusy_of_idle (completionStep_phase c s), completionStep_treeRegsAgree h.2 c⟩
  reset s _ := ⟨resultsClearWhileBusy_of_idle rfl, .inl ⟨rfl, rfl, rfl, rfl, rfl, rfl, rfl, rfl⟩⟩

/-- Settles O52: the command start clears the results, host writes leave them, and a completion writes the registers of
a tree that the builder built from a table of 1 to 256 symbols, or none of them. -/
theorem stepKeepsResultsShaped : Obligations.StepKeepsResultsShaped :=
  fun _ _ hs h => resultsShaped_keptByParts.step hs h

end Sys2Proof.Machine
end

section
/-! PROOFS. The capacities, the reserved registers and the phase (10_state.md R20, R43, R44). -/

namespace Sys2Proof.Machine

theorem WriteEffect.caps_eq {s u : State} {i : Instr} (hw : WriteEffect s i u) : u.caps = s.caps := by
  cases hw <;> rfl

theorem caps_keptByParts (k : Caps) : KeptByParts fun s => s.caps = k where
  events _ _ h := h
  response _ _ h := h
  fresh _ h := h
  ignoreWrite _ _ _ h := h
  write _ _ _ _ hw h := hw.caps_eq.trans h
  complete s c _ h := (completionStep_caps c s).trans h
  reset _ h := h

theorem step_caps {s t : State} (h : step s = .next t) : t.caps = s.caps :=
  (caps_keptByParts s.caps).step rfl h

/-- Settles O14: no part of a step writes the capacities, their reads are exact in every phase, and a write to their
indices stores nothing. -/
theorem capacitiesAreConstant : Obligations.CapacitiesAreConstant := by
  refine ⟨fun s t h => step_caps h, fun s => ⟨?_, ?_, ?_⟩, fun s v h => ⟨?_, ?_, ?_⟩⟩
  · exact exec_regRd_exact s (by decide)
  · exact exec_regRd_exact s (by decide)
  · exact exec_regRd_exact s (by decide)
  · exact exec_regWr_ignored h (by decide) v
  · exact exec_regWr_ignored h (by decide) v
  · exact exec_regWr_ignored h (by decide) v

/-- Settles O13: the map of R23 ends at index 21, and the write to a higher index is one that stores nothing. -/
theorem reservedRegisters : Obligations.ReservedRegisters := by
  refine fun s i v hi => ⟨fun h => ⟨?_, ?_⟩, fun c h => ?_⟩
  · rw [exec_regRd_of_idle h, State.readReg_of_ge s hi]
    rfl
  · exact exec_regWr_ignored h (by omega) v
  · exact exec_regWr_of_busy h i v

/-- A command runs after a write made while IDLE only if the write started it. -/
theorem WriteEffect.starts {s u : State} {i : Instr} {c : Command} (hw : WriteEffect s i u) (hp : s.phase = .idle)
    (hu : u.phase = .busy c) : i = startingWrite c ∨ ∃ v, i = .regWr 0 v := by
  cases hw with
  | start c' _ _ hi => cases hu; exact hi
  | ignored | regs | msg | ctr | bad => exact absurd (hp.symm.trans hu) (by simp)

theorem exec_starts {i : Instr} {s t : State} {c : Command} (h : exec i s = .next t) (hp : s.phase = .idle)
    (ht : t.phase = .busy c) : i = startingWrite c ∨ ∃ v, i = .regWr 0 v := by
  have hne : s.phase ≠ .busy c := by simp [hp]
  obtain ⟨-, v, rfl⟩ | ⟨-, -, rfl⟩ | ⟨-, -, rfl⟩ | ⟨-, -, u, hu, rfl⟩ := exec_next_cases h
  · exact absurd ht hne
  · exact absurd ht hne
  · exact absurd ht hne
  · exact hu.starts hp ht

theorem exec_phase_of_busy {i : Instr} {s t : State} {c : Command} (h : exec i s = .next t) (hp : s.phase = .busy c) :
    t.phase = .busy c := by
  obtain ⟨-, v, rfl⟩ | ⟨-, -, rfl⟩ | ⟨-, -, rfl⟩ | ⟨-, hi, -⟩ := exec_next_cases h
  · exact hp
  · exact hp
  · exact hp
  · exact absurd (hi.symm.trans hp) (by simp)

/-- IDLE is left only by the command write of the command that runs (R137). -/
theorem step_starts {s t : State} {c : Command} (h : step s = .next t) (hp : s.phase = .idle)
    (ht : t.phase = .busy c) : ∃ p rest, s.events = .packet p :: rest ∧ decodePacket p = startingWrite c := by
  obtain ⟨-, rfl⟩ | ⟨rest, -, rfl⟩ | ⟨rest, -, rfl⟩ | ⟨p, rest, he, hx⟩ := step_cases h
  · simp at ht
  · simp at ht
  · cases ht
  · obtain hi | ⟨v, hi⟩ := exec_starts hx hp ht
    · exact ⟨p, rest, he, hi⟩
    · exact absurd hi (decodePacket_ne_regWr_zero p v)

/-- Settles O46: by the kinds of step; a transaction while BUSY keeps the phase, and every other step ends IDLE. -/
theorem phaseMovesOnlySo : Obligations.PhaseMovesOnlySo := by
  refine fun s t h => ⟨fun c hp ht => step_starts h hp ht, fun c hp => ?_⟩
  obtain ⟨he, rfl⟩ | ⟨rest, he, rfl⟩ | ⟨rest, he, rfl⟩ | ⟨p, rest, he, hx⟩ := step_cases h
  · exact .inr ⟨engineTurn_phase s, .inl he⟩
  · exact .inr ⟨engineTurn_phase _, .inr (.inl ⟨rest, he⟩)⟩
  · exact .inr ⟨rfl, .inr (.inr ⟨rest, he⟩)⟩
  · exact .inl ⟨exec_phase_of_busy hx hp, p, rest, he⟩

end Sys2Proof.Machine
end

section
/-! PROOFS. The layout of the report words (10_state.md R25, R37, R41). -/

namespace Sys2Proof.Machine

/-- The word STATUS, VAL_RESULT and VER_RESULT share has the layout of the register map. -/
theorem packReport_bits (b0 b1 b2 : Bool) (err : BitVec 4) (detail : BitVec 8) :
    ReportBits (packReport b0 b1 b2 err detail) b0 b1 b2 err detail := by
  have herr : ∀ i, 4 ≤ i → err.getLsbD i = false := fun i hi => BitVec.getLsbD_of_ge _ _ hi
  have hdetail : ∀ i, 8 ≤ i → detail.getLsbD i = false := fun i hi => BitVec.getLsbD_of_ge _ _ hi
  simp only [ReportBits, packReport_getLsbD]
  refine ⟨by simp, by simp, by simp, by simp, fun i hi => ?_, fun i hi => ?_, fun i hi => ?_⟩
  · simp [show ¬ 8 ≤ 4 + i by omega]; omega
  · rw [herr _ (by omega)]; simp; omega
  · rw [herr _ (by omega), hdetail _ (by omega)]; simp; omega

/-- Settles O55: the three words are `packReport` by another name, and an accessor's field is an extract of its bits. -/
theorem reportWordsLayout : Obligations.ReportWordsLayout := by
  refine ⟨fun b0 b1 b2 err detail => ⟨packReport_bits .., packReport_bits .., packReport_bits ..⟩,
    fun w => ⟨rfl, rfl, rfl, fun i hi => ?_, fun i hi => ?_⟩⟩
  · simp only [statusErr, BitVec.getLsbD_extractLsb', hi, decide_true, Bool.true_and]
  · simp only [statusDetail, BitVec.getLsbD_extractLsb', hi, decide_true, Bool.true_and]

end Sys2Proof.Machine
end

section
/-! PROOFS. The memory stays in its canonical form (log 3, log 13). -/

namespace Sys2Proof.Machine

theorem WriteEffect.mem_wf {s u : State} {i : Instr} (hw : WriteEffect s i u) (h : s.mem.wf) : u.mem.wf := by
  cases hw with
  | ignored | regs | bad => exact h
  | msg index data =>
    obtain ⟨⟨hmsg, hctr, hdec⟩, htables⟩ := h
    exact ⟨⟨Buffer.wf_hostSet hmsg _ _ _, hctr, hdec⟩, htables⟩
  | ctr index data =>
    obtain ⟨⟨hmsg, hctr, hdec⟩, htables⟩ := h
    exact ⟨⟨hmsg, Buffer.wf_hostSet hctr _ _ _, hdec⟩, htables⟩
  | start c => exact Memory.wf_clearTables h

theorem applyEncode_mem_wf {s : State} (h : s.mem.wf) (r : EncodeResult) : (applyEncode s r).mem.wf := by
  obtain ⟨⟨hmsg, hctr, hdec⟩, hfreq, hnode, hcode⟩ := h
  exact ⟨⟨hmsg, Buffer.wf_store hctr _ _, hdec⟩, WordTable.wf_setAll hfreq _, WordTable.wf_setAll hnode _,
    WordTable.wf_setAll hcode _⟩

theorem applyDecode_mem_wf {s : State} (h : s.mem.wf) (r : DecodeResult) : (applyDecode s r).mem.wf := by
  obtain ⟨⟨hmsg, hctr, hdec⟩, hfreq, hnode, hcode⟩ := h
  exact ⟨⟨hmsg, hctr, Buffer.wf_store hdec _ _⟩, WordTable.wf_setAll hfreq _, WordTable.wf_setAll hnode _, hcode⟩

theorem failDecode_mem_wf {s : State} (h : s.mem.wf) (f : DecodeFailure) : (failDecode s f).mem.wf := by
  obtain ⟨-, hf⟩ | ⟨total, -, hf⟩ := failDecode_cases s f <;> rw [hf]
  · exact h
  · obtain ⟨⟨hmsg, hctr, hdec⟩, htables⟩ := h
    exact ⟨⟨hmsg, hctr, Buffer.wf_forgetBelow hdec _ _⟩, htables⟩

/-- A success stores bytes and sets words, DECODE's failure rule forgets bytes, and a report writes registers alone. -/
theorem completionStep_mem_wf {s : State} (h : s.mem.wf) (c : Command) : (completionStep c s).mem.wf := by
  cases c with
  | encode =>
    obtain ⟨r, -, hc⟩ | ⟨e, -, hc⟩ := completeEncode_cases s <;> simp only [completionStep, hc]
    · exact applyEncode_mem_wf h r
    · exact h
  | decode =>
    obtain ⟨r, -, hc⟩ | ⟨f, -, hc⟩ := completeDecode_cases s <;> simp only [completionStep, hc]
    · exact applyDecode_mem_wf h r
    · exact failDecode_mem_wf h f
  | validate => exact h
  | verify =>
    obtain ⟨r, -, hc⟩ | ⟨f, -, hc⟩ := completeVerify_cases s <;>
      simp only [completionStep, hc, State.complete_mem, reportDecoded_mem]
    · exact applyDecode_mem_wf h r
    · exact failDecode_mem_wf h f

theorem mem_wf_keptByParts : KeptByParts fun s => s.mem.wf where
  events _ _ h := h
  response _ _ h := h
  fresh _ h := h
  ignoreWrite _ _ _ h := h
  write _ _ _ _ hw h := hw.mem_wf h
  complete _ c _ h := completionStep_mem_wf h c
  reset _ h := State.wf_resetMem h

/-- Settles O49: every operation a part of a step makes on a buffer or a table keeps its canonical form. -/
theorem stepKeepsMemoryCanonical : Obligations.StepKeepsMemoryCanonical :=
  fun _ _ hs h => mem_wf_keptByParts.step hs h

end Sys2Proof.Machine
end

section
/-! PROOFS. Every space stays within its size (20_memory.md R52, 10_state.md R28, R46 to R48). -/

namespace Sys2Proof.Machine

/-! ### The indices of the table words -/

theorem freqWords_lt (t : FreqTable) : ∀ x ∈ freqWords t, x.1 < 256 := by
  intro x hx
  obtain ⟨e, -, rfl⟩ := List.mem_map.1 hx
  exact e.symbol.isLt

/-- A table of at most 256 entries has at most 511 nodes, of two words each (R47). -/
theorem nodeWords_lt {t : FreqTable} {b : Built} (hb : treeBuild t = some b) (hle : t.length ≤ 256) :
    ∀ x ∈ nodeWords b.nodes, x.1 < 1022 := by
  intro x hx
  obtain ⟨-, hbuilt⟩ := treeBuild_some hb
  obtain ⟨n, hn, hx⟩ := List.mem_flatMap.1 hx
  have hseq : n.seq < 2 * t.length - 1 := hbuilt.length ▸ hbuilt.seq_lt hn
  simp only [List.mem_cons, List.not_mem_nil, or_false] at hx
  obtain rfl | rfl := hx
  · show 2 * n.seq < 1022; omega
  · show 2 * n.seq + 1 < 1022; omega

/-- A code's words lie in the 16 words of its symbol (R48). -/
theorem codeWords_lt (c : List Code) : ∀ x ∈ codeWords c, x.1 < 4096 := by
  intro x hx
  obtain ⟨k, -, hx⟩ := List.mem_flatMap.1 hx
  have hsym : k.symbol.toNat < 256 := k.symbol.isLt
  obtain rfl | hx := List.mem_cons.1 hx
  · show 16 * k.symbol.toNat < 4096; omega
  · obtain ⟨j, hj, rfl⟩ := List.mem_map.1 hx
    have hj8 : j < 8 := List.mem_range.1 hj
    show 16 * k.symbol.toNat + 1 + j < 4096; omega

/-! ### The addresses of the bytes -/

theorem Buffer.hostSet_cells_lt {b : Buffer} {cap : Nat} (h : ∀ x ∈ b.cells, x.1 < cap) (i : Nat) (data : Word) :
    ∀ x ∈ (b.hostSet cap i data).cells, x.1 < cap := by
  unfold Buffer.hostSet
  split
  next hi => exact Buffer.store_cells_lt (k := [storedByte data]) h hi
  next => exact h

theorem Buffer.forgetBelow_cells_lt {b : Buffer} {cap : Nat} (h : ∀ x ∈ b.cells, x.1 < cap) (limit epoch : Nat) :
    ∀ x ∈ (b.forgetBelow limit epoch).cells, x.1 < cap :=
  fun x hx => h x (List.mem_of_mem_filter hx)

theorem walk_out_length_le {root cur : Tree} {total : Nat} {bits : Bits} {out res : List Byte}
    (hout : out.length ≤ total) (h : walk root total bits cur out = .ok res) : res.length ≤ total := by
  induction bits generalizing cur out with
  | nil =>
    simp only [walk] at h
    split at h
    · cases h; exact hout
    · cases h
  | cons b bits ih =>
    have hemit : ∀ x, out.length ≠ total → (out ++ [x]).length ≤ total := fun x hne => by
      simp only [List.length_append, List.length_singleton]; omega
    simp only [walk] at h
    split at h
    · split at h
      · cases h
      split at h
      · cases h
      next hne => exact ih (hemit _ hne) h
    · split at h
      · split at h
        · cases h
        next hne => exact ih (hemit _ hne) h
      · exact ih hout h

theorem decodeBody_ok_out_length_le {s : State} {r : DecodeResult} (h : decodeBody s = .ok r) :
    r.out.length ≤ s.caps.dec := by
  obtain ⟨hd, t, -, -, hdec⟩ := decodeBody_ok h
  obtain ⟨hcap, -, -, -, -, hwalk, -⟩ := decodeTable_ok hdec
  exact (walk_out_length_le (Nat.zero_le _) hwalk).trans hcap

/-! ### The parts of a step -/

theorem Regs.hostWrite_ctrPresent {r : Regs} (h : r.ctrPresent = 0 ∨ r.ctrPresent = 1) (i : Nat) (v : Word) :
    (r.hostWrite i v).ctrPresent = 0 ∨ (r.hostWrite i v).ctrPresent = 1 := by
  unfold Regs.hostWrite
  split
  · exact h
  · exact h
  · show storedPresent v = 0 ∨ storedPresent v = 1
    rw [storedPresent_eq]
    split
    · exact .inr rfl
    · exact .inl rfl
  · exact h

theorem WriteEffect.spacesBounded {s u : State} {i : Instr} (hw : WriteEffect s i u) (h : SpacesBounded s) :
    SpacesBounded u := by
  obtain ⟨⟨hmsg, hctr, hdec⟩, htables, hpresent⟩ := h
  cases hw with
  | ignored | bad => exact ⟨⟨hmsg, hctr, hdec⟩, htables, hpresent⟩
  | regs index data => exact ⟨⟨hmsg, hctr, hdec⟩, htables, Regs.hostWrite_ctrPresent hpresent _ _⟩
  | msg index data => exact ⟨⟨Buffer.hostSet_cells_lt hmsg _ _, hctr, hdec⟩, htables, hpresent⟩
  | ctr index data => exact ⟨⟨hmsg, Buffer.hostSet_cells_lt hctr _ _, hdec⟩, htables, hpresent⟩
  | start c => exact ⟨⟨hmsg, hctr, hdec⟩, ⟨by simp, by simp, by simp⟩, hpresent⟩

theorem applyEncode_spacesBounded {s : State} {r : EncodeResult} (h : SpacesBounded s) (hr : encodeBody s = .ok r) :
    SpacesBounded (applyEncode s r) := by
  obtain ⟨⟨hmsg, hctr, hdec⟩, ⟨hfreq, hnode, hcode⟩, -⟩ := h
  obtain ⟨hb, hle⟩ := encodeBody_ok_tree hr
  obtain ⟨-, -, -, hlen⟩ := encodeBody_ok hr
  exact ⟨⟨hmsg, Buffer.store_cells_lt hctr (by rwa [Nat.zero_add]), hdec⟩,
    ⟨WordTable.setAll_bound hfreq (freqWords_lt _), WordTable.setAll_bound hnode (nodeWords_lt hb hle),
      WordTable.setAll_bound hcode (codeWords_lt _)⟩, .inr rfl⟩

theorem failEncode_spacesBounded {s : State} (h : SpacesBounded s) : SpacesBounded (failEncode s) :=
  ⟨h.1, h.2.1, .inl rfl⟩

theorem applyDecode_spacesBounded {s : State} {r : DecodeResult} (h : SpacesBounded s) (hr : decodeBody s = .ok r) :
    SpacesBounded (applyDecode s r) := by
  obtain ⟨⟨hmsg, hctr, hdec⟩, ⟨hfreq, hnode, hcode⟩, hpresent⟩ := h
  obtain ⟨hb, hle, -⟩ := decodeBody_ok_tree hr
  have hlen := decodeBody_ok_out_length_le hr
  exact ⟨⟨hmsg, hctr, Buffer.store_cells_lt hdec (by rwa [Nat.zero_add])⟩,
    ⟨WordTable.setAll_bound hfreq (freqWords_lt _), WordTable.setAll_bound hnode (nodeWords_lt hb hle), hcode⟩,
    hpresent⟩

theorem failDecode_spacesBounded {s : State} (h : SpacesBounded s) (f : DecodeFailure) :
    SpacesBounded (failDecode s f) := by
  obtain ⟨-, hf⟩ | ⟨total, -, hf⟩ := failDecode_cases s f <;> rw [hf]
  · exact h
  · obtain ⟨⟨hmsg, hctr, hdec⟩, htables, hpresent⟩ := h
    exact ⟨⟨hmsg, hctr, Buffer.forgetBelow_cells_lt hdec _ _⟩, htables, hpresent⟩

theorem reportDecoded_spacesBounded {s : State} (h : SpacesBounded s) : SpacesBounded (reportDecoded s) := by
  obtain ⟨_, _, hr⟩ := reportDecoded_eq s
  rw [hr]
  exact h

theorem SpacesBounded.complete {s : State} (h : SpacesBounded s) (e : Option CodecError) :
    SpacesBounded (s.complete e) := h

/-- The container fits CTR because R104 checked it, the output fits DEC because the walk stops at TOTAL, and the table
words fit because a tree has at most 256 symbols. -/
theorem completionStep_spacesBounded {s : State} (h : SpacesBounded s) (c : Command) :
    SpacesBounded (completionStep c s) := by
  cases c with
  | encode =>
    obtain ⟨r, hr, hc⟩ | ⟨e, -, hc⟩ := completeEncode_cases s <;> simp only [completionStep, hc]
    · exact (applyEncode_spacesBounded h hr).complete _
    · exact (failEncode_spacesBounded h).complete _
  | decode =>
    obtain ⟨r, hr, hc⟩ | ⟨f, -, hc⟩ := completeDecode_cases s <;> simp only [completionStep, hc]
    · exact (applyDecode_spacesBounded h hr).complete _
    · exact (failDecode_spacesBounded h f).complete _
  | validate => exact h
  | verify =>
    obtain ⟨r, hr, hc⟩ | ⟨f, -, hc⟩ := completeVerify_cases s <;> simp only [completionStep, hc]
    · exact (reportDecoded_spacesBounded (applyDecode_spacesBounded h hr)).complete _
    · exact failDecode_spacesBounded h f

theorem resetInput_spacesBounded {s : State} (h : SpacesBounded s) : SpacesBounded s.resetInput := by
  obtain ⟨⟨hmsg, hctr, hdec⟩, -, -⟩ := h
  have hmem : s.resetInput.mem = s.resetMem := rfl
  obtain ⟨-, hb⟩ | ⟨c, -, hb⟩ := s.isBusy_cases <;> simp only [SpacesBounded, hmem, State.resetMem, hb]
  · exact ⟨⟨hmsg, hctr, hdec⟩, ⟨by simp, by simp, by simp⟩, .inl rfl⟩
  · exact ⟨⟨hmsg, by simp [Buffer.unspecified], by simp [Buffer.unspecified]⟩, ⟨by simp, by simp, by simp⟩, .inl rfl⟩

theorem spacesBounded_keptByParts : KeptByParts SpacesBounded where
  events _ _ h := h
  response _ _ h := h
  fresh _ h := h
  ignoreWrite _ _ _ h := h
  write _ _ _ _ hw h := hw.spacesBounded h
  complete _ c _ h := completionStep_spacesBounded h c
  reset _ h := resetInput_spacesBounded h

/-- Settles O51: a host write is checked against the capacity, a completion's stores and table words fit their spaces,
and CTR_PRESENT is only ever written 0, 1 or one bit. -/
theorem stepKeepsSpacesBounded : Obligations.StepKeepsSpacesBounded :=
  fun _ _ hs h => spacesBounded_keptByParts.step hs h

end Sys2Proof.Machine
end

section
/-! PROOFS. Every transaction and every step answers, reads have no side effect, and a repeated write that is none to
CMD changes nothing more (20_memory.md R53, R61, 70_reset_and_hazards.md R132). -/

namespace Sys2Proof.Machine

theorem exec_answers (i : Instr) (s : State) : ∃ t, exec i s = .next t := by
  obtain ⟨-, v, h, -⟩ | ⟨-, v, h⟩ | ⟨-, f, h, -⟩ := exec_cases i s <;> exact ⟨_, h⟩

theorem step_answers (s : State) : ∃ t, step s = .next t := by
  unfold step
  split
  · exact ⟨_, rfl⟩
  · exact exec_answers _ _
  · exact ⟨_, rfl⟩
  · exact ⟨_, rfl⟩

/-- Settles O7: an event is a transaction, which answers whatever it is, or a turn or a reset, which are functions. -/
theorem nothingFaultsOrIsRefused : Obligations.NothingFaultsOrIsRefused := ⟨exec_answers, step_answers⟩

/-! ### Repeated writes -/

@[simp] theorem setWign_idem (w : Word) : setWign (setWign w) = setWign w := by
  simp only [setWign, BitVec.or_assoc, BitVec.or_self]

theorem putCell_idem {α : Type} (l : List (Nat × α)) (a : Nat) (v : α) :
    putCell (putCell l a v) a v = putCell l a v := by
  induction l with
  | nil => simp [putCell]
  | cons x l ih =>
    obtain ⟨b, w⟩ := x
    by_cases hlt : a < b
    · simp [putCell, hlt]
    · by_cases heq : a = b
      · simp [putCell, heq]
      · simp [putCell, hlt, heq, ih]

theorem Buffer.hostSet_idem (b : Buffer) (cap i : Nat) (data : Word) :
    (b.hostSet cap i data).hostSet cap i data = b.hostSet cap i data := by
  unfold Buffer.hostSet
  split
  · simp only [Buffer.set, putCell_idem]
  · rfl

theorem Regs.hostWrite_idem (r : Regs) (i : Nat) (v : Word) : (r.hostWrite i v).hostWrite i v = r.hostWrite i v := by
  by_cases h : 5 ≤ i
  · simp only [Regs.hostWrite_of_ge _ _ h]
  · interval_cases i <;> rfl

/-- The effect of a write keeps the phase, and made again, whatever the port's response, it changes nothing more. -/
structure Repeatable (f : State → State) : Prop where
  phase : ∀ s, (f s).phase = s.phase
  again : ∀ s r, f ((f s).withResponse r) = (f s).withResponse r

theorem repeatable_id : Repeatable fun s => s := ⟨fun _ => rfl, fun _ _ => rfl⟩

theorem repeatable_regs (i : Nat) (v : Word) : Repeatable fun s => s.withRegs (s.regs.hostWrite i v) :=
  ⟨fun _ => rfl, fun s r => congrArg (fun q => (s.withRegs q).withResponse r) (s.regs.hostWrite_idem i v)⟩

theorem repeatable_msg (i : Nat) (v : Word) :
    Repeatable fun s => s.withMem { s.mem with msg := s.mem.msg.hostSet s.caps.msg i v } :=
  ⟨fun _ => rfl, fun s r => congrArg (fun b => (s.withMem { s.mem with msg := b }).withResponse r)
    (s.mem.msg.hostSet_idem s.caps.msg i v)⟩

theorem repeatable_ctr (i : Nat) (v : Word) :
    Repeatable fun s => s.withMem { s.mem with ctr := s.mem.ctr.hostSet s.caps.ctr i v } :=
  ⟨fun _ => rfl, fun s r => congrArg (fun b => (s.withMem { s.mem with ctr := b }).withResponse r)
    (s.mem.ctr.hostSet_idem s.caps.ctr i v)⟩

/-- A write that is none to CMD is a host write of one repeatable effect, the same in every state. -/
theorem exec_write_repeatable {i : Instr} (hw : i.isRead = false) (hc : ¬ isCommandWrite i) :
    ∃ f, Repeatable f ∧ ∀ s, exec i s = .next (s.hostWrite f) := by
  cases i with
  | encode | decode | validate | verify | badCommand => simp [isCommandWrite] at hc
  | regRd | msgRd | ctrRd | decRd | freqRd | nodeRd | codeRd | rsvRd => cases hw
  | regWr index data =>
    have h0 : index ≠ 0 := by rintro rfl; simp [isCommandWrite] at hc
    exact ⟨_, repeatable_regs index.toNat data, fun s => if_neg h0⟩
  | msgWr index data => exact ⟨_, repeatable_msg index.toNat data, fun s => rfl⟩
  | ctrWr index data => exact ⟨_, repeatable_ctr index.toNat data, fun s => rfl⟩
  | decWr | freqWr | nodeWr | codeWr | rsvWr => exact ⟨_, repeatable_id, fun s => rfl⟩

/-- While IDLE the effect is made again; while BUSY the write is ignored again, and WIGN is set already (R80). -/
theorem Repeatable.hostWrite_idem {f : State → State} (hf : Repeatable f) (s : State) :
    (s.hostWrite f).hostWrite f = s.hostWrite f := by
  obtain ⟨hp, -⟩ | ⟨c, hp, -⟩ := s.isBusy_cases
  · have hp' : ((f s).withResponse none).phase = .idle := (hf.phase s).trans hp
    rw [State.hostWrite_of_idle hp, State.hostWrite_of_idle hp', hf.again]
    rfl
  · have hp' : (s.ignoreWrite.withResponse none).phase = .busy c := hp
    rw [State.hostWrite_of_busy hp, State.hostWrite_of_busy hp']
    exact congrArg (fun w => (s.withRegs { s.regs with status := w }).withResponse none) (setWign_idem s.regs.status)

theorem exec_read_frame {i : Instr} {s t : State} (hr : i.isRead = true) (h : exec i s = .next t) :
    t = { s with response := t.response, fresh := t.fresh } := by
  obtain ⟨-, v, rfl⟩ | ⟨-, -, rfl⟩ | ⟨hw, -⟩ | ⟨hw, -⟩ := exec_next_cases h
  · rfl
  · rfl
  · exact absurd (hr.symm.trans hw) (by decide)
  · exact absurd (hr.symm.trans hw) (by decide)

/-- Settles O21: a read writes the response and at most draws a free value, and the effect of every write but those to
CMD is repeatable. -/
theorem readsAndRepeatedWritesAreHarmless : Obligations.ReadsAndRepeatedWritesAreHarmless := by
  refine ⟨fun i s t hr h => exec_read_frame hr h, fun i s t hw hc h => ?_⟩
  obtain ⟨f, hf, hexec⟩ := exec_write_repeatable hw hc
  rw [hexec] at h
  cases h
  rw [hexec, hf.hostWrite_idem]

end Sys2Proof.Machine
end

section
/-! PROOFS. Packets and instructions translate into each other without loss (30_encoding.md R68, R70). -/

namespace Sys2Proof

open Sys2Proof.Machine

/-! ### The decoder on the four fields of a packet (R68) -/

theorem decodePacket_make_read (space : BitVec 3) (index data : Word) :
    decodePacket (Packet.make false space index data) = decodeRead space index := by
  simp [decodePacket]

theorem decodePacket_make_write (space : BitVec 3) (index data : Word) :
    decodePacket (Packet.make true space index data) = decodeWrite space index data := by
  simp [decodePacket]

/-- A write to REG[0] is a CMD write (R82). -/
theorem decodePacket_make_cmd (data : Word) :
    decodePacket (Packet.make true 0 0 data) = decodeCommandWrite data :=
  decodePacket_make_write 0 0 data

theorem decodeCommandWrite_of_ne {v : Word} (h1 : v ≠ 1) (h2 : v ≠ 2) (h3 : v ≠ 3) (h4 : v ≠ 4) :
    decodeCommandWrite v = .badCommand v := by
  simp only [decodeCommandWrite, h1, h2, h3, h4, if_false]

theorem decodeCmd_of_ne {v : Word} (h1 : v ≠ 1) (h2 : v ≠ 2) (h3 : v ≠ 3) (h4 : v ≠ 4) : decodeCmd v = none := by
  simp only [decodeCmd, h1, h2, h3, h4, if_false]

theorem badCommand_wellFormed_iff {v : Word} :
    (Instr.badCommand v).wellFormed = true ↔ v ≠ 1 ∧ v ≠ 2 ∧ v ≠ 3 ∧ v ≠ 4 := by
  simp [Instr.wellFormed, and_assoc]

theorem regWr_wellFormed_iff {index data : Word} : (Instr.regWr index data).wellFormed = true ↔ index ≠ 0 := by
  simp [Instr.wellFormed]

/-- Settles O1: the decoder finds the fields the encoder placed, and they select the constructor again. Well-formedness
counts at the two constructors that share REG with the commands: BAD_COMMAND's word is none of 1 to 4, and REG_WR's
index is not CMD's. -/
theorem decodeEncodeRoundTrip : Obligations.DecodeEncodeRoundTrip := by
  intro i hi
  cases i with
  | encode | decode | validate | verify => exact decodePacket_make_cmd _
  | badCommand data =>
    obtain ⟨h1, h2, h3, h4⟩ := badCommand_wellFormed_iff.1 hi
    exact (decodePacket_make_cmd data).trans (decodeCommandWrite_of_ne h1 h2 h3 h4)
  | regWr index data =>
    calc decodePacket (Packet.make true 0 index data)
      _ = decodeRegWrite index data := decodePacket_make_write 0 index data
      _ = .regWr index data := if_neg (regWr_wellFormed_iff.1 hi)
  | regRd | msgRd | ctrRd | decRd | freqRd | nodeRd | codeRd | rsvRd => exact decodePacket_make_read _ _ 0
  | msgWr | ctrWr | decWr | freqWr | nodeWr | codeWr | rsvWr => exact decodePacket_make_write _ _ _

/-! ### The encoder on what was decoded (R68) -/

/-- `i` is the transaction of these packet fields: well-formed, a read exactly when W is 0, and encoded as them. -/
structure IsTransactionOf (i : Instr) (write : Bool) (space : BitVec 3) (index data : Word) : Prop where
  wellFormed : i.wellFormed = true
  isRead : i.isRead = !write
  encode : encodePacket i = Packet.make write space index data

/-- The eight space codes (R52). -/
theorem space_cases (space : BitVec 3) :
    space = 0 ∨ space = 1 ∨ space = 2 ∨ space = 3 ∨ space = 4 ∨ space = 5 ∨ space = 6 ∨ space = 7 := by
  revert space
  decide

theorem decodeRead_isTransactionOf (space : BitVec 3) (index : Word) :
    IsTransactionOf (decodeRead space index) false space index 0 := by
  obtain rfl | rfl | rfl | rfl | rfl | rfl | rfl | rfl := space_cases space <;> exact ⟨rfl, rfl, rfl⟩

theorem decodeCommandWrite_isTransactionOf (data : Word) :
    IsTransactionOf (decodeCommandWrite data) true 0 0 data := by
  obtain rfl | h1 := eq_or_ne data 1
  · exact ⟨rfl, rfl, rfl⟩
  obtain rfl | h2 := eq_or_ne data 2
  · exact ⟨rfl, rfl, rfl⟩
  obtain rfl | h3 := eq_or_ne data 3
  · exact ⟨rfl, rfl, rfl⟩
  obtain rfl | h4 := eq_or_ne data 4
  · exact ⟨rfl, rfl, rfl⟩
  rw [decodeCommandWrite_of_ne h1 h2 h3 h4]
  exact ⟨badCommand_wellFormed_iff.2 ⟨h1, h2, h3, h4⟩, rfl, rfl⟩

theorem decodeRegWrite_isTransactionOf (index data : Word) :
    IsTransactionOf (decodeRegWrite index data) true 0 index data := by
  unfold decodeRegWrite
  split
  · next h => subst h; exact decodeCommandWrite_isTransactionOf data
  · next h => exact ⟨regWr_wellFormed_iff.2 h, rfl, rfl⟩

theorem decodeWrite_isTransactionOf (space : BitVec 3) (index data : Word) :
    IsTransactionOf (decodeWrite space index data) true space index data := by
  obtain rfl | hspace := space_cases space
  · exact decodeRegWrite_isTransactionOf index data
  · obtain rfl | rfl | rfl | rfl | rfl | rfl | rfl := hspace <;> exact ⟨rfl, rfl, rfl⟩

/-- Settles O2: a packet is its four fields; a write encodes all of them, a read all but DATA. -/
theorem encodeDecodeGivesPacketBack : Obligations.EncodeDecodeGivesPacketBack := by
  intro p
  cases hw : p.writeBit with
  | false =>
    have hdec : decodePacket p = decodeRead p.space p.index := by simp [decodePacket, hw]
    rw [hdec]
    obtain ⟨hwf, hread, henc⟩ := decodeRead_isTransactionOf p.space p.index
    exact ⟨hwf, hread, henc⟩
  | true =>
    have hdec : decodePacket p = decodeWrite p.space p.index p.data := by simp [decodePacket, hw]
    rw [hdec]
    obtain ⟨hwf, hread, henc⟩ := decodeWrite_isTransactionOf p.space p.index p.data
    have hfields : Packet.make true p.space p.index p.data = p := hw ▸ Packet.make_fields p
    exact ⟨hwf, hread, henc.trans hfields⟩

/-! ### Packets of the spec, and the command word -/

/-- Settles O3: the decoder run on the ten packets. -/
theorem specPacketsDecode : Obligations.SpecPacketsDecode := by
  unfold Obligations.SpecPacketsDecode
  decide

/-- Settles O4: a write to REG[0] is decoded by the command word alone, and both decoders test it for 1 to 4. -/
theorem commandWordSelects : Obligations.CommandWordSelects := by
  intro v
  rw [decodePacket_make_cmd]
  refine ⟨?_, ?_, ?_, ?_, fun h1 h2 h3 h4 => ⟨decodeCommandWrite_of_ne h1 h2 h3 h4, decodeCmd_of_ne h1 h2 h3 h4⟩⟩ <;>
    (rintro rfl; exact ⟨rfl, rfl⟩)

end Sys2Proof
end

section
/-! PROOFS. ENCODE leaves the container of its message in CTR (20_memory.md R72, 42_encoder.md R103, R104). -/

namespace Sys2Proof.Machine

theorem encodeMessage_container {m : List Byte} {r : EncodeResult} (h : encodeMessage m = some r) :
    r.container = containerWrite (frequencyAnalyze m) (discardedBits r.bits.length) (bitPack r.bits) := by
  unfold encodeMessage at h
  split at h
  · cases h
  · cases h; rfl

/-- A successful ENCODE has found no count that two bytes cannot hold (R104). -/
theorem encodeBody_ok_count_le {s : State} {r : EncodeResult} (h : encodeBody s = .ok r) :
    ∀ e ∈ frequencyAnalyze (s.message s.regs.msgLen.toNat), e.count ≤ 65535 := by
  unfold encodeBody at h
  split at h
  · cases h
  split at h
  · cases h
  split at h
  · cases h
  next hnone =>
  intro e he
  simpa using List.find?_eq_none.1 hnone e he

theorem eq_getElem_of_map_range_eq {α : Type} {f : Nat → α} {l : List α} (h : (List.range l.length).map f = l)
    {i : Nat} (hi : i < l.length) : f i = l[i] := by
  have hget : ((List.range l.length).map f)[i]? = l[i]? := by rw [h]
  simpa [hi] using hget

/-- A present file whose bytes are those the writer wrote is that container in the layout of R72. -/
theorem holdsContainer_of_written {s : State} {t : FreqTable} {d : Nat} {p : List Byte}
    (hpresent : s.regs.present = true) (hcap : (containerWrite t d p).length ≤ s.caps.ctr)
    (hlen : s.regs.ctrLen.toNat = (containerWrite t d p).length)
    (hd : d < 256) (ht : t.length < 2 ^ 32) (hcount : ∀ e ∈ t, e.count < 2 ^ 16)
    (hbytes : ∀ i < (containerWrite t d p).length, s.mem.ctr.get i = (containerWrite t d p).getD i 0) :
    HoldsContainer s t (BitVec.ofNat 8 d) p := by
  obtain ⟨hn, hentries, hdiscard, hpayload⟩ := container_layout s.mem.ctr.get t d p hd ht hcount hbytes
  refine ⟨hpresent, hlen ▸ hcap, hlen.trans (containerWrite_length t d p), hn, fun i hi => ?_, ?_, fun i hi => ?_⟩
  · have hentry : entryAt s.mem.ctr.get i = t[i] := eq_getElem_of_map_range_eq hentries hi
    exact ⟨congrArg Entry.symbol hentry, congrArg Entry.count hentry⟩
  · rw [← hdiscard, BitVec.ofNat_toNat, BitVec.setWidth_eq]
  · exact eq_getElem_of_map_range_eq hpayload hi

theorem completeEncode_of_ok {s : State} {r : EncodeResult} (h : encodeBody s = .ok r) :
    completeEncode s = (applyEncode s r).complete none := by
  simp only [completeEncode, h]

/-- Settles O34: the checks of a successful ENCODE bound every field of the header, so what it stores from CTR[0] on
reads back as the container. -/
theorem encodeWritesContainer : Obligations.EncodeWritesContainer := by
  intro s r hlegal hr hphase
  obtain ⟨-, ⟨-, hctrCap⟩, -⟩ := hlegal
  obtain ⟨-, -, hmessage, hfits⟩ := encodeBody_ok hr
  have hcontainer := encodeMessage_container hmessage
  have hturn : engineTurn s = (applyEncode s r).complete none :=
    (engineTurn_of_busy hphase).trans (completeEncode_of_ok hr)
  have hctr : ∀ a, (engineTurn s).mem.ctr.get a = r.container.getD a (s.mem.ctr.get a) := fun a => by
    rw [hturn]; exact Buffer.get_store_zero _ _ _
  have hlen : (engineTurn s).regs.ctrLen.toNat = r.container.length := by
    rw [hturn]
    exact (BitVec.toNat_ofNat _ _).trans (Nat.mod_eq_of_lt (by omega))
  have hcaps : (engineTurn s).caps = s.caps := by rw [hturn]; rfl
  have hpresent : (engineTurn s).regs.present = true := by
    rw [hturn]
    show (1 : Word).getLsbD 0 = true
    decide
  rw [hcontainer] at hctr hlen hfits
  refine holdsContainer_of_written hpresent (hcaps ▸ hfits) hlen ?_ ?_ (fun e he => ?_) fun i hi => ?_
  · exact (discardedBits_lt _).trans (by decide)
  · exact (frequencyAnalyze_length_le _).trans_lt (by decide)
  · exact Nat.lt_succ_of_le (encodeBody_ok_count_le hr e he)
  · rw [hctr, List.getD_eq_getElem _ _ hi, List.getD_eq_getElem _ _ hi]

end Sys2Proof.Machine
end

section
/-! PROOFS. The host port while IDLE and while BUSY: what every read returns, what every write stores, what starts a
command, and what sets and clears WIGN (41_host_port.md R80 to R96). -/

namespace Sys2Proof.Machine

/-! ### A transaction by the phase (R80, R142) -/

/-- A host read while IDLE returns the element (R68). -/
theorem exec_hostRead_of_idle {i : Instr} {s : State} {v : Word} (hx : exec i s = .next (s.hostRead v))
    (h : s.phase = .idle) : exec i s = .next (s.respond v) := by
  rw [hx, State.hostRead_of_idle h]

/-- A host write while IDLE has its effect and returns nothing (R68). -/
theorem exec_hostWrite_of_idle {i : Instr} {s : State} {f : State → State} (hx : exec i s = .next (s.hostWrite f))
    (h : s.phase = .idle) : exec i s = .next ((f s).withResponse none) := by
  rw [hx, State.hostWrite_of_idle h]

/-- Any host write while BUSY is ignored but for WIGN (R80). -/
theorem exec_write_of_busy {i : Instr} {s : State} {c : Command} (h : s.phase = .busy c) (hi : i.isRead = false) :
    exec i s = .next (s.ignoreWrite.withResponse none) := by
  obtain ⟨hr, -⟩ | ⟨hr, -⟩ | ⟨-, f, hx, -⟩ := exec_cases i s
  · exact absurd (hr.symm.trans hi) (by decide)
  · exact absurd (hr.symm.trans hi) (by decide)
  · rw [hx, State.hostWrite_of_busy h]

/-! ### WIGN (R80) -/

theorem setWign_getLsbD_of_ne (w : Word) {k : Nat} (hk : k ≠ 2) : (setWign w).getLsbD k = w.getLsbD k := by
  rw [setWign, show (4 : Word) = BitVec.twoPow 32 2 from rfl, BitVec.getLsbD_or, BitVec.getLsbD_twoPow]
  simp [hk.symm]

/-- While IDLE a write leaves STATUS, or it is a CMD write, and STATUS is one without WIGN. -/
theorem WriteEffect.status {s u : State} {i : Instr} (hw : WriteEffect s i u) :
    u.regs.status = s.regs.status ∨ isCommandWrite i ∧ statusWign u.regs.status = false := by
  cases hw with
  | ignored | msg | ctr => exact .inl rfl
  | regs index data => exact .inl (Regs.hostWrite_status _ _ _)
  | bad _ hi => exact .inr ⟨hi, statusWign_pack ..⟩
  | start c _ hi => exact .inr ⟨hi, statusWign_pack ..⟩

/-- A transaction keeps WIGN, clears it as a CMD write while IDLE, or sets it as a write while BUSY. -/
theorem exec_statusWign {i : Instr} {s t : State} (h : exec i s = .next t) :
    statusWign t.regs.status = statusWign s.regs.status ∨
    (statusWign t.regs.status = false ∧ s.phase = .idle ∧ isCommandWrite i) ∨
    (statusWign t.regs.status = true ∧ (∃ c, s.phase = .busy c) ∧ i.isRead = false) := by
  obtain ⟨-, v, rfl⟩ | ⟨-, -, rfl⟩ | ⟨hi, hb, rfl⟩ | ⟨-, hp, u, hu, rfl⟩ := exec_next_cases h
  · exact .inl rfl
  · exact .inl rfl
  · obtain ⟨-, hidle⟩ | ⟨c, hc, -⟩ := s.isBusy_cases
    · exact absurd (hb.symm.trans hidle) (by decide)
    · exact .inr (.inr ⟨statusWign_setWign _, ⟨c, hc⟩, hi⟩)
  · obtain hs | ⟨hi, hs⟩ := hu.status
    · exact .inl (congrArg statusWign hs)
    · exact .inr (.inl ⟨hs, hp, hi⟩)

/-- The completion step leaves WIGN as it is (R126). -/
@[simp] theorem engineTurn_statusWign (s : State) :
    statusWign (engineTurn s).regs.status = statusWign s.regs.status := by
  cases h : s.phase with
  | idle => rw [engineTurn_of_idle h]
  | busy c =>
    obtain ⟨e, hs⟩ := completionStep_status c s
    rw [engineTurn_of_busy h, hs, statusWign_completionStatus]

theorem resetInput_statusWign (s : State) : statusWign s.resetInput.regs.status = false := by
  show statusWign 0 = false
  decide

/-- A step keeps WIGN, clears it by a reset or a CMD write while IDLE, or sets it by a host write while BUSY. -/
theorem step_statusWign {s t : State} (h : step s = .next t) :
    statusWign t.regs.status = statusWign s.regs.status ∨
    (statusWign t.regs.status = false ∧ ((∃ rest, s.events = .reset :: rest) ∨
      (s.phase = .idle ∧ ∃ p rest, s.events = .packet p :: rest ∧ isCommandWrite (decodePacket p)))) ∨
    (statusWign t.regs.status = true ∧ (∃ c, s.phase = .busy c) ∧
      ∃ p rest, s.events = .packet p :: rest ∧ (decodePacket p).isRead = false) := by
  obtain ⟨-, rfl⟩ | ⟨rest, -, rfl⟩ | ⟨rest, he, rfl⟩ | ⟨p, rest, he, hx⟩ := step_cases h
  · exact .inl (engineTurn_statusWign s)
  · exact .inl (engineTurn_statusWign _)
  · exact .inr (.inl ⟨resetInput_statusWign _, .inl ⟨rest, he⟩⟩)
  · obtain hsame | ⟨hclear, hp, hi⟩ | ⟨hset, hb, hi⟩ := exec_statusWign hx
    · exact .inl hsame
    · exact .inr (.inl ⟨hclear, .inr ⟨hp, p, rest, he, hi⟩⟩)
    · exact .inr (.inr ⟨hset, hb, p, rest, he, hi⟩)

/-- Settles O10: every write while BUSY is the same ignored write, and by the kinds of step only that one raises WIGN
and only a reset or a CMD write while IDLE lowers it. -/
theorem busyWriteOnlySetsWign : Obligations.BusyWriteOnlySetsWign := by
  refine ⟨fun i s c h hi => ⟨exec_write_of_busy h hi, statusWign_setWign _, fun k hk => setWign_getLsbD_of_ne _ hk⟩,
    fun s t h => ?_⟩
  obtain hsame | ⟨hclear, hwhy⟩ | ⟨hset, hwhy⟩ := step_statusWign h
  · exact ⟨fun hs => .inl (hsame.trans hs), fun hs ht => absurd (ht.symm.trans (hsame.trans hs)) (by decide)⟩
  · exact ⟨fun _ => .inr hwhy, fun _ ht => absurd (ht.symm.trans hclear) (by decide)⟩
  · exact ⟨fun _ => .inl hset, fun _ _ => hwhy⟩

/-! ### Byte buffers at the port (R83 to R88) -/

theorem storedByte_eq_setWidth (v : Word) : storedByte v = v.setWidth 8 :=
  BitVec.setWidth_eq_extractLsb' (by decide) |>.symm

theorem Buffer.hostGet_hostSet_self (b : Buffer) {cap i : Nat} (h : i < cap) (v : Word) :
    (b.hostSet cap i v).hostGet cap i = (v.setWidth 8).setWidth 32 := by
  rw [Buffer.hostGet, if_pos h, Buffer.get_hostSet, if_pos ⟨rfl, h⟩, storedByte_eq_setWidth]

theorem Buffer.hostGet_hostSet_of_ne (b : Buffer) (cap : Nat) {i j : Nat} (h : i ≠ j) (v : Word) :
    (b.hostSet cap i v).hostGet cap j = b.hostGet cap j := by
  have hget : (b.hostSet cap i v).get j = b.get j := by rw [Buffer.get_hostSet, if_neg fun hij => h hij.1]
  rw [Buffer.hostGet, hget, Buffer.hostGet]

/-- A space that reads as the buffer `b` before a write and as `b` with the byte stored after it: the written index
reads back DATA[7:0], every other index reads as before. -/
theorem reads_of_hostSet {rd : Word → Instr} {s t : State} {b : Buffer} {cap : Nat} {i v : Word} (hi : i.toNat < cap)
    (hs : ∀ j, exec (rd j) s = .next (s.respond (b.hostGet cap j.toNat)))
    (ht : ∀ j, exec (rd j) t = .next (t.respond ((b.hostSet cap i.toNat v).hostGet cap j.toNat))) (j : Word) :
    exec (rd i) t = .next (t.respond ((v.setWidth 8).setWidth 32)) ∧
      (j ≠ i → ∃ r, exec (rd j) s = .next (s.respond r) ∧ exec (rd j) t = .next (t.respond r)) := by
  refine ⟨?_, fun hj => ⟨_, hs j, ?_⟩⟩
  · rw [ht, Buffer.hostGet_hostSet_self b hi]
  · have hne : i.toNat ≠ j.toNat := fun h => hj (BitVec.eq_of_toNat_eq h.symm)
    rw [ht, Buffer.hostGet_hostSet_of_ne b cap hne]

theorem exec_msgRd_of_idle {s : State} (h : s.phase = .idle) (i : Word) :
    exec (.msgRd i) s = .next (s.respond (s.mem.msg.hostGet s.caps.msg i.toNat)) :=
  exec_hostRead_of_idle rfl h

theorem exec_ctrRd_of_idle {s : State} (h : s.phase = .idle) (i : Word) :
    exec (.ctrRd i) s = .next (s.respond (s.mem.ctr.hostGet s.caps.ctr i.toNat)) :=
  exec_hostRead_of_idle rfl h

/-- After a write to MSG while IDLE, MSG reads as its buffer with the byte stored (R83, R84). -/
theorem exec_msgRd_of_msgWr {s t : State} (h : s.phase = .idle) {i v : Word} (hx : exec (.msgWr i v) s = .next t)
    (j : Word) :
    exec (.msgRd j) t = .next (t.respond ((s.mem.msg.hostSet s.caps.msg i.toNat v).hostGet s.caps.msg j.toNat)) := by
  cases hx.symm.trans (exec_hostWrite_of_idle rfl h)
  rw [exec_msgRd_of_idle]
  · rfl
  · exact h

/-- After a write to CTR while IDLE, CTR reads as its buffer with the byte stored (R85, R86). -/
theorem exec_ctrRd_of_ctrWr {s t : State} (h : s.phase = .idle) {i v : Word} (hx : exec (.ctrWr i v) s = .next t)
    (j : Word) :
    exec (.ctrRd j) t = .next (t.respond ((s.mem.ctr.hostSet s.caps.ctr i.toNat v).hostGet s.caps.ctr j.toNat)) := by
  cases hx.symm.trans (exec_hostWrite_of_idle rfl h)
  rw [exec_ctrRd_of_idle]
  · rfl
  · exact h

/-- Settles O18: MSG and CTR both read at the port as their buffer, before the write and after it. -/
theorem writeThenRead : Obligations.WriteThenRead := by
  refine fun s t i j v hp => ⟨fun hx hi => ?_, fun hx hi => ?_⟩
  · exact reads_of_hostSet hi (exec_msgRd_of_idle hp) (exec_msgRd_of_msgWr hp hx) j
  · exact reads_of_hostSet hi (exec_ctrRd_of_idle hp) (exec_ctrRd_of_ctrWr hp hx) j

/-- Settles O16: MSG_RD, CTR_RD and DEC_RD are host reads of `Buffer.hostGet`. -/
theorem byteBufferReads : Obligations.ByteBufferReads :=
  fun _ i h => ⟨exec_msgRd_of_idle h i, exec_ctrRd_of_idle h i, exec_hostRead_of_idle rfl h⟩

/-- The bytes of a buffer after a host write, with the byte named by DATA (R84, R86). -/
theorem Buffer.get_hostSet_setWidth (b : Buffer) (cap i a : Nat) (v : Word) :
    (b.hostSet cap i v).get a = if a = i ∧ a < cap then v.setWidth 8 else b.get a := by
  have hiff : (i = a ∧ i < cap) ↔ (a = i ∧ a < cap) := by omega
  rw [Buffer.get_hostSet, storedByte_eq_setWidth, if_congr hiff rfl rfl]

/-- Settles O17: MSG_WR and CTR_WR are host writes of `Buffer.hostSet`. -/
theorem byteBufferWrites : Obligations.ByteBufferWrites := by
  refine ⟨fun i v => ⟨?_, ?_⟩, fun s i v h => ⟨?_, ?_⟩, fun s i v c h => ⟨?_, ?_⟩⟩
  · exact decodePacket_make_write 1 i v
  · exact decodePacket_make_write 2 i v
  · exact ⟨_, exec_hostWrite_of_idle rfl h, fun a => Buffer.get_hostSet_setWidth _ _ _ a v, rfl⟩
  · exact ⟨_, exec_hostWrite_of_idle rfl h, fun a => Buffer.get_hostSet_setWidth _ _ _ a v, rfl⟩
  · exact exec_write_of_busy h rfl
  · exact exec_write_of_busy h rfl

/-! ### Tables, and the spaces the host cannot write (R88 to R96) -/

/-- Settles O19: FREQ_RD, NODE_RD and CODE_RD are host reads of `WordTable.hostGet`, RSV_RD is one of 0. -/
theorem tableReads : Obligations.TableReads :=
  fun _ _ h => ⟨exec_hostRead_of_idle rfl h, exec_hostRead_of_idle rfl h, exec_hostRead_of_idle rfl h,
    exec_hostRead_of_idle rfl h⟩

/-- Settles O20: the five writes are host writes whose effect is none. -/
theorem readOnlySpacesIgnoreWrites : Obligations.ReadOnlySpacesIgnoreWrites := by
  refine ⟨fun i v => ?_, fun s i v w hw => ?_⟩
  · simp only [decodePacket_make_write]
    exact ⟨rfl, rfl, rfl, rfl, rfl⟩
  · have heffect : exec w s = .next (s.hostWrite fun s => s) ∧ w.isRead = false := by
      obtain rfl | rfl | rfl | rfl | rfl := hw <;> exact ⟨rfl, rfl⟩
    obtain ⟨hx, hread⟩ := heffect
    exact ⟨fun h => exec_hostWrite_of_idle hx h, fun c h => exec_write_of_busy h hread⟩

/-! ### Registers at the port (R81, R82) -/

/-- Settles O12: a read while IDLE is exact at every index, and the map of R23 is `State.regImage` word by word. -/
theorem regReadReturnsRegister : Obligations.RegReadReturnsRegister := by
  refine fun s i h => ⟨_, exec_regRd_of_idle h i, ?_⟩
  and_intros
  on_goal 23 => exact s.readReg_of_ge
  all_goals (rintro rfl; rfl)

/-- Only MSG_LEN, CTR_LEN and CTR_PRESENT store what is written to them (R82). -/
theorem Regs.hostWrite_of_ne (r : Regs) {i : Nat} (v : Word) (h2 : i ≠ 2) (h3 : i ≠ 3) (h4 : i ≠ 4) :
    r.hostWrite i v = r := by
  unfold Regs.hostWrite
  split
  · exact absurd rfl h2
  · exact absurd rfl h3
  · exact absurd rfl h4
  · rfl

/-- Settles O15: by the index; bit 0 of DATA, as CTR_PRESENT stores it, is 0 or 1. -/
theorem regWriteStores : Obligations.RegWriteStores := by
  intro s i v h hi
  rw [exec_regWr_of_idle h hi]
  refine ⟨?_, ?_, ?_, fun h2 h3 h4 => ?_⟩
  · rintro rfl; rfl
  · rintro rfl; rfl
  · rintro rfl
    rw [← storedPresent_eq]
    rfl
  · rw [Regs.hostWrite_of_ne _ _ (fun h => h2 (BitVec.eq_of_toNat_eq h)) (fun h => h3 (BitVec.eq_of_toNat_eq h))
      (fun h => h4 (BitVec.eq_of_toNat_eq h))]
    rfl

/-! ### Command start (R82, R51) -/

theorem startStatus_eq_one : startStatus = 1 := by decide

theorem exec_startingWrite (c : Command) (s : State) :
    exec (startingWrite c) s = .next (s.hostWrite fun s => s.startCommand c) := by
  cases c <;> rfl

/-- A word that names a command decodes to the write that starts it, and any other word to BAD_COMMAND (R70). -/
theorem decodeCommandWrite_eq (v : Word) :
    decodeCommandWrite v = (decodeCmd v).elim (.badCommand v) startingWrite := by
  unfold decodeCommandWrite decodeCmd
  split_ifs <;> rfl

/-- The REG_WR meaning at index 0 is the CMD write its word decodes to (R82; log 12). -/
theorem exec_regWr_zero (v : Word) (s : State) : exec (.regWr 0 v) s = exec (decodeCommandWrite v) s := by
  have hx : exec (.regWr 0 v) s = .next (s.hostWrite fun s => s.writeCmd v) := rfl
  rw [hx, decodeCommandWrite_eq]
  unfold State.writeCmd
  cases decodeCmd v with
  | none => rfl
  | some c => exact (exec_startingWrite c s).symm

/-- Settles O22: the CMD write of a command is a host write of `State.startCommand`, which clears the result state. -/
theorem commandStart : Obligations.CommandStart := by
  refine ⟨fun s v => ?_, fun s c h => ⟨_, exec_hostWrite_of_idle (exec_startingWrite c s) h, ?_⟩⟩
  · rw [decodePacket_make_cmd, exec_regWr_zero]
  · refine ⟨rfl, ?_, fun i => ⟨rfl, rfl, rfl⟩, rfl, rfl, rfl, rfl, rfl, rfl, rfl⟩
    rw [← startStatus_eq_one]
    rfl

end Sys2Proof.Machine
end

section
/-! PROOFS. The frequency table in first-seen order (42_encoder.md R97), and packing (R102). -/

namespace Sys2Proof.Machine

theorem frequencyAnalyze_concat (m : List Byte) (x : Byte) :
    frequencyAnalyze (m ++ [x]) = countSymbol (frequencyAnalyze m) x :=
  List.foldl_concat ..

theorem mem_frequencyAnalyze_symbols {m : List Byte} {x : Byte} :
    x ∈ FreqTable.symbols (frequencyAnalyze m) ↔ x ∈ m :=
  ((frequencyAnalyze_counts m).2.2 x).symm

theorem frequencyAnalyze_count {m : List Byte} {e : Entry} (he : e ∈ frequencyAnalyze m) :
    e.count = m.count e.symbol :=
  (frequencyAnalyze_counts m).2.1 e he

theorem frequencyAnalyze_symbol_mem {m : List Byte} {e : Entry} (he : e ∈ frequencyAnalyze m) : e.symbol ∈ m :=
  mem_frequencyAnalyze_symbols.1 (List.mem_map_of_mem he)

/-- The symbols stand in the order of their first occurrences: a new last symbol that the message had before moves no
first occurrence, and one it had not stands behind all others. -/
theorem frequencyAnalyze_firstSeen (m : List Byte) :
    (FreqTable.symbols (frequencyAnalyze m)).Pairwise (fun x y => m.idxOf x < m.idxOf y) := by
  induction m using List.reverseRecOn with
  | nil => exact List.Pairwise.nil
  | append_singleton m x ih =>
    have hold : ∀ y ∈ FreqTable.symbols (frequencyAnalyze m), (m ++ [x]).idxOf y = m.idxOf y := fun y hy =>
      List.idxOf_append_of_mem (mem_frequencyAnalyze_symbols.1 hy)
    have hfront : (FreqTable.symbols (frequencyAnalyze m)).Pairwise
        (fun y z => (m ++ [x]).idxOf y < (m ++ [x]).idxOf z) :=
      ih.imp_of_mem fun hy hz h => by rwa [hold _ hy, hold _ hz]
    rw [frequencyAnalyze_concat, countSymbol_symbols]
    split
    next => exact hfront
    next hx =>
      have hxm : x ∉ m := fun h => hx (mem_frequencyAnalyze_symbols.2 h)
      refine List.pairwise_append.2 ⟨hfront, List.pairwise_singleton _ _, fun y hy z hz => ?_⟩
      rw [List.mem_singleton.1 hz, hold y hy, List.idxOf_append_of_notMem hxm, List.idxOf_cons_self]
      exact List.idxOf_lt_length_of_mem (mem_frequencyAnalyze_symbols.1 hy)

/-- Settles O25: the table counts its message, in first-seen order by induction on the message. -/
theorem frequencyTableCounts : Obligations.FrequencyTableCounts := by
  refine fun m => ⟨frequencyAnalyze_firstSeen m, fun e he => ?_, fun x => mem_frequencyAnalyze_symbols.symm,
    frequencyAnalyze_total m, fun hm => ?_⟩
  · have hcount := frequencyAnalyze_count he
    exact ⟨hcount, hcount ▸ List.count_pos_iff.2 (frequencyAnalyze_symbol_mem he)⟩
  · exact ⟨List.length_pos_iff.2 (frequencyAnalyze_ne_nil hm), frequencyAnalyze_length_le m⟩

theorem discardedBits_eq_zero_iff (n : Nat) : discardedBits n = 0 ↔ n % 8 = 0 := by
  unfold discardedBits
  omega

/-- Settles O29: the padded string is a whole number of bytes, which pack and unpack to themselves. -/
theorem packingPadsWithZeros : Obligations.PackingPadsWithZeros := by
  intro e
  have hpad := discardedBits_pad e.length
  refine ⟨bitPack_length e, Nat.le_of_lt_succ (discardedBits_lt _), ?_, discardedBits_eq_zero_iff _,
    flatMap_bin8_bitPack e⟩
  rw [bitPack_length]
  omega

end Sys2Proof.Machine
end

section
/-! PROOFS. The tree of a table, merge by merge (42_encoder.md R98). -/

namespace Sys2Proof.Machine

/-! ### The node table -/

/-- A node table numbered in order lists each of its nodes at its number (R98). -/
theorem getElem?_seq_iff {nodes : List Tree} (h : nodes.map Tree.seq = List.range nodes.length) {k : Nat} {n : Tree} :
    nodes[k]? = some n ↔ n ∈ nodes ∧ n.seq = k := by
  have hat : ∀ {i : Nat} {u : Tree}, nodes[i]? = some u → u.seq = i := by
    intro i u hi
    obtain ⟨hlt, -⟩ := List.getElem?_eq_some_iff.1 hi
    have hget : (nodes.map Tree.seq)[i]? = (List.range nodes.length)[i]? := by rw [h]
    rw [List.getElem?_map, hi, List.getElem?_range hlt] at hget
    exact Option.some.inj hget
  constructor
  · exact fun hk => ⟨List.mem_of_getElem? hk, hat hk⟩
  · rintro ⟨hn, rfl⟩
    obtain ⟨i, hi⟩ := List.getElem?_of_mem hn
    rwa [hat hi]

/-- In such a table a number names one node. -/
theorem eq_of_seq_eq {nodes : List Tree} (h : nodes.map Tree.seq = List.range nodes.length) {n u : Tree}
    (hn : n ∈ nodes) (hu : u ∈ nodes) (hs : n.seq = u.seq) : n = u :=
  List.inj_on_of_nodup_map (h ▸ List.nodup_range) hn hu hs

/-- The nodes numbered below `k` are the first `k` of the table. -/
theorem mem_take_seq_iff {nodes : List Tree} (h : nodes.map Tree.seq = List.range nodes.length) {k : Nat} {n : Tree} :
    n ∈ nodes.take k ↔ n.seq < k ∧ nodes[n.seq]? = some n := by
  constructor
  · intro hn
    obtain ⟨i, hi⟩ := List.getElem?_of_mem hn
    rw [List.getElem?_take] at hi
    split at hi
    next hik =>
      obtain ⟨-, rfl⟩ := (getElem?_seq_iff h).1 hi
      exact ⟨hik, hi⟩
    next => cases hi
  · rintro ⟨hk, hn⟩
    rw [← List.getElem?_take_of_lt hk] at hn
    exact List.mem_of_getElem? hn

theorem leavesFrom_getElem? (n : Nat) (t : FreqTable) (k : Nat) :
    (leavesFrom n t)[k]? = t[k]?.map fun e => .leaf (n + k) e.symbol e.count := by
  induction t generalizing n k with
  | nil => rfl
  | cons e t ih =>
    cases k with
    | zero => rfl
    | succ k => simp only [leavesFrom, List.getElem?_cons_succ, ih, Nat.add_right_comm, Nat.add_assoc]

/-! ### The queue -/

/-- A node of the table that is no child of an inner node in it: what the queue of R98 holds. -/
def Queued (nodes : List Tree) (n : Tree) : Prop :=
  n ∈ nodes ∧ ∀ s f l r, Tree.internal s f l r ∈ nodes → n ≠ l ∧ n ≠ r

/-- `p` is the node the merge of R98 adds to the table `nodes`: it joins the two least queued nodes. -/
def JoinsLeast (nodes : List Tree) (p : Tree) : Prop :=
  ∃ l r : Tree, p = .internal nodes.length (l.freq + r.freq) l r ∧ Queued nodes l ∧ Queued nodes r ∧
    l.before r = true ∧ ∀ n, Queued nodes n → n ≠ l → n ≠ r → r.before n = true

/-- The queue of the merge loop lists each queued node once. -/
def QueueInv (nodes q : List Tree) : Prop := q.Nodup ∧ ∀ n, n ∈ q ↔ Queued nodes n

/-- Of two nodes with different numbers one comes before the other (R98). -/
theorem Tree.before_of_not_before {a b : Tree} (h : b.before a = false) (hs : a.seq ≠ b.seq) : a.before b = true := by
  simp only [Tree.before, Bool.or_eq_true, Bool.and_eq_true, decide_eq_true_eq, Bool.or_eq_false_iff,
    Bool.and_eq_false_iff, decide_eq_false_iff_not] at h ⊢
  omega

theorem queueInv_leaves (t : FreqTable) : QueueInv (leavesFrom 0 t) (leavesFrom 0 t) := by
  refine ⟨List.Nodup.of_map Tree.seq (leavesFrom_seqs 0 t ▸ List.nodup_range'), fun n => ?_⟩
  refine ⟨fun hn => ⟨hn, fun s f l r hi => ?_⟩, And.left⟩
  obtain ⟨_, _, _, hleaf⟩ := leavesFrom_mem hi
  cases hleaf

/-- Extracting twice takes two different nodes from the queue. -/
theorem extractMin_twice {q q1 q2 : List Tree} {a b : Tree} (h1 : extractMin q = some (a, q1))
    (h2 : extractMin q1 = some (b, q2)) : q.Perm (a :: b :: q2) :=
  (extractMin_perm h1).trans ((extractMin_perm h2).cons a)

theorem MergeInv.seq_lt {t : FreqTable} {nodes q : List Tree} (h : MergeInv t nodes q) {n : Tree} (hn : n ∈ nodes) :
    n.seq < nodes.length :=
  List.mem_range.1 (h.seqs ▸ List.mem_map_of_mem hn)

/-- What is queued, as the two extracted nodes and the rest. -/
theorem QueueInv.queued_iff {nodes q q1 q2 : List Tree} {a b : Tree} (hq : QueueInv nodes q)
    (h1 : extractMin q = some (a, q1)) (h2 : extractMin q1 = some (b, q2)) (n : Tree) :
    Queued nodes n ↔ n = a ∨ n = b ∨ n ∈ q2 := by
  rw [← hq.2, (extractMin_twice h1 h2).mem_iff, List.mem_cons, List.mem_cons]

/-- Adding a node that joins `a` and `b` queues it and takes `a` and `b` from the queue. -/
theorem queued_append_iff {t : FreqTable} {nodes q : List Tree} (hm : MergeInv t nodes q) {f : Nat} {a b : Tree}
    (ha : a ∈ nodes) (hb : b ∈ nodes) (n : Tree) :
    Queued (nodes ++ [.internal nodes.length f a b]) n ↔
      n = .internal nodes.length f a b ∨ Queued nodes n ∧ n ≠ a ∧ n ≠ b := by
  have hold : ∀ {u : Tree}, u ∈ nodes → Tree.internal nodes.length f a b ≠ u := by
    rintro _ hu rfl
    exact Nat.lt_irrefl _ (hm.seq_lt hu)
  constructor
  · rintro ⟨hn, hchild⟩
    obtain hn | hn := List.mem_append.1 hn
    · exact .inr ⟨⟨hn, fun s g l r hi => hchild s g l r (List.mem_append_left _ hi)⟩,
        hchild _ _ _ _ List.mem_concat_self⟩
    · exact .inl (List.mem_singleton.1 hn)
  · rintro (rfl | ⟨⟨hn, hchild⟩, hna, hnb⟩)
    · refine ⟨List.mem_concat_self, fun s g l r hi => ?_⟩
      obtain hi | hi := List.mem_append.1 hi
      · obtain ⟨hl, hr⟩ := hm.children _ hi s g l r rfl
        exact ⟨hold hl, hold hr⟩
      · cases List.mem_singleton.1 hi
        exact ⟨hold ha, hold hb⟩
    · refine ⟨List.mem_append_left _ hn, fun s g l r hi => ?_⟩
      obtain hi | hi := List.mem_append.1 hi
      · exact hchild s g l r hi
      · cases List.mem_singleton.1 hi
        exact ⟨hna, hnb⟩

/-- A merge takes its two children from the queue and puts the new node in. -/
theorem QueueInv.merge {t : FreqTable} {nodes q q1 q2 : List Tree} {a b : Tree} (hm : MergeInv t nodes q)
    (hq : QueueInv nodes q) (h1 : extractMin q = some (a, q1)) (h2 : extractMin q1 = some (b, q2)) :
    QueueInv (nodes ++ [.internal nodes.length (a.freq + b.freq) a b])
      (.internal nodes.length (a.freq + b.freq) a b :: q2) := by
  have hqueued := hq.queued_iff h1 h2
  have hnodup := (extractMin_twice h1 h2).nodup_iff.1 hq.1
  obtain ⟨ha, hb, hnodup2⟩ : (a ≠ b ∧ a ∉ q2) ∧ b ∉ q2 ∧ q2.Nodup := by
    simpa only [List.nodup_cons, List.mem_cons, not_or] using hnodup
  have hrest : ∀ n ∈ q2, Queued nodes n := fun n hn => (hqueued n).2 (.inr (.inr hn))
  refine ⟨List.nodup_cons.2 ⟨fun hp => Nat.lt_irrefl _ (hm.seq_lt (hrest _ hp).1), hnodup2⟩, fun n => ?_⟩
  rw [queued_append_iff hm ((hqueued a).2 (.inl rfl)).1 ((hqueued b).2 (.inr (.inl rfl))).1, List.mem_cons]
  refine or_congr_right ⟨fun hn => ⟨hrest n hn, ?_, ?_⟩, ?_⟩
  · rintro rfl; exact ha.2 hn
  · rintro rfl; exact hb hn
  · rintro ⟨hn, hna, hnb⟩
    exact ((hqueued n).1 hn).resolve_left hna |>.resolve_left hnb

/-- What a merge adds joins the two least nodes of the queue: extraction takes a least one, and no two nodes of the
table share a number. -/
theorem QueueInv.joinsLeast {t : FreqTable} {nodes q q1 q2 : List Tree} {a b : Tree} (hm : MergeInv t nodes q)
    (hq : QueueInv nodes q) (h1 : extractMin q = some (a, q1)) (h2 : extractMin q1 = some (b, q2)) :
    JoinsLeast nodes (.internal nodes.length (a.freq + b.freq) a b) := by
  have hqueued := hq.queued_iff h1 h2
  have hbefore : ∀ {u v : Tree}, Queued nodes u → Queued nodes v → u ≠ v → v.before u = false → u.before v = true :=
    fun hu hv huv h => Tree.before_of_not_before h fun hs => huv (eq_of_seq_eq hm.seqs hu.1 hv.1 hs)
  have ha := (hqueued a).2 (.inl rfl)
  have hb := (hqueued b).2 (.inr (.inl rfl))
  have hab : a ≠ b := by
    rintro rfl
    exact (List.nodup_cons.1 ((extractMin_twice h1 h2).nodup_iff.1 hq.1)).1 List.mem_cons_self
  refine ⟨a, b, rfl, ha, hb, hbefore ha hb hab ?_, fun n hn hna hnb => hbefore hb hn hnb.symm ?_⟩
  · exact extractMin_least h1 b ((extractMin_perm h2).mem_iff.2 List.mem_cons_self)
  · exact extractMin_least h2 n (((hqueued n).1 hn).resolve_left hna |>.resolve_left hnb)

/-! ### The loop -/

theorem mergeLoop_prefix (k : Nat) (nodes q : List Tree) : nodes <+: (mergeLoop k nodes q).1 := by
  induction k generalizing nodes q with
  | zero => exact List.prefix_rfl
  | succ k ih =>
    rw [mergeLoop]
    split
    · exact List.prefix_rfl
    · split
      · exact List.prefix_rfl
      · exact (List.prefix_append _ _).trans (ih _ _)

/-- Every node the loop adds joins the two least nodes queued before it. -/
theorem mergeLoop_joinsLeast {t : FreqTable} (k : Nat) {nodes q : List Tree} (hm : MergeInv t nodes q)
    (hq : QueueInv nodes q) {j : Nat} (hj : nodes.length ≤ j) {p : Tree}
    (hp : (mergeLoop k nodes q).1[j]? = some p) : JoinsLeast ((mergeLoop k nodes q).1.take j) p := by
  have hstop : ∀ {nodes : List Tree}, nodes.length ≤ j → nodes[j]? ≠ some p := fun hj => by simp [hj]
  induction k generalizing nodes q with
  | zero => exact absurd hp (hstop hj)
  | succ k ih =>
    rw [mergeLoop] at hp ⊢
    split at hp
    · exact absurd hp (hstop hj)
    next a q1 h1 =>
    split at hp
    · exact absurd hp (hstop hj)
    next b q2 h2 =>
    obtain hlt | rfl := hj.lt_or_eq
    · exact ih (hm.merge h1 h2) (hq.merge hm h1 h2) (by simpa using hlt) hp
    · obtain ⟨rest, hrest⟩ := mergeLoop_prefix k (nodes ++ [.internal nodes.length (a.freq + b.freq) a b])
        (.internal nodes.length (a.freq + b.freq) a b :: q2)
      rw [← hrest, List.append_assoc] at hp ⊢
      rw [List.take_left]
      rw [List.getElem?_append_right le_rfl, Nat.sub_self] at hp
      cases hp
      exact hq.joinsLeast hm h1 h2

theorem treeBuild_nodes {t : FreqTable} {b : Built} (h : treeBuild t = some b) :
    b.nodes = (mergeLoop t.length (leavesFrom 0 t) (leavesFrom 0 t)).1 := by
  unfold treeBuild at h
  split at h
  next hloop => cases h; rw [hloop]
  · cases h

/-- Node `k` of a built tree, from the first inner node on, joins the two least nodes queued below `k` (R98). -/
theorem treeBuild_joinsLeast {t : FreqTable} {b : Built} (h : treeBuild t = some b) {k : Nat} (hk : t.length ≤ k)
    {p : Tree} (hp : b.nodes[k]? = some p) : JoinsLeast (b.nodes.take k) p := by
  rw [treeBuild_nodes h] at hp ⊢
  exact mergeLoop_joinsLeast _ (mergeInv_leaves t) (queueInv_leaves t) (by rwa [leavesFrom_length]) hp

/-- The queue before node `k` was made, read off the finished table. -/
theorem queued_take_iff {nodes : List Tree} (h : nodes.map Tree.seq = List.range nodes.length) (k : Nat) (n : Tree) :
    Queued (nodes.take k) n ↔ n.seq < k ∧ nodes[n.seq]? = some n ∧
      ∀ m < k, ∀ f l r, nodes[m]? = some (.internal m f l r) → n ≠ l ∧ n ≠ r := by
  rw [← and_assoc, ← mem_take_seq_iff h]
  refine and_congr_right fun _ => ⟨fun hc m hm f l r hi => ?_, fun hc s f l r hi => ?_⟩
  · exact hc m f l r ((mem_take_seq_iff h).2 ⟨hm, hi⟩)
  · obtain ⟨hs, hi⟩ := (mem_take_seq_iff h).1 hi
    exact hc s hs f l r hi

/-- Settles O26: the queue of the merge loop is the set of nodes without a parent, at every round. -/
theorem treeOfATable : Obligations.TreeOfATable := by
  intro t ht
  obtain ⟨b, hb, hbuilt⟩ := treeBuild_spec ht
  obtain ⟨ms, hnodes, -⟩ := hbuilt.split
  refine ⟨b, hb, hbuilt.length, ?_, fun k hk => ?_, fun k hk hk2 => ?_⟩
  · exact (getElem?_seq_iff hbuilt.seqs).2 ⟨hbuilt.root_mem, hbuilt.root_seq⟩
  · rw [hnodes, List.getElem?_append_left (by rwa [leavesFrom_length]), leavesFrom_getElem?,
      List.getElem?_eq_getElem hk, Nat.zero_add]
    rfl
  · have hlt : k < b.nodes.length := by rwa [hbuilt.length]
    obtain ⟨l, r, hp, hl, hr, hlr, hleast⟩ := treeBuild_joinsLeast hb hk (List.getElem?_eq_getElem hlt)
    rw [List.length_take_of_le hlt.le] at hp
    simp only [queued_take_iff hbuilt.seqs] at hl hr hleast
    exact ⟨l, r, by rw [List.getElem?_eq_getElem hlt, hp], hl, hr, hlr, hleast⟩

end Sys2Proof.Machine
end

section
/-! PROOFS. The codes of a tree and the length of a payload (42_encoder.md R100, R101). -/

namespace Sys2Proof.Machine

/-! ### Codes -/

theorem Tree.leaves_length_pos (t : Tree) : 0 < t.leaves.length := by
  induction t with
  | leaf => exact Nat.one_pos
  | internal s f l r ihl ihr => rw [Tree.leaves, List.length_append]; omega

/-- Each step down a path leaves at least one leaf aside. -/
theorem Tree.follow_length_add_leaves_le {t u : Tree} {q : Bits} (h : t.follow q = some u) :
    q.length + u.leaves.length ≤ t.leaves.length := by
  induction q generalizing t with
  | nil =>
    obtain rfl : t = u := by simpa using h
    simp
  | cons b q ih =>
    cases t with
    | leaf => cases h
    | internal s f l r =>
      have hl := l.leaves_length_pos
      have hr := r.leaves_length_pos
      rw [Tree.leaves, List.length_append, List.length_cons]
      cases b with
      | false => have hq := ih (t := l) h; omega
      | true => have hq := ih (t := r) h; omega

theorem codeGen_bits_length_lt {t : Tree} (ht : 2 ≤ t.leaves.length) {c : Code} (h : c ∈ codeGen t) :
    c.bits.length < t.leaves.length := by
  cases t with
  | leaf => exact absurd ht (Nat.not_succ_le_self 1)
  | internal s f l r =>
    obtain ⟨s', f', hf⟩ := (mem_codeGen_internal s f l r c).1 h
    exact Tree.follow_length_add_leaves_le hf

/-- No code is the start of another (R19). -/
theorem eq_of_codeGen_prefix {t : Tree} {c k : Code} (hc : c ∈ codeGen t) (hk : k ∈ codeGen t)
    (h : c.bits <+: k.bits) : c = k := by
  cases t with
  | leaf => rw [List.mem_singleton.1 hc, List.mem_singleton.1 hk]
  | internal s f l r =>
    obtain ⟨_, _, hfc⟩ := (mem_codeGen_internal s f l r c).1 hc
    obtain ⟨_, _, hfk⟩ := (mem_codeGen_internal s f l r k).1 hk
    obtain ⟨q, hq⟩ := h
    obtain rfl := Tree.follow_leaf_maximal hfc (hq ▸ hfk)
    rw [List.append_nil] at hq
    obtain ⟨x, bits⟩ := c
    obtain ⟨y, bits'⟩ := k
    cases hq
    cases hfc.symm.trans hfk
    rfl

/-- Walking a code of a tree with distinct symbols emits its symbol alone (R111). -/
theorem walk_codeGen {t : Tree} (hn : t.symbols.Nodup) {c : Code} (hc : c ∈ codeGen t) :
    walk t 1 c.bits t [] = .ok [c.symbol] := by
  rw [Tree.symbols, ← codeGen_symbols] at hn
  have hsym : c.symbol ∈ t.symbols := by
    rw [Tree.symbols, ← codeGen_symbols]
    exact List.mem_map_of_mem hc
  have hcode := codeOf_eq hn hc
  have hwalk := walk_code t 1 [] c.symbol [] hsym Nat.one_pos
  rwa [hcode, List.append_nil, walk_end] at hwalk

/-- Settles O27: a code is the path to its leaf, so it ends at a leaf, and a path passes fewer inner nodes than there
are leaves. -/
theorem codesArePrefixFree : Obligations.CodesArePrefixFree := by
  intro t b hb hnodup
  obtain ⟨-, hbuilt⟩ := treeBuild_some hb
  have hsym : b.root.symbols.Perm (t.map Entry.symbol) := hbuilt.leaves.map _
  have hlen : b.root.leaves.length = t.length := hbuilt.leaves.length_eq
  refine ⟨codeGen_symbols b.root ▸ hsym, fun c hc => ⟨codeGen_bits_ne_nil hc, ?_⟩,
    fun c hc k hk => eq_of_codeGen_prefix hc hk, fun c hc h2 => ?_, ?_⟩
  · exact walk_codeGen (hsym.nodup_iff.2 hnodup) hc
  · have hlt := codeGen_bits_length_lt (hlen.symm ▸ h2) hc
    omega
  · rintro x n rfl
    cases hb
    rfl

/-! ### The payload -/

/-- A sum over a message is a sum over its table, weighted by the counts (R97). -/
theorem Counts.sum_map {t : FreqTable} {m : List Byte} (h : Counts t m) (f : Byte → Nat) :
    (m.map f).sum = (t.map fun e => e.count * f e.symbol).sum := by
  obtain ⟨hnodup, hcount, hmem⟩ := h
  have hfinset : m.toFinset = (FreqTable.symbols t).toFinset := by ext x; simp only [List.mem_toFinset, hmem]
  rw [Finset.sum_list_map_count, hfinset, List.sum_toFinset _ hnodup, List.map_map]
  refine congrArg List.sum (List.map_congr_left fun e he => ?_)
  rw [hcount e he]
  rfl

/-- Every symbol of a message has a code in the tree of its table, and it is not empty (R100). -/
theorem codeOf_mem_codeGen {m : List Byte} {b : Built} (hb : treeBuild (frequencyAnalyze m) = some b) {x : Byte}
    (hx : x ∈ m) : ⟨x, codeOf (codeGen b.root) x⟩ ∈ codeGen b.root := by
  obtain ⟨-, hbuilt⟩ := treeBuild_some hb
  refine codeOf_mem ?_
  rw [codeGen_symbols, (hbuilt.leaves.map _).mem_iff]
  exact mem_frequencyAnalyze_symbols.2 hx

/-- Settles O28: the payload is the codes of the message's symbols, one after the other, and no code is empty. -/
theorem payloadLength : Obligations.PayloadLength := by
  intro m b hb
  have hlen : (payloadBits m (codeGen b.root)).length = (m.map fun x => (codeOf (codeGen b.root) x).length).sum :=
    List.length_flatMap
  rw [hlen]
  refine ⟨(frequencyAnalyze_counts m).sum_map _, ?_⟩
  have hone : ∀ n ∈ m.map (fun x => (codeOf (codeGen b.root) x).length), 1 ≤ n := by
    intro n hn
    obtain ⟨x, hx, rfl⟩ := List.mem_map.1 hn
    exact List.length_pos_iff.2 (codeGen_bits_ne_nil (codeOf_mem_codeGen hb hx))
  simpa using List.length_le_sum_of_one_le _ hone

end Sys2Proof.Machine
end

section
/-! PROOFS. What ENCODE completes with: its errors in their order, its registers and container, and that they depend on
the message and two capacities alone (42_encoder.md R104, R105, 60_exceptions.md R125). -/

namespace Sys2Proof.Machine

/-! ### The checks of the body (R104) -/

theorem encodeBody_of_empty {s : State} (h : s.regs.msgLen = 0) : encodeBody s = .error .emptyInput :=
  if_pos h

theorem encodeBody_of_long {s : State} (h0 : s.regs.msgLen ≠ 0) (h : s.caps.msg < s.regs.msgLen.toNat) :
    encodeBody s = .error (.capacity .msg) := by
  rw [encodeBody, if_neg h0, if_pos h]

theorem encodeBody_of_overflow {s : State} {e : Entry} (h0 : s.regs.msgLen ≠ 0)
    (hmsg : s.regs.msgLen.toNat ≤ s.caps.msg)
    (h : (frequencyAnalyze (s.message s.regs.msgLen.toNat)).find? (fun e => 65535 < e.count) = some e) :
    encodeBody s = .error (.overflow e.symbol) := by
  simp only [encodeBody, if_neg h0, if_neg (Nat.not_lt.2 hmsg), h]

/-- With every count in two bytes there is a result, and CTR_CAP alone is left to check. -/
theorem encodeBody_of_counts {s : State} {r : EncodeResult} (h0 : s.regs.msgLen ≠ 0)
    (hmsg : s.regs.msgLen.toNat ≤ s.caps.msg)
    (hcount : ∀ x ∈ s.message s.regs.msgLen.toNat, (s.message s.regs.msgLen.toNat).count x ≤ 65535)
    (hr : encodeMessage (s.message s.regs.msgLen.toNat) = some r) :
    encodeBody s = if s.caps.ctr < r.container.length then .error (.capacity .ctr) else .ok r := by
  have hnone : (frequencyAnalyze (s.message s.regs.msgLen.toNat)).find? (fun e => 65535 < e.count) = none := by
    refine List.find?_eq_none.2 fun e he => ?_
    rw [frequencyAnalyze_count he, decide_eq_true_iff, Nat.not_lt]
    exact hcount _ (frequencyAnalyze_symbol_mem he)
  simp only [encodeBody, if_neg h0, if_neg (Nat.not_lt.2 hmsg), hnone, hr]

/-- The body reads MSG_LEN, the message, MSG_CAP and CTR_CAP, and nothing else (R105). -/
theorem encodeBody_congr {s t : State} (hlen : s.regs.msgLen = t.regs.msgLen) (hmsg : s.caps.msg = t.caps.msg)
    (hctr : s.caps.ctr = t.caps.ctr) (hm : s.message s.regs.msgLen.toNat = t.message s.regs.msgLen.toNat) :
    encodeBody s = encodeBody t := by
  unfold encodeBody
  rw [hm, hlen, hmsg, hctr]

theorem message_congr {s t : State} {n : Nat} (h : ∀ i, i < n → s.mem.msg.get i = t.mem.msg.get i) :
    s.message n = t.message n :=
  List.map_congr_left fun i hi => h i (List.mem_range.1 hi)

/-! ### The message's container -/

theorem encodeMessage_isSome {m : List Byte} (h : m ≠ []) : ∃ r, encodeMessage m = some r := by
  obtain ⟨b, hb, -⟩ := treeBuild_spec (frequencyAnalyze_ne_nil h)
  simp only [encodeMessage, hb]
  exact ⟨_, rfl⟩

theorem encodeMessage_codes {m : List Byte} {r : EncodeResult} (h : encodeMessage m = some r) :
    r.codes = codeGen r.built.root := by
  unfold encodeMessage at h
  split at h
  · cases h
  · cases h; rfl

theorem encodedSize_eq {m : List Byte} {r : EncodeResult} (h : encodeMessage m = some r) :
    encodedSize m = r.container.length := by
  rw [encodeMessage_container h, containerWrite_length, bitPack_length, ← (encodeMessage_some h).1]
  simp only [encodedSize, h]

theorem State.message_ne_nil (s : State) (h : s.regs.msgLen ≠ 0) : s.message s.regs.msgLen.toNat ≠ [] := by
  have hlen : s.regs.msgLen.toNat ≠ 0 := fun h0 => h (BitVec.eq_of_toNat_eq h0)
  simpa [State.message] using hlen

/-! ### Errors -/

theorem completeEncode_of_error {s : State} {e : CodecError} (h : encodeBody s = .error e) :
    completeEncode s = (failEncode s).complete (some e) := by
  simp only [completeEncode, h]

/-- The whole state a failing ENCODE leaves (R104, R124, R126). -/
theorem engineTurn_of_encodeBody_error {s : State} {e : CodecError} (hp : s.phase = .busy .encode)
    (h : encodeBody s = .error e) :
    engineTurn s =
      { s with
        phase := .idle
        regs := { s.regs with
          status := packStatus false true (statusWign s.regs.status) e.code e.detail
          ctrLen := 0
          ctrPresent := 0 } } :=
  (engineTurn_of_busy hp).trans (completeEncode_of_error h)

/-- The entry the overflow check finds is that of the first symbol of the message that occurs too often: the table
stands in first-seen order (R97, R104). -/
theorem find?_frequencyAnalyze {m : List Byte} {x : Byte} {n : Nat} (hx : x ∈ m) (hn : n < m.count x)
    (hfirst : ∀ y ∈ m, n < m.count y → m.idxOf x ≤ m.idxOf y) :
    ∃ e, (frequencyAnalyze m).find? (fun e => n < e.count) = some e ∧ e.symbol = x := by
  obtain ⟨k, hk, rfl⟩ := List.mem_map.1 (mem_frequencyAnalyze_symbols.2 hx)
  rw [← frequencyAnalyze_count hk] at hn
  have hsome : ((frequencyAnalyze m).find? fun e => n < e.count).isSome :=
    List.find?_isSome.2 ⟨k, hk, decide_eq_true hn⟩
  obtain ⟨e, he⟩ := Option.isSome_iff_exists.1 hsome
  refine ⟨e, he, ?_⟩
  obtain ⟨hcount, as, bs, htable, hbefore⟩ := List.find?_eq_some_iff_append.1 he
  have hem : e ∈ frequencyAnalyze m := List.mem_of_find?_eq_some he
  rw [decide_eq_true_iff, frequencyAnalyze_count hem] at hcount
  have hle := hfirst e.symbol (frequencyAnalyze_symbol_mem hem) hcount
  have horder := List.pairwise_map.1 (frequencyAnalyze_firstSeen m)
  rw [htable] at hk horder
  obtain hk | hk := List.mem_append.1 hk
  · exact absurd hn (by simpa using hbefore k hk)
  obtain rfl | hk := List.mem_cons.1 hk
  · rfl
  · have hlt := (List.pairwise_cons.1 (List.pairwise_append.1 horder).2.1).1 k hk
    omega

/-- Settles O31: each clause makes one check of the body fail and those before it pass, and every failure is written by
`failEncode` and the completion step. -/
theorem encodeErrorsInOrder : Obligations.EncodeErrorsInOrder := by
  refine fun s hp => ⟨fun h0 => ?_, fun h0 hlong => ?_, fun h0 hmsg x hx hover hfirst => ?_,
    fun h0 hmsg hcount hctr => ?_⟩
  · rw [engineTurn_of_encodeBody_error hp (encodeBody_of_empty h0)]
    rfl
  · rw [engineTurn_of_encodeBody_error hp (encodeBody_of_long h0 hlong)]
    rfl
  · obtain ⟨e, he, rfl⟩ := find?_frequencyAnalyze hx hover hfirst
    rw [engineTurn_of_encodeBody_error hp (encodeBody_of_overflow h0 hmsg he)]
    rfl
  · obtain ⟨r, hr⟩ := encodeMessage_isSome (s.message_ne_nil h0)
    have hbody := encodeBody_of_counts h0 hmsg hcount hr
    rw [if_pos (encodedSize_eq hr ▸ hctr)] at hbody
    rw [engineTurn_of_encodeBody_error hp hbody]
    rfl

/-! ### Success -/

theorem engineTurn_of_encodeBody_ok {s : State} {r : EncodeResult} (hp : s.phase = .busy .encode)
    (h : encodeBody s = .ok r) : engineTurn s = (applyEncode s r).complete none :=
  (engineTurn_of_busy hp).trans (completeEncode_of_ok h)

/-- The bytes of CTR after a successful ENCODE: the container's, and beyond them the old ones (R104). -/
theorem applyEncode_ctr_get (s : State) (r : EncodeResult) (a : Nat) :
    (applyEncode s r).mem.ctr.get a = r.container.getD a (s.mem.ctr.get a) :=
  Buffer.get_store_zero _ a _

/-- Settles O32: the checks pass on the started machine as on the IDLE one, since the start keeps MSG_LEN and MSG; the
registers `applyEncode` does not write are those the start cleared. -/
theorem encodeCommits : Obligations.EncodeCommits := by
  intro s hp h0 hmsg hcount hsize
  obtain ⟨r, hr⟩ := encodeMessage_isSome (s.message_ne_nil h0)
  have hbody : encodeBody ((s.startCommand .encode).withResponse none) = .ok r := by
    have hstart : encodeBody ((s.startCommand .encode).withResponse none) = encodeBody s :=
      encodeBody_congr rfl rfl rfl rfl
    rw [hstart, encodeBody_of_counts h0 hmsg (fun x _ => hcount x) hr,
      if_neg (Nat.not_lt.2 (encodedSize_eq hr ▸ hsize))]
  obtain ⟨-, hroot⟩ := treeBuild_root_seq (encodeMessage_some hr).2
  refine ⟨_, r, exec_hostWrite_of_idle rfl hp, rfl, hr, ?_⟩
  rw [engineTurn_of_encodeBody_ok rfl hbody, ← hroot]
  refine ⟨rfl, ?_, applyEncode_ctr_get _ r, rfl, rfl, rfl, rfl, rfl⟩
  have hstatus : completionStatus none startStatus = packStatus false true false 0 0 := by decide
  rw [← hstatus]
  rfl

/-- Settles O35: the body has the same outcome on both started machines, and its outcome alone, with MSG_LEN, decides
what is written over a cleared result state. -/
theorem encodeIsDeterministic : Obligations.EncodeIsDeterministic := by
  intro s t hlen hmsg hctr hbytes
  have hbody : encodeBody (s.startCommand .encode) = encodeBody (t.startCommand .encode) :=
    encodeBody_congr hlen hmsg hctr (message_congr hbytes)
  obtain ⟨r, hr, hs⟩ | ⟨e, he, hs⟩ := completeEncode_cases (s.startCommand .encode)
  · have ht := completeEncode_of_ok (hbody ▸ hr)
    simp only [runCommand, completionStep, hs, ht]
    refine ⟨?_, rfl, rfl, rfl, fun i hi => ?_⟩
    · simp only [State.complete_regs, applyEncode, State.withRegs_regs, State.startCommand_regs, Regs.clearResults,
        hlen]
    · have hlt : i < r.container.length := by
        have hmod : i < r.container.length % 2 ^ 32 := hi
        exact hmod.trans_le (Nat.mod_le _ _)
      simp only [State.complete_mem, applyEncode_ctr_get, List.getD_eq_getElem _ _ hlt]
  · have ht := completeEncode_of_error (hbody ▸ he)
    simp only [runCommand, completionStep, hs, ht]
    refine ⟨?_, rfl, rfl, rfl, fun i hi => absurd hi (Nat.not_lt_zero i)⟩
    simp only [State.complete_regs, failEncode, State.withRegs_regs, State.startCommand_regs, Regs.clearResults, hlen]

end Sys2Proof.Machine
end

section
/-! PROOFS. The words ENCODE leaves in FREQ, NODE and CODE (10_state.md R46 to R48, 42_encoder.md R104). -/

namespace Sys2Proof.Machine

/-- A word reads as `v` after a list of writes that writes it, and writes it nothing else. -/
theorem WordTable.get_setAll_of_unique (t : WordTable) {l : List (Nat × Word)} {j : Nat} {v : Word} (h : (j, v) ∈ l)
    (hu : ∀ y ∈ l, y.1 = j → y.2 = v) : WordTable.get (WordTable.setAll t l) j = v := by
  induction l generalizing t with
  | nil => cases h
  | cons y l ih =>
    rw [WordTable.setAll]
    by_cases hl : (j, v) ∈ l
    · exact ih _ hl fun z hz => hu z (List.mem_cons_of_mem _ hz)
    · obtain rfl : (j, v) = y := (List.mem_cons.1 h).resolve_right hl
      rw [WordTable.get_setAll_of_not_mem, WordTable.get_set, if_pos rfl]
      rintro ⟨i, w⟩ hz rfl
      exact hl (hu _ (List.mem_cons_of_mem _ hz) rfl ▸ hz)

/-! ### FREQ (R46) -/

theorem get_freqWords {t : FreqTable} {m : List Byte} (h : Counts t m) (x : Byte) :
    WordTable.get (WordTable.setAll [] (freqWords t)) x.toNat = BitVec.ofNat 32 (m.count x) := by
  obtain ⟨-, hcount, hmem⟩ := h
  by_cases hx : x ∈ m
  · obtain ⟨e, he, rfl⟩ := List.mem_map.1 ((hmem x).1 hx)
    refine WordTable.get_setAll_of_unique _ (List.mem_map.2 ⟨e, he, by rw [hcount e he]⟩) fun y hy hi => ?_
    obtain ⟨k, hk, rfl⟩ := List.mem_map.1 hy
    rw [hcount k hk, BitVec.eq_of_toNat_eq hi]
  · rw [List.count_eq_zero_of_not_mem hx]
    refine WordTable.get_setAll_of_not_mem _ _ _ fun y hy hi => ?_
    obtain ⟨k, hk, rfl⟩ := List.mem_map.1 hy
    exact hx ((hmem x).2 (BitVec.eq_of_toNat_eq hi ▸ List.mem_map_of_mem hk))

/-! ### NODE (R47) -/

theorem mem_nodeWords {nodes : List Tree} {y : Nat × Word} :
    y ∈ nodeWords nodes ↔
      ∃ n ∈ nodes, y = (2 * n.seq, BitVec.ofNat 32 n.freq) ∨ y = (2 * n.seq + 1, n.infoWord) := by
  simp only [nodeWords, List.mem_flatMap, List.mem_cons, List.not_mem_nil, or_false]

/-- In a table numbered in order every node has its two words to itself. -/
theorem get_nodeWords {nodes : List Tree} (h : nodes.map Tree.seq = List.range nodes.length) {n : Tree}
    (hn : n ∈ nodes) :
    WordTable.get (WordTable.setAll [] (nodeWords nodes)) (2 * n.seq) = BitVec.ofNat 32 n.freq ∧
      WordTable.get (WordTable.setAll [] (nodeWords nodes)) (2 * n.seq + 1) = n.infoWord := by
  constructor
  · refine WordTable.get_setAll_of_unique _ (mem_nodeWords.2 ⟨n, hn, .inl rfl⟩) fun y hy hi => ?_
    obtain ⟨u, hu, rfl | rfl⟩ := mem_nodeWords.1 hy
    · rw [eq_of_seq_eq h hu hn (Nat.eq_of_mul_eq_mul_left Nat.two_pos hi)]
    · have hodd : 2 * u.seq + 1 = 2 * n.seq := hi
      omega
  · refine WordTable.get_setAll_of_unique _ (mem_nodeWords.2 ⟨n, hn, .inr rfl⟩) fun y hy hi => ?_
    obtain ⟨u, hu, rfl | rfl⟩ := mem_nodeWords.1 hy
    · have heven : 2 * u.seq = 2 * n.seq + 1 := hi
      omega
    · rw [eq_of_seq_eq h hu hn (Nat.eq_of_mul_eq_mul_left Nat.two_pos (Nat.succ.inj hi))]

theorem get_nodeWords_of_ge {t : FreqTable} {b : Built} (hb : BuiltFrom t b) {j : Nat} (hj : 2 * b.nodes.length ≤ j) :
    WordTable.get (WordTable.setAll [] (nodeWords b.nodes)) j = 0 := by
  refine WordTable.get_setAll_of_not_mem _ _ _ fun y hy => ?_
  obtain ⟨n, hn, rfl | rfl⟩ := mem_nodeWords.1 hy
  · have hlt := hb.seq_lt hn
    show 2 * n.seq ≠ j
    omega
  · have hlt := hb.seq_lt hn
    show 2 * n.seq + 1 ≠ j
    omega

theorem getLsbD_ofNat_of_lt {w i : Nat} (h : i < w) (n : Nat) : (BitVec.ofNat w n).getLsbD i = n.testBit i := by
  rw [BitVec.getLsbD_ofNat, decide_eq_true h, Bool.true_and]

theorem nodeBits_leaf (s f : Nat) (x : Byte) : NodeBits (Tree.leaf s x f).infoWord (.leaf s x f) := by
  have hbit := Tree.infoWord_leaf_getLsbD s f x
  refine ⟨fun i hi => ?_, fun i hi => ?_, fun i hi => ?_, ?_, ?_⟩
  · rw [hbit i (by omega), decide_eq_false (by omega : ¬ i = 31), decide_eq_false (by omega : ¬ 18 ≤ i)]
    rfl
  · rw [hbit _ (by omega), decide_eq_false (by omega : ¬ 18 + i = 31), decide_eq_true (by omega : 18 ≤ 18 + i),
      Nat.add_sub_cancel_left]
    rfl
  · rw [hbit _ (by omega), decide_eq_false (by omega : ¬ 26 + i = 31), BitVec.getLsbD_of_ge _ _ (by omega),
      Bool.and_false]
    rfl
  · rw [hbit _ (by omega), BitVec.getLsbD_of_ge _ _ (by omega)]
    rfl
  · rw [hbit _ (by omega)]
    rfl

theorem nodeBits_internal (s f : Nat) {l r : Tree} (hl : l.seq < 512) (hr : r.seq < 512) :
    NodeBits (Tree.internal s f l r).infoWord (.internal s f l r) := by
  have hbit : ∀ i < 30, (Tree.internal s f l r).infoWord.getLsbD i =
      (decide (9 ≤ i) && (BitVec.ofNat 9 r.seq).getLsbD (i - 9) || (BitVec.ofNat 9 l.seq).getLsbD i) := fun i hi => by
    rw [Tree.infoWord_internal_getLsbD s f l r i (by omega), decide_eq_false (by omega : ¬ i = 31),
      decide_eq_false (by omega : ¬ i = 30), Bool.or_self, Bool.false_or]
  refine ⟨⟨hl, fun i hi => ?_⟩, ⟨hr, fun i hi => ?_⟩, fun i hi => ?_, ?_, ?_⟩
  · rw [hbit i (by omega), decide_eq_false (by omega : ¬ 9 ≤ i), getLsbD_ofNat_of_lt hi]
    rfl
  · rw [hbit _ (by omega), decide_eq_true (by omega : 9 ≤ 9 + i), Nat.add_sub_cancel_left, getLsbD_ofNat_of_lt hi,
      BitVec.getLsbD_of_ge _ _ (by omega), Bool.or_false]
    rfl
  · rw [hbit _ (by omega), BitVec.getLsbD_of_ge _ _ (by omega), BitVec.getLsbD_of_ge _ _ (by omega), Bool.and_false]
    rfl
  · rw [Tree.infoWord_internal_getLsbD _ _ _ _ _ (by omega)]
    rfl
  · rw [Tree.infoWord_internal_getLsbD _ _ _ _ _ (by omega)]
    rfl

/-- The nodes of a tree of at most 256 symbols have numbers that their parents' fields hold. -/
theorem BuiltFrom.nodeBits {t : FreqTable} {b : Built} (h : BuiltFrom t b) (hle : t.length ≤ 256) {n : Tree}
    (hn : n ∈ b.nodes) : NodeBits n.infoWord n := by
  cases n with
  | leaf s x f => exact nodeBits_leaf s f x
  | internal s f l r =>
    have hlt : ∀ {u : Tree}, u ∈ b.nodes → u.seq < 512 := fun hu => by
      have := h.length ▸ h.seq_lt hu
      omega
    obtain ⟨hl, hr⟩ := h.children _ hn s f l r rfl
    exact nodeBits_internal s f (hlt hl) (hlt hr)

/-! ### CODE (R48) -/

theorem bitsToNat_testBit {g : Bits} {i : Nat} (h : i < g.length) :
    (bitsToNat g).testBit (g.length - 1 - i) = g.getD i false := by
  induction g generalizing i with
  | nil => cases h
  | cons b g ih =>
    rw [bitsToNat, Nat.mul_comm, Nat.testBit_two_pow_mul_add _ (bitsToNat_lt g), List.length_cons, Nat.add_sub_cancel]
    cases i with
    | zero => cases b <;> simp
    | succ i =>
      rw [List.length_cons] at h
      rw [if_pos (by omega), List.getD_cons_succ, ← ih (by omega)]
      congr 1
      omega

theorem codeWord_getLsbD (bits : Bits) (j : Nat) {i : Nat} (hi : i < 32) :
    (codeWord bits j).getLsbD (31 - i) = bits.getD (32 * j + i) false := by
  have hbit := bitsToNat_testBit (g := (List.range 32).map fun i => bits.getD (32 * j + i) false) (i := i) (by simpa)
  rw [codeWord, getLsbD_ofNat_of_lt (by omega)]
  simpa [hi] using hbit

/-- Word `i` of a code in its block of CODE: its length, then its bits (R48). -/
def Code.word (c : Code) : Nat → Word
  | 0 => BitVec.ofNat 32 c.bits.length
  | j + 1 => codeWord c.bits j

theorem Code.words_eq (c : Code) : c.words = (List.range 9).map fun i => (16 * c.symbol.toNat + i, c.word i) := rfl

theorem mem_codeWords {c : List Code} {y : Nat × Word} :
    y ∈ codeWords c ↔ ∃ k ∈ c, ∃ i < 9, y = (16 * k.symbol.toNat + i, k.word i) := by
  simp only [codeWords, List.mem_flatMap, Code.words_eq, List.mem_map, List.mem_range, eq_comm]

/-- A CODE index names one symbol and one word of its block. -/
theorem codeIndex_inj {x y : Byte} {i j : Nat} (hi : i < 16) (hj : j < 16)
    (h : 16 * x.toNat + i = 16 * y.toNat + j) : x = y ∧ i = j :=
  ⟨BitVec.eq_of_toNat_eq (by omega), by omega⟩

theorem get_codeWords {c : List Code} (hn : (c.map Code.symbol).Nodup) {k : Code} (hk : k ∈ c) {i : Nat} (hi : i < 9) :
    WordTable.get (WordTable.setAll [] (codeWords c)) (16 * k.symbol.toNat + i) = k.word i := by
  refine WordTable.get_setAll_of_unique _ (mem_codeWords.2 ⟨k, hk, i, hi, rfl⟩) fun y hy hj => ?_
  obtain ⟨u, hu, j, hj9, rfl⟩ := mem_codeWords.1 hy
  obtain ⟨hsym, rfl⟩ := codeIndex_inj (by omega) (by omega) hj
  rw [List.inj_on_of_nodup_map hn hu hk hsym]

/-- The words of a block that no code fills are 0. -/
theorem get_codeWords_eq_zero {c : List Code} {x : Byte} {j : Nat} (hj : j < 16)
    (h : ∀ k ∈ c, k.symbol = x → 9 ≤ j) :
    WordTable.get (WordTable.setAll [] (codeWords c)) (16 * x.toNat + j) = 0 := by
  refine WordTable.get_setAll_of_not_mem _ _ _ fun y hy hi => ?_
  obtain ⟨k, hk, i, hi9, rfl⟩ := mem_codeWords.1 hy
  obtain ⟨hsym, rfl⟩ := codeIndex_inj (by omega) hj hi
  exact absurd (h k hk hsym) (by omega)

/-! ### The tables after ENCODE (R104) -/

/-- The codes of an encoded message are of its symbols, one each (R100). -/
theorem encodeMessage_codes_symbols {m : List Byte} {r : EncodeResult} (h : encodeMessage m = some r) :
    (r.codes.map Code.symbol).Perm (FreqTable.symbols (frequencyAnalyze m)) := by
  obtain ⟨ht, hb⟩ := encodeMessage_some h
  obtain ⟨-, hbuilt⟩ := treeBuild_some hb
  rw [encodeMessage_codes h, codeGen_symbols, ← ht]
  exact hbuilt.leaves.map _

/-- Settles O33: the tables were empty, and what ENCODE writes into each names every index at most once. -/
theorem encodeFillsTables : Obligations.EncodeFillsTables := by
  intro s r hr hp hclear m t
  obtain ⟨-, hmem⟩ := hclear (State.isBusy_of_busy hp)
  obtain ⟨-, -, hmessage, -⟩ := encodeBody_ok hr
  obtain ⟨hb, hle⟩ := encodeBody_ok_tree hr
  obtain ⟨-, hbuilt⟩ := treeBuild_some hb
  have hcodes := encodeMessage_codes_symbols hmessage
  have hnodup : (r.codes.map Code.symbol).Nodup := hcodes.nodup_iff.2 (frequencyAnalyze_counts _).1
  have hturn : t = (applyEncode s r).complete none := engineTurn_of_encodeBody_ok hp hr
  have hfreq : t.mem.freq = WordTable.setAll [] (freqWords (frequencyAnalyze m)) := by
    rw [hturn, ← (encodeMessage_some hmessage).1]
    exact congrArg (fun u : Memory => WordTable.setAll u.freq _) hmem
  have hnode : t.mem.node = WordTable.setAll [] (nodeWords r.built.nodes) := by
    rw [hturn]
    exact congrArg (fun u : Memory => WordTable.setAll u.node _) hmem
  have hcode : t.mem.code = WordTable.setAll [] (codeWords r.codes) := by
    rw [hturn]
    exact congrArg (fun u : Memory => WordTable.setAll u.code _) hmem
  rw [hfreq, hnode, hcode]
  refine ⟨get_freqWords (frequencyAnalyze_counts m), fun k hk => ?_, fun j => get_nodeWords_of_ge hbuilt,
    fun c hc => ⟨get_codeWords hnodup hc (i := 0) (by decide), fun j hj i hi => ?_, fun j hj9 hj => ?_⟩,
    fun x hx j hj => ?_⟩
  · obtain ⟨hn, hseq⟩ := (getElem?_seq_iff hbuilt.seqs).1 (List.getElem?_eq_getElem hk)
    obtain ⟨hfreqWord, hinfo⟩ := get_nodeWords hbuilt.seqs hn
    rw [hseq] at hfreqWord hinfo
    exact ⟨hfreqWord, hinfo ▸ hbuilt.nodeBits hle hn⟩
  · rw [Nat.add_assoc, Nat.add_comm 1 j, get_codeWords hnodup hc (by omega)]
    exact codeWord_getLsbD c.bits j hi
  · exact get_codeWords_eq_zero hj fun _ _ _ => hj9
  · refine get_codeWords_eq_zero hj fun k hk hsym => absurd ?_ hx
    exact mem_frequencyAnalyze_symbols.1 (hcodes.mem_iff.1 (hsym ▸ List.mem_map_of_mem hk))

end Sys2Proof.Machine
end

section
/-! PROOFS. Unpacking a payload (43_decoder.md R110). -/

namespace Sys2Proof.Machine

theorem bin8_getElem? (b : Byte) {j : Nat} (h : j < 8) : (bin8 b)[j]? = some (b.getLsbD (7 - j)) := by
  interval_cases j <;> rfl

/-- Bit j of the whole sequence lies in byte j div 8, from bit 7 down (R110). -/
theorem flatMap_bin8_getElem? (p : List Byte) (j : Nat) :
    (p.flatMap bin8)[j]? = (p[j / 8]?).map fun b => b.getLsbD (7 - j % 8) := by
  induction p generalizing j with
  | nil => rfl
  | cons b p ih =>
    rw [List.flatMap_cons]
    obtain hj | hj := Nat.lt_or_ge j 8
    · rw [List.getElem?_append_left hj, bin8_getElem? b hj, Nat.div_eq_of_lt hj, Nat.mod_eq_of_lt hj]
      rfl
    · obtain ⟨k, rfl⟩ := Nat.exists_eq_add_of_le hj
      rw [List.getElem?_append_right hj, bin8_length, Nat.add_sub_cancel_left, ih, Nat.add_mod_left,
        Nat.add_div_left k (by decide), List.getElem?_cons_succ]

/-- Settles O30: unpacking takes the bits before the last d, so each stands where the whole sequence has it. -/
theorem unpackingBitOrder : Obligations.UnpackingBitOrder := by
  refine fun p d => ⟨bitUnpack_length p d, fun hp hd => ?_, fun j hj => ?_⟩
  · have hpos := List.length_pos_iff.2 hp
    rw [bitUnpack_length]
    omega
  · rw [bitUnpack, dropLast, flatMap_bin8_length, List.getElem?_take_of_lt hj, flatMap_bin8_getElem?]

end Sys2Proof.Machine
end

section
/-! PROOFS. The structural checks, the entry loop and the table half of DECODE, outcome by outcome (43_decoder.md R107,
R108, R113), and DECODE's errors before the walk in their order (60_exceptions.md R125). -/

namespace Sys2Proof.Machine

/-! ### The completion step by the outcome of the body (R113, R126) -/

theorem engineTurn_of_decodeBody_ok {s : State} {r : DecodeResult} (hp : s.phase = .busy .decode)
    (h : decodeBody s = .ok r) : engineTurn s = (applyDecode s r).complete none := by
  rw [engineTurn_of_busy hp, completionStep, completeDecode, h]

theorem engineTurn_of_decodeBody_error {s : State} {f : DecodeFailure} (hp : s.phase = .busy .decode)
    (h : decodeBody s = .error f) : engineTurn s = (failDecode s f).complete (some f.error) := by
  rw [engineTurn_of_busy hp, completionStep, completeDecode, h]

/-- The whole state a DECODE leaves that fails before the walk (R113, R124). -/
theorem engineTurn_of_early_error {s : State} {e : CodecError} (hp : s.phase = .busy .decode)
    (h : decodeBody s = .error ⟨e, none⟩) :
    engineTurn s =
      { s with
        phase := .idle
        regs := { s.regs with status := packStatus false true (statusWign s.regs.status) e.code e.detail } } := by
  rw [engineTurn_of_decodeBody_error hp h]
  rfl

theorem decodeBody_of_structural_error {s : State} {e : CodecError} (h : s.structural = .error e) :
    decodeBody s = .error ⟨e, none⟩ := by
  rw [decodeBody, h]

theorem decodeBody_of_read_error {s : State} {hd : Header} {e : CorruptDetail} (hs : s.structural = .ok hd)
    (h : containerRead s.mem.ctr.get hd.n hd.d = .error e) : decodeBody s = .error ⟨.corruptFile e, none⟩ := by
  rw [decodeBody, hs]
  simp only [h]

theorem decodeBody_of_read {s : State} {hd : Header} {t : FreqTable} (hs : s.structural = .ok hd)
    (h : containerRead s.mem.ctr.get hd.n hd.d = .ok t) :
    decodeBody s = decodeTable s.caps.dec t hd.d (payloadBytes s.mem.ctr.get hd) := by
  rw [decodeBody, hs]
  simp only [h]

theorem decodeTable_of_large {cap d : Nat} {t : FreqTable} {p : List Byte} (h : cap < FreqTable.total t) :
    decodeTable cap t d p = .error ⟨.capacity .dec, none⟩ :=
  if_pos h

/-- The checks of a file's presence and length, in their order (R107). -/
theorem structuralCheck_errors (len cap : Nat) (ctr : Nat → Byte) :
    structuralCheck false len cap ctr = .error .fileNotFound ∧
      (cap < len → structuralCheck true len cap ctr = .error (.capacity .ctr)) ∧
      (len ≤ cap → len < 5 → structuralCheck true len cap ctr = .error (.corruptFile .shortFile)) ∧
      (len ≤ cap → 5 ≤ len → len < 4 + 3 * be32 ctr 0 →
        structuralCheck true len cap ctr = .error (.corruptFile .tripletsTruncated)) ∧
      (len ≤ cap → 5 ≤ len → len = 4 + 3 * be32 ctr 0 →
        structuralCheck true len cap ctr = .error (.corruptFile .discardMissing)) ∧
      (len ≤ cap → 5 ≤ len → len = 5 + 3 * be32 ctr 0 →
        structuralCheck true len cap ctr = .error (.corruptFile .noPayload)) := by
  refine ⟨if_pos rfl, fun hcap => ?_, fun hcap h5 => ?_, fun hcap h5 h => ?_, fun hcap h5 h => ?_,
    fun hcap h5 h => ?_⟩ <;> rw [structuralCheck, if_neg (by decide : ¬ true = false)]
  · rw [if_pos hcap]
  · rw [if_neg (by omega), if_pos h5]
  · rw [if_neg (by omega), if_neg (by omega), if_pos h]
  · rw [if_neg (by omega), if_neg (by omega), if_neg (by omega), if_pos (by omega)]
  · rw [if_neg (by omega), if_neg (by omega), if_neg (by omega), if_neg (by omega), if_pos (by omega)]

/-- A present file of a length the checks accept has a header (R107). -/
theorem structural_of_fits {s : State} (hpresent : s.regs.present = true) (hcap : s.regs.ctrLen.toNat ≤ s.caps.ctr)
    (hlen : 6 + 3 * be32 s.mem.ctr.get 0 ≤ s.regs.ctrLen.toNat) :
    s.structural = .ok ⟨be32 s.mem.ctr.get 0, (s.mem.ctr.get (4 + 3 * be32 s.mem.ctr.get 0)).toNat,
      s.regs.ctrLen.toNat - (5 + 3 * be32 s.mem.ctr.get 0)⟩ :=
  (structuralCheck_ok_iff _ _ _ _ _).2 ⟨hpresent, hcap, hlen, rfl⟩

/-! ### The entry loop (R108) -/

/-- Entry `i` of a container is one the reader refuses: its count is 0 or its symbol an earlier one's. -/
def BadEntry (ctr : Nat → Byte) (i : Nat) : Prop :=
  be16 ctr (5 + 3 * i) = 0 ∨ ∃ j < i, ctr (4 + 3 * j) = ctr (4 + 3 * i)

/-- The entries of the container up to entry `i`. -/
def entriesBelow (ctr : Nat → Byte) (i : Nat) : FreqTable := (List.range i).map (entryAt ctr)

theorem entriesBelow_succ (ctr : Nat → Byte) (i : Nat) :
    entriesBelow ctr (i + 1) = entriesBelow ctr i ++ [entryAt ctr i] := by
  rw [entriesBelow, List.range_succ, List.map_append]
  rfl

theorem entriesBelow_any_symbol_iff (ctr : Nat → Byte) (i : Nat) (x : Byte) :
    (entriesBelow ctr i).any (fun e => e.symbol = x) = true ↔ ∃ j < i, ctr (4 + 3 * j) = x := by
  simp only [List.any_eq_true, decide_eq_true_iff, entriesBelow, List.mem_map, List.mem_range]
  constructor
  · rintro ⟨_, ⟨j, hj, rfl⟩, hx⟩
    exact ⟨j, hj, hx⟩
  · rintro ⟨j, hj, hx⟩
    exact ⟨_, ⟨j, hj, rfl⟩, hx⟩

/-- The loop at entry `i`, the earlier ones read (R108). -/
theorem readEntries_at (ctr : Nat → Byte) (k i : Nat) :
    (be16 ctr (5 + 3 * i) = 0 → readEntries ctr (k + 1) (4 + 3 * i) (entriesBelow ctr i) = .error .zeroFreq) ∧
      (be16 ctr (5 + 3 * i) ≠ 0 → BadEntry ctr i →
        readEntries ctr (k + 1) (4 + 3 * i) (entriesBelow ctr i) = .error .dupSymbol) ∧
      (¬ BadEntry ctr i → readEntries ctr (k + 1) (4 + 3 * i) (entriesBelow ctr i) =
        readEntries ctr k (4 + 3 * (i + 1)) (entriesBelow ctr (i + 1))) := by
  have hoff : 4 + 3 * i + 1 = 5 + 3 * i := by omega
  simp only [readEntries, hoff, entriesBelow_any_symbol_iff]
  refine ⟨fun h0 => if_pos h0, fun h0 hbad => ?_, fun hgood => ?_⟩
  · rw [if_neg h0, if_pos (hbad.resolve_left h0)]
  · rw [if_neg fun h0 => hgood (.inl h0), if_neg fun hdup => hgood (.inr hdup), entriesBelow_succ]
    rfl

/-- The loop reads past entries that are good. -/
theorem readEntries_skip {ctr : Nat → Byte} {n i : Nat} (hi : i ≤ n) (hgood : ∀ j < i, ¬ BadEntry ctr j) :
    readEntries ctr n 4 [] = readEntries ctr (n - i) (4 + 3 * i) (entriesBelow ctr i) := by
  induction i with
  | zero => rfl
  | succ i ih =>
    obtain ⟨-, -, hstep⟩ := readEntries_at ctr (n - (i + 1)) i
    rw [ih (by omega) fun j hj => hgood j (by omega), ← hstep (hgood i (by omega))]
    congr 1
    omega

/-- The first bad entry decides the error: a zero count before a repeated symbol (R108). -/
theorem containerRead_of_bad {ctr : Nat → Byte} {n d i : Nat} (hi : i < n) (hgood : ∀ j < i, ¬ BadEntry ctr j) :
    (be16 ctr (5 + 3 * i) = 0 → containerRead ctr n d = .error .zeroFreq) ∧
      (be16 ctr (5 + 3 * i) ≠ 0 → BadEntry ctr i → containerRead ctr n d = .error .dupSymbol) := by
  obtain ⟨hzero, hdup, -⟩ := readEntries_at ctr (n - (i + 1)) i
  rw [show n - (i + 1) + 1 = n - i by omega] at hzero hdup
  have hn : n ≠ 0 := by omega
  simp only [containerRead, if_neg hn, readEntries_skip hi.le hgood]
  exact ⟨fun h0 => by rw [hzero h0], fun h0 hbad => by rw [hdup h0 hbad]⟩

/-- With every entry good, the discarded-bit count is left to check (R108). -/
theorem containerRead_of_good {ctr : Nat → Byte} {n : Nat} (d : Nat) (hn : n ≠ 0)
    (hgood : ∀ j < n, ¬ BadEntry ctr j) :
    containerRead ctr n d = if 7 < d then .error .badDiscard else .ok (entriesBelow ctr n) := by
  simp only [containerRead, if_neg hn, readEntries_skip le_rfl hgood, Nat.sub_self, readEntries]

theorem entriesBelow_total (ctr : Nat → Byte) (n : Nat) :
    FreqTable.total (entriesBelow ctr n) = ((List.range n).map fun i => be16 ctr (5 + 3 * i)).sum := by
  rw [FreqTable.total, entriesBelow, List.map_map]
  rfl

/-- Settles O36: each clause makes one check of the body fail and those before it pass, and a failure before the walk
writes STATUS and the phase alone. -/
theorem decodeHeaderErrorsInOrder : Obligations.DecodeHeaderErrorsInOrder := by
  intro s hp ctr len n present bad failed
  have hfail : ∀ e : CodecError, decodeBody s = .error ⟨e, none⟩ → engineTurn s = failed e.code e.detail :=
    fun e => engineTurn_of_early_error hp
  have hstruct : ∀ e : CodecError, s.structural = .error e → engineTurn s = failed e.code e.detail :=
    fun e he => hfail e (decodeBody_of_structural_error he)
  have hread : present → len ≤ s.caps.ctr → 6 + 3 * n ≤ len → ∀ e : CorruptDetail,
      containerRead ctr n (ctr (4 + 3 * n)).toNat = .error e → engineTurn s = failed 3 e.code :=
    fun hpresent hcap hlen e he => hfail (.corruptFile e)
      (decodeBody_of_read_error (structural_of_fits hpresent hcap hlen) he)
  obtain ⟨habsent, hlarge, hshort, htriplets, hdiscard, hpayload⟩ := structuralCheck_errors len s.caps.ctr ctr
  have hchecks : ∀ {b : Bool}, s.regs.ctrPresent.getLsbD 0 = b →
      s.structural = structuralCheck b len s.caps.ctr ctr := fun hb => hb ▸ rfl
  refine ⟨fun hpresent => ?_, fun hpresent hcap => ?_, fun hpresent hcap hlen => ?_, fun hpresent hcap h5 hlen => ?_,
    fun hpresent hcap h5 hlen => ?_, fun hpresent hcap h5 hlen => ?_, fun hpresent hcap hlen hn => ?_,
    fun hpresent hcap hlen i hi hgood => ⟨fun h0 => ?_, fun h0 hbad => ?_⟩,
    fun hpresent hcap hlen hn hgood hd => ?_, fun hpresent hcap hlen hn hgood hd htotal => ?_⟩
  · exact hstruct .fileNotFound ((hchecks (Bool.not_eq_true _ ▸ hpresent)).trans habsent)
  · exact hstruct (.capacity .ctr) ((hchecks hpresent).trans (hlarge hcap))
  · exact hstruct (.corruptFile .shortFile) ((hchecks hpresent).trans (hshort hcap hlen))
  · exact hstruct (.corruptFile .tripletsTruncated) ((hchecks hpresent).trans (htriplets hcap h5 hlen))
  · exact hstruct (.corruptFile .discardMissing) ((hchecks hpresent).trans (hdiscard hcap h5 hlen))
  · exact hstruct (.corruptFile .noPayload) ((hchecks hpresent).trans (hpayload hcap h5 hlen))
  · exact hread hpresent hcap hlen .emptyTable (if_pos hn)
  · exact hread hpresent hcap hlen .zeroFreq ((containerRead_of_bad hi hgood).1 h0)
  · exact hread hpresent hcap hlen .dupSymbol ((containerRead_of_bad hi hgood).2 h0 hbad)
  · exact hread hpresent hcap hlen .badDiscard ((containerRead_of_good _ hn hgood).trans (if_pos hd))
  · refine hfail (.capacity .dec) ?_
    rw [decodeBody_of_read (structural_of_fits hpresent hcap hlen)
      ((containerRead_of_good _ hn hgood).trans (if_neg (Nat.not_lt.2 hd)))]
    exact decodeTable_of_large (entriesBelow_total ctr n ▸ htotal)

end Sys2Proof.Machine
end

section
/-! PROOFS. A container that CTR holds, as DECODE reads it (20_memory.md R72, 43_decoder.md R107, R108, R113). -/

namespace Sys2Proof.Machine

/-! ### Symbol counts (R112) -/

theorem countCheck_iff {out : List Byte} {t : FreqTable} :
    countCheck out t = true ↔ ∀ e ∈ t, out.count e.symbol = e.count := by
  simp only [countCheck, List.all_eq_true, decide_eq_true_iff]

theorem Counts.length_eq_total {t : FreqTable} {m : List Byte} (h : Counts t m) : m.length = FreqTable.total t := by
  have hsum := h.sum_map fun _ => 1
  simpa [FreqTable.total] using hsum

/-- An output of the table's symbols that meets its counts is counted by the table. -/
theorem counts_of_countCheck {t : FreqTable} {out : List Byte} (ht : TableOk t) (hc : countCheck out t = true)
    (hmem : ∀ x ∈ out, x ∈ FreqTable.symbols t) : Counts t out := by
  obtain ⟨hpos, hnodup⟩ := ht
  have hcount := countCheck_iff.1 hc
  refine ⟨hnodup, fun e he => (hcount e he).symm, fun x => ⟨hmem x, fun hx => ?_⟩⟩
  obtain ⟨e, he, rfl⟩ := List.mem_map.1 hx
  exact List.count_pos_iff.1 (hcount e he ▸ Nat.pos_of_ne_zero (hpos e he))

/-- An output of TOTAL symbols that meets a table's counts has no other symbols: the ones the table lists already make
up TOTAL. -/
theorem counts_of_length_eq_total {t : FreqTable} {out : List Byte} (ht : TableOk t)
    (hlen : out.length = FreqTable.total t) (hcount : ∀ e ∈ t, out.count e.symbol = e.count) : Counts t out := by
  refine counts_of_countCheck ht (countCheck_iff.2 hcount) fun x hx => ?_
  have hlisted : Counts t (out.filter (· ∈ FreqTable.symbols t)) := by
    refine counts_of_countCheck ht (countCheck_iff.2 fun e he => ?_) fun x hx => ?_
    · rw [List.count_filter (p := fun x => decide (x ∈ FreqTable.symbols t))
        (decide_eq_true (List.mem_map_of_mem he)), hcount e he]
    · simpa using (List.mem_filter.1 hx).2
  have hall := List.length_filter_eq_length_iff.1 (hlisted.length_eq_total.trans hlen.symm)
  exact of_decide_eq_true (hall x hx)

/-! ### The tree of a table DECODE accepts -/

theorem BuiltFrom.symbols_perm {t : FreqTable} {b : Built} (h : BuiltFrom t b) :
    b.root.symbols.Perm (FreqTable.symbols t) :=
  h.leaves.map _

theorem BuiltFrom.root_numbered {t : FreqTable} {b : Built} (h : BuiltFrom t b) : b.root.Numbered :=
  (h.good _ h.root_mem).2

/-- A walk from the root that ends has read the payload of what it put out (R111). -/
theorem BuiltFrom.walk_ok {t : FreqTable} {b : Built} (h : BuiltFrom t b) (ht : TableOk t) {total : Nat} {bits : Bits}
    {out : List Byte} (hw : walk b.root total bits b.root [] = .ok out) :
    bits = payloadBits out (codeGen b.root) ∧ ∀ x ∈ out, x ∈ FreqTable.symbols t := by
  obtain ⟨m, rfl, hbits, hmem, -⟩ := walk_sound b.root (h.symbols_perm.nodup_iff.2 ht.2) h.root_numbered total bits []
    b.root [] out (Tree.follow_nil _) (.inl rfl) (Nat.zero_le _) hw
  exact ⟨hbits, fun x hx => h.symbols_perm.mem_iff.1 (hmem x hx)⟩

/-! ### Reading a container -/

theorem ReadableTable.tableOk {t : FreqTable} (h : ReadableTable t) : TableOk t := h.2

theorem ReadableTable.length_le {t : FreqTable} (h : ReadableTable t) : t.length ≤ 256 := by
  obtain ⟨-, -, hnodup⟩ := h
  simpa using nodup_bytes_length hnodup

/-- A container depends on CTR_PRESENT, CTR_LEN, CTR_CAP and the bytes below CTR_LEN alone. -/
theorem HoldsContainer.congr {s w : State} {t : FreqTable} {d : Byte} {p : List Byte} (h : HoldsContainer s t d p)
    (hcaps : w.caps.ctr = s.caps.ctr) (hlen : w.regs.ctrLen = s.regs.ctrLen)
    (hpresent : w.regs.present = s.regs.present)
    (hbytes : ∀ i < s.regs.ctrLen.toNat, w.mem.ctr.get i = s.mem.ctr.get i) : HoldsContainer w t d p := by
  obtain ⟨hpres, hcap, hsize, hn, hentries, hd, hp⟩ := h
  refine ⟨hpresent.trans hpres, hlen ▸ hcaps ▸ hcap, hlen ▸ hsize, ?_, fun i hi => ?_, ?_, fun i hi => ?_⟩
  · rw [← hn, be32, be32, hbytes _ (by omega), hbytes _ (by omega), hbytes _ (by omega), hbytes _ (by omega)]
  · rw [be16, hbytes _ (by omega), hbytes _ (by omega), hbytes _ (by omega)]
    exact hentries i hi
  · rw [hbytes _ (by omega), hd]
  · rw [hbytes _ (by omega), hp i hi]

theorem HoldsContainer.startCommand {s : State} {t : FreqTable} {d : Byte} {p : List Byte} (h : HoldsContainer s t d p)
    (c : Command) : HoldsContainer (s.startCommand c) t d p :=
  h.congr rfl rfl rfl fun _ _ => rfl

/-- The table of a container is its entries in order. -/
theorem HoldsContainer.table_eq {s : State} {t : FreqTable} {d : Byte} {p : List Byte} (h : HoldsContainer s t d p) :
    t = (List.range t.length).map (entryAt s.mem.ctr.get) := by
  obtain ⟨-, -, -, -, hentries, -, -⟩ := h
  refine List.ext_getElem (by simp) fun i hi _ => ?_
  obtain ⟨hsymbol, hcount⟩ := hentries i hi
  rw [List.getElem_map, List.getElem_range, entryAt, hsymbol, hcount]

/-- What the structural checks make of a container with a payload (R107). -/
theorem HoldsContainer.structural {s : State} {t : FreqTable} {d : Byte} {p : List Byte} (h : HoldsContainer s t d p)
    (hne : p ≠ []) : s.structural = .ok ⟨t.length, d.toNat, p.length⟩ := by
  obtain ⟨hpres, hcap, hsize, hn, -, hd, -⟩ := h
  have hpos := List.length_pos_iff.2 hne
  rw [structural_of_fits hpres hcap (by omega), hn, hd, hsize, Nat.add_sub_cancel_left]

theorem HoldsContainer.payloadBytes {s : State} {t : FreqTable} {d : Byte} {p : List Byte} (h : HoldsContainer s t d p)
    (n : Nat) : payloadBytes s.mem.ctr.get ⟨t.length, n, p.length⟩ = p := by
  obtain ⟨-, -, -, -, -, -, hp⟩ := h
  refine List.ext_getElem (by simp [Machine.payloadBytes]) fun i _ hi => ?_
  rw [← hp i hi]
  simp [Machine.payloadBytes]

/-- DECODE of a container with a payload, a readable table and d ≤ 7 is left with the table half (R113). -/
theorem decodeBody_of_holds {s : State} {t : FreqTable} {d : Byte} {p : List Byte} (h : HoldsContainer s t d p)
    (hne : p ≠ []) (ht : ReadableTable t) (hd : d.toNat ≤ 7) :
    decodeBody s = decodeTable s.caps.dec t d.toNat p := by
  have hread : containerRead s.mem.ctr.get t.length d.toNat = .ok t :=
    (containerRead_ok_iff _ _ _ _).2 ⟨mt List.length_eq_zero_iff.1 ht.1, hd, h.table_eq, ht.tableOk⟩
  rw [decodeBody_of_read (h.structural hne) hread, h.payloadBytes]

/-- A DECODE that gets past the header and the table has read a container with a payload and a readable table. -/
theorem holdsContainer_of_read {s : State} {hd : Header} {t : FreqTable} (hs : s.structural = .ok hd)
    (hr : containerRead s.mem.ctr.get hd.n hd.d = .ok t) :
    HoldsContainer s t (BitVec.ofNat 8 hd.d) (payloadBytes s.mem.ctr.get hd) ∧ payloadBytes s.mem.ctr.get hd ≠ [] ∧
      ReadableTable t ∧ hd.d ≤ 7 := by
  obtain ⟨hpres, hcap, hlen, rfl⟩ := (structuralCheck_ok_iff _ _ _ _ _).1 hs
  obtain ⟨hn, hd, htable, hok⟩ := (containerRead_ok_iff _ _ _ _).1 hr
  have htlen : t.length = be32 s.mem.ctr.get 0 := by simp [htable]
  have hplen : ∀ n d l, (payloadBytes s.mem.ctr.get ⟨n, d, l⟩).length = l := by simp [payloadBytes]
  refine ⟨⟨hpres, hcap, ?_, htlen.symm, fun i hi => ?_, ?_, fun i hi => ?_⟩, ?_, ⟨?_, hok⟩, hd⟩
  · rw [hplen, htlen]
    omega
  · simp [htable, entryAt]
  · rw [htlen, BitVec.ofNat_toNat, BitVec.setWidth_eq]
  · simp [payloadBytes, htlen]
  · rw [← List.length_pos_iff, hplen]
    omega
  · rintro rfl
    exact hn htlen.symm

end Sys2Proof.Machine
end

section
/-! PROOFS. DECODE of a payload that spells a message, and the soundness of DECODE (43_decoder.md R111 to R113). -/

namespace Sys2Proof.Machine

theorem Spells.counts {t : FreqTable} {d : Byte} {p out : List Byte} (h : Spells t d p out) (ht : TableOk t) :
    Counts t out := by
  obtain ⟨hlen, hcount, -⟩ := h
  exact counts_of_length_eq_total ht hlen hcount

/-- The table half finds the message a payload spells (R111, R112). -/
theorem decodeTable_of_spells {cap : Nat} {t : FreqTable} {d : Byte} {p out : List Byte} (ht : TableOk t)
    (hcap : FreqTable.total t ≤ cap) (h : Spells t d p out) :
    ∃ b, treeBuild t = some b ∧ decodeTable cap t d.toNat p = .ok ⟨t, b, d.toNat, bitUnpack p d.toNat, out⟩ := by
  obtain ⟨-, -, hmem⟩ := h.counts ht
  obtain ⟨hlen, hcount, b, hb, hbits⟩ := h
  obtain ⟨-, hbuilt⟩ := treeBuild_some hb
  have hwalk : walk b.root (FreqTable.total t) (bitUnpack p d.toNat) b.root [] = .ok out := by
    have hsymbols : ∀ x ∈ out, x ∈ b.root.symbols := fun x hx =>
      hbuilt.symbols_perm.mem_iff.2 ((hmem x).1 hx)
    have hpayload := walk_payload b.root (FreqTable.total t) out [] [] hsymbols (by simp [hlen])
    rwa [List.append_nil, walk_end, ← hbits] at hpayload
  refine ⟨b, hb, ?_⟩
  rw [decodeTable, if_neg (Nat.not_lt.2 hcap), hb]
  simp only [hwalk, if_pos (countCheck_iff.2 hcount)]

/-- DECODE of such a container succeeds (R113). -/
theorem decodeBody_of_spells {s : State} {t : FreqTable} {d : Byte} {p out : List Byte} (h : HoldsContainer s t d p)
    (hne : p ≠ []) (ht : ReadableTable t) (hd : d.toNat ≤ 7) (hcap : FreqTable.total t ≤ s.caps.dec)
    (hs : Spells t d p out) :
    ∃ b, treeBuild t = some b ∧ decodeBody s = .ok ⟨t, b, d.toNat, bitUnpack p d.toNat, out⟩ := by
  obtain ⟨b, hb, hdec⟩ := decodeTable_of_spells ht.tableOk hcap hs
  exact ⟨b, hb, (decodeBody_of_holds h hne ht hd).trans hdec⟩

/-- What a DECODE that succeeds has found. -/
theorem spells_of_decodeTable_ok {cap d : Nat} {t : FreqTable} {p : List Byte} {r : DecodeResult} (ht : TableOk t)
    (hd : d < 256) (h : decodeTable cap t d p = .ok r) : Spells t (BitVec.ofNat 8 d) p r.out := by
  obtain ⟨-, -, -, hbits, hb, hwalk, hcheck⟩ := decodeTable_ok h
  obtain ⟨-, hbuilt⟩ := treeBuild_some hb
  obtain ⟨hpayload, hmem⟩ := hbuilt.walk_ok ht hwalk
  refine ⟨(counts_of_countCheck ht hcheck hmem).length_eq_total, countCheck_iff.1 hcheck, r.built, hb, ?_⟩
  rw [BitVec.toNat_ofNat, Nat.mod_eq_of_lt hd, ← hbits, hpayload]

theorem CodecError.code_ne_zero (e : CodecError) : e.code ≠ 0 := by cases e <;> simp [CodecError.code]

/-- STATUS after a DECODE that succeeds shows no error (R126). -/
theorem statusErr_of_decodeBody_ok {s : State} {r : DecodeResult} (hp : s.phase = .busy .decode)
    (h : decodeBody s = .ok r) : statusErr (engineTurn s).regs.status = 0 := by
  rw [engineTurn_of_decodeBody_ok hp h]
  exact statusErr_pack _ _ _ _ _

/-- STATUS after a DECODE that fails shows the body's error (R126). -/
theorem status_of_decodeBody_error {s : State} {f : DecodeFailure} (hp : s.phase = .busy .decode)
    (h : decodeBody s = .error f) :
    statusErr (engineTurn s).regs.status = f.error.code ∧ statusDetail (engineTurn s).regs.status = f.error.detail := by
  rw [engineTurn_of_decodeBody_error hp h]
  exact ⟨statusErr_pack _ _ _ _ _, statusDetail_pack _ _ _ _ _⟩

theorem runCommand_eq_engineTurn (c : Command) (s : State) : runCommand c s = engineTurn (s.startCommand c) := rfl

/-- The bytes of DEC after a DECODE that succeeds: the message, and beyond it the old ones (R113). -/
theorem applyDecode_dec_get (s : State) (r : DecodeResult) (a : Nat) :
    (applyDecode s r).mem.dec.get a = r.out.getD a (s.mem.dec.get a) :=
  Buffer.get_store_zero _ a _

/-- Settles O38: no error means that the body succeeded, so every check passed and the walk read the codes of what it
put out. -/
theorem decodeIsSound : Obligations.DecodeIsSound := by
  intro s herr
  rw [runCommand_eq_engineTurn] at herr ⊢
  cases hbody : decodeBody (s.startCommand .decode) with
  | error f => exact absurd ((status_of_decodeBody_error rfl hbody).1.symm.trans herr) f.error.code_ne_zero
  | ok r =>
    obtain ⟨hd, t, hstruct, hread, hdec⟩ := decodeBody_ok hbody
    obtain ⟨hcap, -⟩ := decodeTable_ok hdec
    obtain ⟨hholds, hne, ht, hd7⟩ := holdsContainer_of_read hstruct hread
    have hd256 : hd.d < 256 := by omega
    refine ⟨t, BitVec.ofNat 8 hd.d, _, r.out, hholds.congr rfl rfl rfl fun _ _ => rfl, hne, ht, ?_, hcap,
      spells_of_decodeTable_ok ht.tableOk hd256 hdec, fun i hi => ?_⟩
    · rwa [BitVec.toNat_ofNat, Nat.mod_eq_of_lt hd256]
    · rw [engineTurn_of_decodeBody_ok rfl hbody]
      exact (applyDecode_dec_get _ r i).trans (List.getD_eq_getElem _ _ hi)

/-- The words of a node in the NODE space that a builder's node table fills (R47). -/
theorem BuiltFrom.get_nodeWords {t : FreqTable} {b : Built} (h : BuiltFrom t b) (hle : t.length ≤ 256) {k : Nat}
    (hk : k < b.nodes.length) :
    WordTable.get (WordTable.setAll [] (nodeWords b.nodes)) (2 * k) = BitVec.ofNat 32 b.nodes[k].freq ∧
      NodeBits (WordTable.get (WordTable.setAll [] (nodeWords b.nodes)) (2 * k + 1)) b.nodes[k] := by
  obtain ⟨hn, hseq⟩ := (getElem?_seq_iff h.seqs).1 (List.getElem?_eq_getElem hk)
  obtain ⟨hfreq, hinfo⟩ := Machine.get_nodeWords h.seqs hn
  rw [hseq] at hfreq hinfo
  exact ⟨hfreq, hinfo ▸ h.nodeBits hle hn⟩

/-- The registers after a DECODE that succeeds from a start while IDLE (R113, R51). -/
theorem applyDecode_startCommand_regs (s : State) (r : DecodeResult) :
    ((applyDecode ((s.startCommand .decode).withResponse none) r).complete none).regs =
      { Regs.zero with
        status := packStatus false true false 0 0
        msgLen := s.regs.msgLen
        ctrLen := s.regs.ctrLen
        ctrPresent := s.regs.ctrPresent
        decLen := BitVec.ofNat 32 (FreqTable.total r.table)
        nSyms := BitVec.ofNat 32 r.table.length
        root := BitVec.ofNat 32 r.built.root.seq
        decBits := BitVec.ofNat 32 r.bits.length
        discard := BitVec.ofNat 32 r.d
        payloadOff := BitVec.ofNat 32 (5 + 3 * r.table.length)
        total := BitVec.ofNat 32 (FreqTable.total r.table) } := by
  have hstatus : completionStatus none startStatus = packStatus false true false 0 0 := by decide
  rw [← hstatus]
  rfl

/-- Settles O37: the started machine holds the container still, so the body succeeds with the message; the registers
and words `applyDecode` does not write are those the start cleared. -/
theorem decodeCommits : Obligations.DecodeCommits := by
  intro s t d p out hp hholds hne ht hd hcap hs
  have hcounts := hs.counts ht.tableOk
  have ⟨_, hcount, hmem⟩ := hcounts
  obtain ⟨b, hb, hbody⟩ := decodeBody_of_spells (s := (s.startCommand .decode).withResponse none)
    (hholds.congr rfl rfl rfl fun _ _ => rfl) hne ht hd hcap hs
  obtain ⟨-, hbuilt⟩ := treeBuild_some hb
  refine ⟨_, b, exec_hostWrite_of_idle rfl hp, rfl, hb, ?_⟩
  rw [engineTurn_of_decodeBody_ok rfl hbody]
  refine ⟨rfl, ?_, applyDecode_dec_get _ _, fun e he => ?_, fun x hx => ?_, fun k hk => ?_, fun j hj => ?_,
    fun j => rfl, rfl, rfl, rfl, rfl, rfl⟩
  · rw [applyDecode_startCommand_regs]
    simp only [hbuilt.root_seq, bitUnpack_length, BitVec.ofNat_toNat]
  · exact (get_freqWords hcounts e.symbol).trans (by rw [hcount e he])
  · refine (get_freqWords hcounts x).trans ?_
    rw [List.count_eq_zero_of_not_mem (mt (hmem x).1 hx)]
    rfl
  · exact hbuilt.get_nodeWords ht.length_le hk
  · exact get_nodeWords_of_ge hbuilt hj

end Sys2Proof.Machine
end

section
/-! PROOFS. The failures of DECODE: which leave all of DEC, which make its first TOTAL bytes unspecified, and the
payload errors in their order (43_decoder.md R111 to R113, 60_exceptions.md R124, R125). -/

namespace Sys2Proof.Machine

/-! ### The errors of each part -/

/-- CorruptFileError with detail 20 or above: the failures of the walk and the count check (R123). -/
abbrev CodecError.Late (e : CodecError) : Prop := e.code = 3 ∧ 20 ≤ e.detail.toNat

theorem structuralCheck_error_not_late {present : Bool} {len cap : Nat} {ctr : Nat → Byte} {e : CodecError}
    (h : structuralCheck present len cap ctr = .error e) : ¬ e.Late := by
  unfold structuralCheck at h
  split_ifs at h <;> cases h <;> decide

theorem readEntries_error {ctr : Nat → Byte} {k off : Nat} {t : FreqTable} {e : CorruptDetail}
    (h : readEntries ctr k off t = .error e) : e = .zeroFreq ∨ e = .dupSymbol := by
  induction k generalizing off t with
  | zero => cases h
  | succ k ih =>
    rw [readEntries] at h
    split at h
    · cases h; exact .inl rfl
    split at h
    · cases h; exact .inr rfl
    · exact ih h

theorem containerRead_error_not_late {ctr : Nat → Byte} {n d : Nat} {e : CorruptDetail}
    (h : containerRead ctr n d = .error e) : ¬ (CodecError.corruptFile e).Late := by
  unfold containerRead at h
  split at h
  · cases h; decide
  split at h
  next hread =>
    cases h
    obtain rfl | rfl := readEntries_error hread <;> decide
  split at h
  · cases h; decide
  · cases h

/-- How a walk fails (R111): BAD_BIT only at a '1' of a one-symbol tree. -/
theorem walk_error {root : Tree} {total : Nat} {bits : Bits} {cur : Tree} {out : List Byte} {e : CorruptDetail}
    (h : walk root total bits cur out = .error e) :
    e = .walkIncomplete ∨ e = .countMismatch ∨ e = .badBit ∧ true ∈ bits ∧ ∃ s x f, root = .leaf s x f := by
  induction bits generalizing cur out with
  | nil =>
    rw [walk] at h
    split at h
    · cases h
    · cases h; exact .inl rfl
  | cons b bs ih =>
    have hrest : ∀ {cur out}, walk root total bs cur out = .error e → e = .walkIncomplete ∨ e = .countMismatch ∨
        e = .badBit ∧ true ∈ b :: bs ∧ ∃ s x f, root = .leaf s x f := fun hw =>
      (ih hw).imp_right (Or.imp_right fun ⟨he, hb, hr⟩ => ⟨he, List.mem_cons_of_mem _ hb, hr⟩)
    simp only [walk] at h
    split at h
    next s x f =>
      split at h
      next hb => cases h; exact .inr (.inr ⟨rfl, by simp [hb], s, x, f, rfl⟩)
      split at h
      · cases h; exact .inr (.inl rfl)
      · exact hrest h
    next =>
      split at h
      · split at h
        · cases h; exact .inr (.inl rfl)
        · exact hrest h
      · exact hrest h

theorem walk_error_late {root : Tree} {total : Nat} {bits : Bits} {cur : Tree} {out : List Byte} {e : CorruptDetail}
    (h : walk root total bits cur out = .error e) : (CodecError.corruptFile e).Late := by
  obtain rfl | rfl | ⟨rfl, -⟩ := walk_error h <;> decide

theorem countMismatch_late : (CodecError.corruptFile .countMismatch).Late := by decide

/-- The table half fails at DEC's capacity, or in the walk or the count check with TOTAL within it (R113). -/
theorem decodeTable_error {cap d : Nat} {t : FreqTable} {p : List Byte} {f : DecodeFailure} (ht : t ≠ [])
    (h : decodeTable cap t d p = .error f) :
    f.spoiled = none ∧ ¬ f.error.Late ∨
      f.spoiled = some (FreqTable.total t) ∧ FreqTable.total t ≤ cap ∧ f.error.Late := by
  obtain ⟨b, hb, -⟩ := treeBuild_spec ht
  rw [decodeTable, hb] at h
  split at h
  · cases h; exact .inl ⟨rfl, by decide⟩
  next hcap =>
  simp only at h
  split at h
  next hwalk => cases h; exact .inr ⟨rfl, Nat.le_of_not_lt hcap, walk_error_late hwalk⟩
  split at h
  · cases h
  · cases h; exact .inr ⟨rfl, Nat.le_of_not_lt hcap, countMismatch_late⟩

/-- The body fails before the walk, or with the TOTAL of the container's counts (R113). -/
theorem decodeBody_error {s : State} {f : DecodeFailure} (h : decodeBody s = .error f) :
    f.spoiled = none ∧ ¬ f.error.Late ∨
      ∃ total, f.spoiled = some total ∧ total ≤ s.caps.dec ∧ f.error.Late ∧
        total = ((List.range (be32 s.mem.ctr.get 0)).map fun i => be16 s.mem.ctr.get (5 + 3 * i)).sum := by
  cases hs : s.structural with
  | error e =>
    cases (decodeBody_of_structural_error hs).symm.trans h
    exact .inl ⟨rfl, structuralCheck_error_not_late hs⟩
  | ok hd =>
    cases hr : containerRead s.mem.ctr.get hd.n hd.d with
    | error e =>
      cases (decodeBody_of_read_error hs hr).symm.trans h
      exact .inl ⟨rfl, containerRead_error_not_late hr⟩
    | ok t =>
      obtain ⟨-, -, ⟨hne, -⟩, -⟩ := holdsContainer_of_read hs hr
      obtain ⟨-, -, rfl, -⟩ := (containerRead_ok_iff _ _ _ _).1 hr
      obtain ⟨-, -, -, rfl⟩ := (structuralCheck_ok_iff _ _ _ _ _).1 hs
      rw [decodeBody_of_read hs hr] at h
      exact (decodeTable_error hne h).imp_right fun ⟨hspoiled, hcap, hlate⟩ =>
        ⟨_, hspoiled, hcap, hlate, entriesBelow_total _ _⟩

theorem failDecode_of_none {s : State} {f : DecodeFailure} (h : f.spoiled = none) : failDecode s f = s := by
  simp only [failDecode, h]

theorem failDecode_dec_of_some {s : State} {f : DecodeFailure} {total : Nat} (h : f.spoiled = some total) :
    (failDecode s f).mem.dec = s.mem.dec.forgetBelow total s.fresh := by
  simp only [failDecode, h, State.withFresh_mem, State.withMem_mem]

/-- Settles O39: the failure rule writes DEC alone, below TOTAL, and only for an error of the walk or the count
check. -/
theorem decodeFailureLeavesNoResult : Obligations.DecodeFailureLeavesNoResult := by
  intro s hp herr t total late
  cases hbody : decodeBody s with
  | ok r => exact absurd (statusErr_of_decodeBody_ok hp hbody) herr
  | error f =>
    obtain ⟨hcode, hdetail⟩ := status_of_decodeBody_error hp hbody
    have hlate : late ↔ f.error.Late := by rw [CodecError.Late, ← hcode, ← hdetail]
    have hturn : t = (failDecode s f).complete (some f.error) := engineTurn_of_decodeBody_error hp hbody
    have hmem : t.mem = (failDecode s f).mem := by rw [hturn, State.complete_mem]
    refine ⟨?_, by rw [hmem]; exact failDecode_mem s f, fun hnot => ?_, fun his => ?_⟩
    · rw [hturn, State.complete_regs, failDecode_regs]
    · obtain ⟨hnone, -⟩ | ⟨_, -, -, hyes, -⟩ := decodeBody_error hbody
      · rw [hmem, failDecode_of_none hnone]
      · exact absurd (hlate.2 hyes) hnot
    · obtain ⟨-, hno⟩ | ⟨n, hsome, hcap, -, hsum⟩ := decodeBody_error hbody
      · exact absurd (hlate.1 his) hno
      · have htotal : n = total := hsum
        rw [hmem, failDecode_dec_of_some hsome, ← htotal]
        exact ⟨hcap, fun a => Buffer.get_forgetBelow _ _ _ a⟩

/-! ### The payload errors (R111, R112, R125) -/

theorem decodeTable_of_walk_error {cap d : Nat} {t : FreqTable} {b : Built} {p : List Byte} {e : CorruptDetail}
    (hcap : FreqTable.total t ≤ cap) (hb : treeBuild t = some b)
    (h : walk b.root (FreqTable.total t) (bitUnpack p d) b.root [] = .error e) :
    decodeTable cap t d p = .error ⟨.corruptFile e, some (FreqTable.total t)⟩ := by
  rw [decodeTable, if_neg (Nat.not_lt.2 hcap), hb]
  simp only [h]

theorem decodeTable_of_miscount {cap d : Nat} {t : FreqTable} {b : Built} {p out : List Byte}
    (hcap : FreqTable.total t ≤ cap) (hb : treeBuild t = some b)
    (h : walk b.root (FreqTable.total t) (bitUnpack p d) b.root [] = .ok out) (hc : ¬ countCheck out t = true) :
    decodeTable cap t d p = .error ⟨.corruptFile .countMismatch, some (FreqTable.total t)⟩ := by
  rw [decodeTable, if_neg (Nat.not_lt.2 hcap), hb]
  simp only [h, if_neg hc]

theorem walk_true_of_leaf (s : Nat) (x : Byte) (f total : Nat) (bs : Bits) (cur : Tree) (out : List Byte) :
    walk (.leaf s x f) total (true :: bs) cur out = .error .badBit := by
  simp [walk]

theorem BuiltFrom.root_leaf {t : FreqTable} {b : Built} (h : BuiltFrom t b) (ht : t.length = 1) :
    ∃ s x f, b.root = .leaf s x f := by
  have hlen := h.leaves.length_eq
  cases hroot : b.root with
  | leaf s x f => exact ⟨s, x, f, rfl⟩
  | internal s f l r =>
    have hl := l.leaves_length_pos
    have hr := r.leaves_length_pos
    rw [hroot, Tree.leaves, List.length_append] at hlen
    omega

/-- Settles O56: the walk reads the codes of at most TOTAL symbols and goes on from the root, where each clause says
what it meets. -/
theorem decodePayloadErrorsInOrder : Obligations.DecodePayloadErrorsInOrder := by
  intro s t d p b hp hholds hne ht hd hcap hb read fails
  obtain ⟨-, hbuilt⟩ := treeBuild_some hb
  have hbody := decodeBody_of_holds hholds hne ht hd
  have hfails : ∀ e : CorruptDetail,
      decodeTable s.caps.dec t d.toNat p = .error ⟨.corruptFile e, some (FreqTable.total t)⟩ → fails e.code := by
    intro e he
    refine ⟨engineTurn_phase s, ?_⟩
    rw [engineTurn_of_decodeBody_error hp (hbody.trans he)]
    rfl
  have hwalk : ∀ e : CorruptDetail,
      walk b.root (FreqTable.total t) (bitUnpack p d.toNat) b.root [] = .error e → fails e.code :=
    fun e he => hfails e (decodeTable_of_walk_error hcap hb he)
  have hread : ∀ {out : List Byte} {rest : Bits}, read out rest → out.length ≤ FreqTable.total t →
      walk b.root (FreqTable.total t) (bitUnpack p d.toNat) b.root [] =
        walk b.root (FreqTable.total t) rest b.root out := by
    rintro out rest ⟨hbits, hmem⟩ hlen
    rw [hbits]
    refine walk_payload b.root _ out rest [] (fun x hx => hbuilt.symbols_perm.mem_iff.2 (hmem x hx)) ?_
    rwa [List.length_nil, Nat.zero_add]
  refine ⟨fun out rest hone hr hlen => hwalk .badBit ?_, fun out rest hr hlen hrest ⟨c, hc, hprefix, hproper⟩ =>
    hwalk .walkIncomplete ?_, fun out rest hr hlen => hwalk .countMismatch ?_,
    fun out hr hlen ⟨e, he, hcount⟩ => hfails .countMismatch ?_⟩
  · obtain ⟨_, _, _, hroot⟩ := hbuilt.root_leaf hone
    rw [hread hr hlen, hroot]
    exact walk_true_of_leaf _ _ _ _ _ _ _
  · rw [hread hr hlen]
    exact walk_incomplete b.root hbuilt.root_numbered _ rest c out hc hprefix hrest hproper
  · obtain ⟨hbits, hmem⟩ := hr
    obtain rfl | ⟨init, x, rfl⟩ := out.eq_nil_or_concat'
    · cases hlen
    have hinit : read init (codeOf (codeGen b.root) x ++ rest) :=
      ⟨by simpa [payloadBits] using hbits, fun y hy => hmem y (List.mem_append_left _ hy)⟩
    have hlast := hbuilt.symbols_perm.mem_iff.2 (hmem x List.mem_concat_self)
    rw [List.length_append, List.length_singleton, Nat.add_right_cancel_iff] at hlen
    rw [hread hinit hlen.le]
    exact walk_code_beyond b.root _ rest x init hlast hlen
  · exact decodeTable_of_miscount hcap hb ((hread hr hlen).trans (walk_end _ _ _))
      fun hcheck => hcount (countCheck_iff.1 hcheck e he)

end Sys2Proof.Machine
end

section
/-! PROOFS. DECODE of what ENCODE wrote, whole and shortened by one byte (43_decoder.md R115, R116). -/

namespace Sys2Proof.Machine

/-! ### The container of a message (R104) -/

theorem encodeMessage_bits {m : List Byte} {r : EncodeResult} (h : encodeMessage m = some r) :
    r.bits = payloadBits m (codeGen r.built.root) := by
  unfold encodeMessage at h
  split at h
  · cases h
  · cases h; rfl

theorem Counts.tableOk {t : FreqTable} {m : List Byte} (h : Counts t m) : TableOk t := by
  obtain ⟨hnodup, hcount, hmem⟩ := h
  refine ⟨fun e he => ?_, hnodup⟩
  rw [hcount e he]
  exact (List.count_pos_iff.2 ((hmem _).2 (List.mem_map_of_mem he))).ne'

theorem readableTable_frequencyAnalyze {m : List Byte} (h : m ≠ []) : ReadableTable (frequencyAnalyze m) :=
  ⟨frequencyAnalyze_ne_nil h, (frequencyAnalyze_counts m).tableOk⟩

/-- A discarded-bit count goes through its byte unchanged. -/
theorem discardedBits_byte (n : Nat) : (BitVec.ofNat 8 (discardedBits n)).toNat = discardedBits n := by
  have hlt := discardedBits_lt n
  rw [BitVec.toNat_ofNat, Nat.mod_eq_of_lt (by omega)]

theorem discardedBits_byte_le (n : Nat) : (BitVec.ofNat 8 (discardedBits n)).toNat ≤ 7 := by
  rw [discardedBits_byte]
  exact Nat.le_of_lt_succ (discardedBits_lt n)

/-- The payload of a message spells it under its own table (R101, R110). -/
theorem encodeMessage_spells {m : List Byte} {r : EncodeResult} (h : encodeMessage m = some r) :
    Spells (frequencyAnalyze m) (BitVec.ofNat 8 (discardedBits r.bits.length)) (bitPack r.bits) m := by
  obtain ⟨ht, hb⟩ := encodeMessage_some h
  refine ⟨(frequencyAnalyze_total m).symm, fun e he => (frequencyAnalyze_count he).symm, r.built, ht ▸ hb, ?_⟩
  rw [discardedBits_byte, bitUnpack_bitPack, encodeMessage_bits h]

theorem encodeMessage_bits_ne_nil {m : List Byte} {r : EncodeResult} (hm : m ≠ []) (h : encodeMessage m = some r) :
    r.bits ≠ [] := by
  obtain ⟨ht, hb⟩ := encodeMessage_some h
  obtain ⟨-, hle⟩ := payloadLength m r.built (ht ▸ hb)
  rw [← encodeMessage_bits h] at hle
  exact List.length_pos_iff.1 ((List.length_pos_iff.2 hm).trans_le hle)

theorem bitPack_ne_nil {e : Bits} (h : e ≠ []) : bitPack e ≠ [] := by
  have hpos := List.length_pos_iff.2 h
  rw [← List.length_pos_iff, bitPack_length]
  omega

theorem State.message_length (s : State) (n : Nat) : (s.message n).length = n := by simp [State.message]

theorem statusErr_of_encodeBody_ok {s : State} {r : EncodeResult} (hp : s.phase = .busy .encode)
    (h : encodeBody s = .ok r) : statusErr (engineTurn s).regs.status = 0 := by
  rw [engineTurn_of_encodeBody_ok hp h]
  exact statusErr_pack _ _ _ _ _

theorem encodeBody_startCommand (s : State) (c : Command) : encodeBody (s.startCommand c) = encodeBody s :=
  encodeBody_congr rfl rfl rfl rfl

/-- CTR after an ENCODE that succeeds, for the message that was in MSG at its start (R104). -/
theorem holdsContainer_runCommand_encode {s : State} {r : EncodeResult} (hlegal : s.caps.Legal)
    (h : encodeBody s = .ok r) :
    HoldsContainer (runCommand .encode s) (frequencyAnalyze (s.message s.regs.msgLen.toNat))
      (BitVec.ofNat 8 (discardedBits r.bits.length)) (bitPack r.bits) :=
  encodeWritesContainer (s.startCommand .encode) r hlegal ((encodeBody_startCommand s _).trans h) rfl

theorem message_total (s : State) :
    FreqTable.total (frequencyAnalyze (s.message s.regs.msgLen.toNat)) = s.regs.msgLen.toNat := by
  rw [frequencyAnalyze_total, State.message_length]

/-! ### A whole container (R115) -/

/-- DECODE where CTR holds the container of the message of `s` (R115). -/
theorem decodeBody_of_encoded {s w : State} {r : EncodeResult} (hr : encodeBody s = .ok r)
    (hheld : HoldsContainer w (frequencyAnalyze (s.message s.regs.msgLen.toNat))
      (BitVec.ofNat 8 (discardedBits r.bits.length)) (bitPack r.bits))
    (hdec : s.regs.msgLen.toNat ≤ w.caps.dec) :
    ∃ x, decodeBody w = .ok x ∧ FreqTable.total x.table = s.regs.msgLen.toNat ∧
      x.out = s.message s.regs.msgLen.toNat := by
  obtain ⟨h0, -, hmessage, -⟩ := encodeBody_ok hr
  have hne := s.message_ne_nil h0
  obtain ⟨b, -, hdecode⟩ := decodeBody_of_spells hheld (bitPack_ne_nil (encodeMessage_bits_ne_nil hne hmessage))
    (readableTable_frequencyAnalyze hne) (discardedBits_byte_le _) ((message_total s).trans_le hdec)
    (encodeMessage_spells hmessage)
  exact ⟨_, hdecode, message_total s, rfl⟩

/-- Settles O40: a later state with the same file holds the container ENCODE wrote, and its payload spells the
message. -/
theorem encodeThenDecodeRoundTrip : Obligations.EncodeThenDecodeRoundTrip := by
  intro s w hlegal h0 hmsg hdec hcount hsize u hcaps hlen hpresent hbytes v
  obtain ⟨r, hr⟩ := encodeMessage_isSome (s.message_ne_nil h0)
  have hbody : encodeBody s = .ok r :=
    (encodeBody_of_counts h0 hmsg (fun x _ => hcount x) hr).trans
      (if_neg (Nat.not_lt.2 (encodedSize_eq hr ▸ hsize)))
  have hcapsU : u.caps = s.caps := completionStep_caps _ _
  have hheld := (holdsContainer_runCommand_encode hlegal hbody).congr (w := w)
    (congrArg Caps.ctr (hcaps.trans hcapsU.symm)) hlen (congrArg (fun x : Word => x.getLsbD 0) hpresent) hbytes
  obtain ⟨x, hdecode, htotal, hout⟩ := decodeBody_of_encoded hbody (hheld.startCommand .decode)
    (hdec.trans_eq (congrArg Caps.dec hcaps.symm))
  have herrU := statusErr_of_encodeBody_ok rfl ((encodeBody_startCommand s .encode).trans hbody)
  have herrV := statusErr_of_decodeBody_ok rfl hdecode
  have hturn := engineTurn_of_decodeBody_ok rfl hdecode
  have hv : v = (applyDecode (w.startCommand .decode) x).complete none :=
    (runCommand_eq_engineTurn .decode w).trans hturn
  refine ⟨herrU, herrV, ?_, fun i hi => ?_⟩
  · rw [hv]
    refine (congrArg (BitVec.ofNat 32) htotal).trans ?_
    rw [BitVec.ofNat_toNat, BitVec.setWidth_eq]
  · rw [hv, State.complete_mem, applyDecode_dec_get, hout, List.getD_eq_getElem _ _ (by rwa [State.message_length])]
    simp [State.message]

/-! ### A container shortened by one byte (R116) -/

theorem HoldsContainer.dropLast {s w : State} {t : FreqTable} {d : Byte} {p : List Byte} (h : HoldsContainer s t d p)
    (hne : p ≠ []) (hcaps : w.caps = s.caps) (hlen : w.regs.ctrLen = s.regs.ctrLen - 1)
    (hpresent : w.regs.present = s.regs.present) (hctr : w.mem.ctr = s.mem.ctr) :
    HoldsContainer w t d p.dropLast := by
  obtain ⟨hpres, hcap, hsize, hn, hentries, hd, hp⟩ := h
  have hpos := List.length_pos_iff.2 hne
  have hone : (1 : Word).toNat = 1 := rfl
  have hlen' : w.regs.ctrLen.toNat = s.regs.ctrLen.toNat - 1 := by
    rw [hlen, BitVec.toNat_sub_of_le (BitVec.le_def.2 (by omega)), hone]
  refine ⟨hpresent.trans hpres, ?_, ?_, hctr ▸ hn, hctr ▸ hentries, hctr ▸ hd, fun i hi => ?_⟩
  · rw [hcaps]
    omega
  · rw [List.length_dropLast]
    omega
  · rw [hctr, List.getElem_dropLast, hp i (by rw [List.length_dropLast] at hi; omega)]

/-- A container without a payload is refused (R107). -/
theorem HoldsContainer.structural_of_nil {s : State} {t : FreqTable} {d : Byte} (h : HoldsContainer s t d []) :
    s.structural = .error (.corruptFile .noPayload) := by
  obtain ⟨hpres, hcap, hsize, hn, -, -, -⟩ := h
  rw [List.length_nil] at hsize
  obtain ⟨-, -, -, -, -, hpayload⟩ := structuralCheck_errors s.regs.ctrLen.toNat s.caps.ctr s.mem.ctr.get
  rw [State.structural, hpres]
  exact hpayload hcap (by omega) (by omega)

/-- Without its last byte a payload unpacks to a start of what it unpacked to. -/
theorem bitUnpack_dropLast_prefix (p : List Byte) (d : Nat) : bitUnpack p.dropLast d <+: bitUnpack p d := by
  have hbits : p.dropLast.flatMap bin8 <+: p.flatMap bin8 := by
    obtain ⟨q, hq⟩ := p.dropLast_prefix
    exact ⟨q.flatMap bin8, by rw [← List.flatMap_append, hq]⟩
  refine List.prefix_of_prefix_length_le ((List.take_prefix _ _).trans hbits) (List.take_prefix _ _) ?_
  show (bitUnpack p.dropLast d).length ≤ (bitUnpack p d).length
  rw [bitUnpack_length, bitUnpack_length, List.length_dropLast]
  omega

/-- A packed bit string without its last byte unpacks to a proper start of itself. -/
theorem bitUnpack_shortened {e : Bits} (h : e ≠ []) :
    bitUnpack (bitPack e).dropLast (discardedBits e.length) <+: e ∧
      (bitUnpack (bitPack e).dropLast (discardedBits e.length)).length < e.length := by
  have hpos := List.length_pos_iff.2 h
  have hpad := discardedBits_pad e.length
  have hprefix := bitUnpack_dropLast_prefix (bitPack e) (discardedBits e.length)
  rw [bitUnpack_bitPack] at hprefix
  refine ⟨hprefix, ?_⟩
  rw [bitUnpack_length, List.length_dropLast, bitPack_length]
  omega

/-- Two messages with the same counts have payloads of one length, whatever the codes. -/
theorem Counts.payloadBits_length_eq {t : FreqTable} {m k : List Byte} (hm : Counts t m) (hk : Counts t k)
    (c : List Code) : (payloadBits m c).length = (payloadBits k c).length := by
  have hlen : ∀ {l : List Byte}, Counts t l → (payloadBits l c).length = _ :=
    fun hl => List.length_flatMap.trans (hl.sum_map fun x => (codeOf c x).length)
  rw [hlen hm, hlen hk]

/-- The payload of a one-symbol tree has no '1' (R100). -/
theorem true_not_mem_payloadBits_leaf (s : Nat) (x : Byte) (f : Nat) (m : List Byte) :
    true ∉ payloadBits m (codeGen (.leaf s x f)) := by
  intro h
  obtain ⟨y, -, hy⟩ := List.mem_flatMap.1 h
  by_cases hxy : x = y <;> simp [codeGen, codeOf, hxy] at hy

/-- Bits that stop before the end of a message's payload fail as WALK_INCOMPLETE or COUNT_MISMATCH: a walk that ended
with the table's counts would have read as many bits as the message has. -/
theorem decodeTable_of_proper_prefix {cap d : Nat} {t : FreqTable} {b : Built} {p m : List Byte}
    (hcap : FreqTable.total t ≤ cap) (hb : treeBuild t = some b) (hm : Counts t m)
    (hprefix : bitUnpack p d <+: payloadBits m (codeGen b.root))
    (hshort : (bitUnpack p d).length < (payloadBits m (codeGen b.root)).length) :
    ∃ e, (e = .walkIncomplete ∨ e = .countMismatch) ∧
      decodeTable cap t d p = .error ⟨.corruptFile e, some (FreqTable.total t)⟩ := by
  obtain ⟨-, hbuilt⟩ := treeBuild_some hb
  cases hw : walk b.root (FreqTable.total t) (bitUnpack p d) b.root [] with
  | error e =>
    refine ⟨e, ?_, decodeTable_of_walk_error hcap hb hw⟩
    obtain he | he | ⟨-, htrue, s, x, f, hroot⟩ := walk_error hw
    · exact .inl he
    · exact .inr he
    · rw [hroot] at hprefix
      exact absurd (hprefix.subset htrue) (true_not_mem_payloadBits_leaf s x f m)
  | ok out =>
    refine ⟨.countMismatch, .inr rfl, decodeTable_of_miscount hcap hb hw fun hcheck => ?_⟩
    obtain ⟨hbits, hmem⟩ := hbuilt.walk_ok hm.tableOk hw
    have hout := counts_of_countCheck hm.tableOk hcheck hmem
    rw [hbits, hout.payloadBits_length_eq hm] at hshort
    exact Nat.lt_irrefl _ hshort

/-- DECODE where CTR holds the container of the message of `s` but for its last payload byte (R116). -/
theorem decodeBody_of_shortened {s w : State} {r : EncodeResult} (hr : encodeBody s = .ok r)
    (hheld : HoldsContainer w (frequencyAnalyze (s.message s.regs.msgLen.toNat))
      (BitVec.ofNat 8 (discardedBits r.bits.length)) (bitPack r.bits).dropLast)
    (hdec : s.regs.msgLen.toNat ≤ w.caps.dec) (hne : (bitPack r.bits).dropLast ≠ []) :
    ∃ e n, (e = .walkIncomplete ∨ e = .countMismatch) ∧ decodeBody w = .error ⟨.corruptFile e, n⟩ := by
  obtain ⟨h0, -, hmessage, -⟩ := encodeBody_ok hr
  obtain ⟨ht, hb⟩ := encodeMessage_some hmessage
  have hmne := s.message_ne_nil h0
  obtain ⟨hprefix, hshort⟩ := bitUnpack_shortened (encodeMessage_bits_ne_nil hmne hmessage)
  rw [← discardedBits_byte] at hprefix hshort
  have hbits := encodeMessage_bits hmessage
  obtain ⟨e, he, herror⟩ := decodeTable_of_proper_prefix ((message_total s).trans_le hdec) (ht ▸ hb)
    (frequencyAnalyze_counts _) (hprefix.trans (hbits ▸ List.prefix_rfl)) (hshort.trans_eq (congrArg List.length hbits))
  exact ⟨e, _, he, (decodeBody_of_holds hheld hne (readableTable_frequencyAnalyze hmne)
    (discardedBits_byte_le _)).trans herror⟩

/-- Settles O41: the shortened file holds the container without its last payload byte; with none left the header
check fails, and otherwise the bits are a proper start of the message's. -/
theorem truncationIsDetected : Obligations.TruncationIsDetected := by
  intro s r hlegal hbody hdec u v
  obtain ⟨h0, -, hmessage, -⟩ := encodeBody_ok hbody
  have hne := bitPack_ne_nil (encodeMessage_bits_ne_nil (s.message_ne_nil h0) hmessage)
  have hcaps : u.caps = s.caps := completionStep_caps _ _
  have hheld := ((holdsContainer_runCommand_encode hlegal hbody).dropLast
    (w := { u with regs := { u.regs with ctrLen := u.regs.ctrLen - 1 } }) hne rfl rfl rfl rfl).startCommand .decode
  have hlen : (bitPack r.bits).dropLast.length = (bitPack r.bits).length - 1 := List.length_dropLast
  by_cases hone : (bitPack r.bits).length = 1
  · rw [hone] at hlen
    rw [List.length_eq_zero_iff.1 hlen] at hheld
    obtain ⟨herr, hdetail⟩ := status_of_decodeBody_error rfl (decodeBody_of_structural_error hheld.structural_of_nil)
    exact ⟨herr, fun _ => hdetail, fun htwo => by omega⟩
  · have hpos := List.length_pos_iff.2 hne
    obtain ⟨e, _, he, herror⟩ := decodeBody_of_shortened hbody hheld (hdec.trans_eq (congrArg Caps.dec hcaps.symm))
      (List.length_pos_iff.1 (by omega))
    obtain ⟨herr, hdetail⟩ := status_of_decodeBody_error rfl herror
    refine ⟨herr, fun h => absurd h hone, fun _ => ?_⟩
    obtain rfl | rfl := he
    · exact .inl hdetail
    · exact .inr hdetail

end Sys2Proof.Machine
end

section
/-! PROOFS. VALIDATE, VERIFY and BAD_COMMAND: what each reports, and that VALIDATE's verdict is DECODE's
(44_validate_verify.md R117 to R120). -/

namespace Sys2Proof.Machine

/-! ### BAD_COMMAND (R120) -/

theorem badCommandStatus_eq : badCommandStatus = 0x62 := by decide

/-- Settles O23: BAD_COMMAND is a host write of `State.reportBadCommand`, which stores STATUS alone. -/
theorem badCommandReports : Obligations.BadCommandReports := by
  intro s v h1 h2 h3 h4
  obtain ⟨-, -, -, -, hother⟩ := commandWordSelects v
  have hx : exec (.badCommand v) s = .next (s.hostWrite State.reportBadCommand) := rfl
  refine ⟨(hother h1 h2 h3 h4).1, fun h => ?_, fun c h => exec_write_of_busy h rfl⟩
  rw [← badCommandStatus_eq]
  exact exec_hostWrite_of_idle hx h

/-! ### The report of the structural checks (R107, R117) -/

/-- The first structural check that fails, if one does (R107). -/
def State.structuralError (s : State) : Option CodecError :=
  match s.structural with
  | .ok _ => none
  | .error e => some e

theorem structuralError_of_error {s : State} {e : CodecError} (h : s.structural = .error e) :
    s.structuralError = some e := by
  rw [State.structuralError, h]

theorem structuralError_of_ok {s : State} {hd : Header} (h : s.structural = .ok hd) : s.structuralError = none := by
  rw [State.structuralError, h]

/-- VAL_RESULT reports the first structural check that fails (R117). -/
theorem valResultWord_eq (s : State) :
    s.valResultWord = packValResult s.structuralError.isNone s.symcountOk s.discardOk (errCode s.structuralError)
      (errDetail s.structuralError) := by
  rw [State.valResultWord, State.structuralError]
  cases s.structural <;> rfl

theorem structuralError_isNone_iff (s : State) :
    s.structuralError.isNone = true ↔
      (s.regs.present = true ∧ s.regs.ctrLen.toNat ≤ s.caps.ctr) ∧
        6 + 3 * be32 s.mem.ctr.get 0 ≤ s.regs.ctrLen.toNat := by
  cases h : s.structural with
  | ok hd =>
    obtain ⟨hpresent, hcap, hlen, -⟩ := (structuralCheck_ok_iff _ _ _ _ _).1 h
    simp [structuralError_of_ok h, hpresent, hcap, hlen]
  | error e =>
    rw [structuralError_of_error h]
    refine iff_of_false (by simp) fun ⟨⟨hpresent, hcap⟩, hlen⟩ => ?_
    cases h.symm.trans (structural_of_fits hpresent hcap hlen)

/-- What VALIDATE reports, check by check in their order (R107, R117). -/
theorem structuralError_report (s : State) :
    (errCode s.structuralError, errDetail s.structuralError) =
      if s.regs.present = false then (2, 0)
      else if s.caps.ctr < s.regs.ctrLen.toNat then (5, 2)
      else if s.regs.ctrLen.toNat < 5 then (3, 1)
      else if s.regs.ctrLen.toNat < 4 + 3 * be32 s.mem.ctr.get 0 then (3, 2)
      else if s.regs.ctrLen.toNat < 5 + 3 * be32 s.mem.ctr.get 0 then (3, 3)
      else if s.regs.ctrLen.toNat < 6 + 3 * be32 s.mem.ctr.get 0 then (3, 4)
      else (0, 0) := by
  rw [State.structuralError, State.structural, structuralCheck]
  split_ifs <;> rfl

theorem symcountOk_iff (s : State) :
    s.symcountOk = true ↔
      (s.regs.present = true ∧ s.regs.ctrLen.toNat ≤ s.caps.ctr) ∧ 5 ≤ s.regs.ctrLen.toNat := by
  simp only [State.symcountOk, Bool.and_eq_true, decide_eq_true_iff]

theorem discardOk_iff (s : State) :
    s.discardOk = true ↔
      (s.regs.present = true ∧ s.regs.ctrLen.toNat ≤ s.caps.ctr) ∧ 5 ≤ s.regs.ctrLen.toNat ∧
        5 + 3 * be32 s.mem.ctr.get 0 ≤ s.regs.ctrLen.toNat := by
  rw [State.discardOk, Bool.and_eq_true, decide_eq_true_iff, symcountOk_iff, State.symcount, and_assoc]

theorem completionStatus_startStatus : completionStatus none startStatus = packStatus false true false 0 0 := by decide

/-- Settles O42: VALIDATE reads the file the CMD write left as it was, and its verdict bits are the conditions its
fields parse under. -/
theorem validateReports : Obligations.ValidateReports := by
  intro s hp ctr len n file
  let t := (s.startCommand .validate).withResponse none
  have hstart : exec .validate s = .next t := exec_hostWrite_of_idle (exec_startingWrite .validate s) hp
  have hvalid : file ∧ 6 + 3 * n ≤ len ↔ t.structuralError.isNone = true := (structuralError_isNone_iff t).symm
  have hsymcount : file ∧ 5 ≤ len ↔ t.symcountOk = true := (symcountOk_iff t).symm
  have hdiscard : file ∧ 5 ≤ len ∧ 5 + 3 * n ≤ len ↔ t.discardOk = true := (discardOk_iff t).symm
  simp only [hvalid, hsymcount, hdiscard, Bool.decide_eq_true, ← completionStatus_startStatus]
  refine ⟨t, t.valResultWord, errCode t.structuralError, errDetail t.structuralError, hstart, rfl,
    engineTurn_of_busy (c := .validate) rfl, ?_, structuralError_report t⟩
  rw [valResultWord_eq]
  exact packReport_bits ..

/-! ### VALIDATE and DECODE (R118) -/

/-- The ERR and DETAIL of a structural failure (R123): FileNotFoundError, CapacityError 2, CorruptFileError 1 to 4. -/
abbrev StructuralCode (err : BitVec 4) (detail : BitVec 8) : Prop :=
  err = 2 ∨ (err = 5 ∧ detail = 2) ∨ (err = 3 ∧ 1 ≤ detail.toNat ∧ detail.toNat ≤ 4)

/-- The ERR and DETAIL of the failures VALIDATE does not see (R118): CorruptFileError 16 to 22, CapacityError 3. -/
abbrev ContentCode (err : BitVec 4) (detail : BitVec 8) : Prop :=
  (err = 3 ∧ 16 ≤ detail.toNat ∧ detail.toNat ≤ 22) ∨ (err = 5 ∧ detail = 3)

theorem ContentCode.not_structuralCode {err : BitVec 4} {detail : BitVec 8} (h : ContentCode err detail) :
    ¬ StructuralCode err detail := by
  obtain ⟨rfl, hlo, -⟩ | ⟨rfl, rfl⟩ := h
  · rintro (h | ⟨h, -⟩ | ⟨-, -, hhi⟩)
    · exact absurd h (by decide)
    · exact absurd h (by decide)
    · omega
  · decide

theorem structuralCheck_error_code {present : Bool} {len cap : Nat} {ctr : Nat → Byte} {e : CodecError}
    (h : structuralCheck present len cap ctr = .error e) : StructuralCode e.code e.detail := by
  unfold structuralCheck at h
  split_ifs at h <;> cases h <;> decide

theorem containerRead_error_code {ctr : Nat → Byte} {n d : Nat} {e : CorruptDetail}
    (h : containerRead ctr n d = .error e) :
    ContentCode (CodecError.corruptFile e).code (CodecError.corruptFile e).detail := by
  unfold containerRead at h
  split at h
  · cases h; decide
  split at h
  next hread =>
    cases h
    obtain rfl | rfl := readEntries_error hread <;> decide
  split at h
  · cases h; decide
  · cases h

theorem walk_error_code {root : Tree} {total : Nat} {bits : Bits} {cur : Tree} {out : List Byte} {e : CorruptDetail}
    (h : walk root total bits cur out = .error e) :
    ContentCode (CodecError.corruptFile e).code (CodecError.corruptFile e).detail := by
  obtain rfl | rfl | ⟨rfl, -⟩ := walk_error h <;> decide

theorem countMismatch_code :
    ContentCode (CodecError.corruptFile .countMismatch).code (CodecError.corruptFile .countMismatch).detail := by
  decide

theorem decodeTable_error_code {cap d : Nat} {t : FreqTable} {p : List Byte} {f : DecodeFailure}
    (h : decodeTable cap t d p = .error f) : ContentCode f.error.code f.error.detail := by
  unfold decodeTable at h
  split at h
  · cases h; decide
  split at h
  · cases h; decide
  split at h
  next hwalk => cases h; exact walk_error_code hwalk
  split at h
  · cases h
  · cases h; exact countMismatch_code

/-- Past the structural checks DECODE fails on the content or at DEC's capacity (R118). -/
theorem decodeBody_error_code {s : State} {hd : Header} {f : DecodeFailure} (hs : s.structural = .ok hd)
    (h : decodeBody s = .error f) : ContentCode f.error.code f.error.detail := by
  cases hr : containerRead s.mem.ctr.get hd.n hd.d with
  | error e =>
    cases (decodeBody_of_read_error hs hr).symm.trans h
    exact containerRead_error_code hr
  | ok t => exact decodeTable_error_code ((decodeBody_of_read hs hr).symm.trans h)

/-- Settles O43: both commands run the same structural checks on the same file; when one fails, DECODE fails with its
error, and when all pass, what is left to fail is the content. -/
theorem validatorAgreesWithDecode : Obligations.ValidatorAgreesWithDecode := by
  intro s v d
  let u := s.startCommand .decode
  have hd : d = (engineTurn u).regs.status := congrArg (fun x => x.regs.status) (runCommand_eq_engineTurn .decode s)
  have hv : v = packValResult u.structuralError.isNone u.symcountOk u.discardOk (errCode u.structuralError)
      (errDetail u.structuralError) := valResultWord_eq (s.startCommand .validate)
  have hvalid : v.getLsbD 0 = u.structuralError.isNone := hv ▸ (packReport_bits ..).1
  cases hs : u.structural with
  | error e =>
    obtain ⟨herr, hdetail⟩ := status_of_decodeBody_error rfl (decodeBody_of_structural_error hs)
    rw [← hd] at herr hdetail
    rw [structuralError_of_error hs] at hv hvalid
    have hcode : StructuralCode (statusErr d) (statusDetail d) := by
      rw [herr, hdetail]
      exact structuralCheck_error_code hs
    refine ⟨iff_of_false (by rw [hvalid]; exact Bool.false_ne_true) (not_not_intro hcode), fun _ => ?_, fun h => ?_⟩
    · rw [herr, hdetail, hv]
      exact ⟨statusErr_pack .., statusDetail_pack ..⟩
    · cases h.symm.trans hvalid
  | ok _ =>
    rw [structuralError_of_ok hs] at hvalid
    have hcode : statusErr d = 0 ∨ ContentCode (statusErr d) (statusDetail d) := by
      cases hbody : decodeBody u with
      | ok r => exact .inl (hd ▸ statusErr_of_decodeBody_ok rfl hbody)
      | error f =>
        obtain ⟨herr, hdetail⟩ := status_of_decodeBody_error rfl hbody
        rw [hd, herr, hdetail]
        exact .inr (decodeBody_error_code hs hbody)
    refine ⟨iff_of_true hvalid ?_, fun h => ?_, fun _ => hcode⟩
    · obtain hzero | hcontent := hcode
      · rw [hzero]
        rintro (h | ⟨h, -⟩ | ⟨h, -⟩) <;> exact absurd h (by decide)
      · exact hcontent.not_structuralCode
    · cases h.symm.trans hvalid

/-! ### VERIFY (R119) -/

theorem firstMismatch_eq_some_iff {dec msg : Nat → Byte} {k i : Nat} :
    firstMismatch dec msg k = some i ↔ i < k ∧ dec i ≠ msg i ∧ ∀ j < i, dec j = msg j := by
  simp [firstMismatch, List.find?_range_eq_some, and_left_comm]

theorem firstMismatch_eq_none_iff {dec msg : Nat → Byte} {k : Nat} :
    firstMismatch dec msg k = none ↔ ∀ j < k, dec j = msg j := by
  simp [firstMismatch]

/-- The decoded message and the original agree below `k` (R119). -/
abbrev State.AgreesBelow (s : State) (k : Nat) : Prop := ∀ j < k, s.mem.dec.get j = s.mem.msg.get j

theorem compareMessage_of_mismatch {s : State} {i : Nat} (hi : i < min s.regs.decLen.toNat s.regs.msgLen.toNat)
    (hne : s.mem.dec.get i ≠ s.mem.msg.get i) (hbefore : s.AgreesBelow i) :
    s.compareMessage = (false, BitVec.ofNat 32 i) := by
  rw [State.compareMessage, firstMismatch_eq_some_iff.2 ⟨hi, hne, hbefore⟩]

theorem compareMessage_of_agree {s : State} (h : s.AgreesBelow (min s.regs.decLen.toNat s.regs.msgLen.toNat)) :
    s.compareMessage =
      if s.regs.decLen ≠ s.regs.msgLen then
        (false, BitVec.ofNat 32 (min s.regs.decLen.toNat s.regs.msgLen.toNat))
      else (true, 0xFFFFFFFF) := by
  rw [State.compareMessage, firstMismatch_eq_none_iff.2 h]

/-- MATCH and VER_MISMATCH on what a decode leaves that ended with the error `e` or with none: the comparison is made
only after a success, and only if the original fits MSG (R119). -/
def State.verdict (s : State) (e : Option CodecError) : Bool × Word :=
  if e = none ∧ s.regs.msgLen.toNat ≤ s.caps.msg then s.compareMessage else (false, 0xFFFFFFFF)

/-- VERIFY's report on such a state (R119, R41). -/
def State.reportVerify (s : State) (e : Option CodecError) : State :=
  s.withRegs
    { s.regs with
      verResult :=
        packVerResult (s.verdict e).1 (decide (s.caps.msg < s.regs.msgLen.toNat)) e.isNone (errCode e) (errDetail e)
      verMismatch := (s.verdict e).2 }

theorem verdict_none {s : State} (h : s.regs.msgLen.toNat ≤ s.caps.msg) : s.verdict none = s.compareMessage :=
  if_pos ⟨rfl, h⟩

theorem verdict_of_uncompared {s : State} {e : Option CodecError}
    (h : e.isNone = false ∨ s.caps.msg < s.regs.msgLen.toNat) : s.verdict e = (false, 0xFFFFFFFF) := by
  refine if_neg ?_
  rintro ⟨rfl, hfits⟩
  exact h.elim Bool.noConfusion (Nat.not_lt.2 hfits)

theorem reportDecoded_eq_reportVerify (s : State) : reportDecoded s = s.reportVerify none := by
  rw [reportDecoded, State.reportVerify]
  split
  next h => rw [verdict_of_uncompared (.inr h), decide_eq_true h]; rfl
  next h => rw [verdict_none (Nat.le_of_not_lt h), decide_eq_false h]; rfl

theorem reportUndecoded_eq_reportVerify (s : State) (e : CodecError) :
    reportUndecoded s e = s.reportVerify (some e) := rfl

/-- VERIFY leaves DECODE's writes or its failure rule, with a report added and STATUS free of error (R119, R126). -/
theorem completeVerify_eq_reportVerify (s : State) :
    ∃ u e, BodyFrame s u ∧ completeDecode s = u.complete e ∧ completeVerify s = (u.reportVerify e).complete none := by
  cases h : decodeBody s with
  | ok r =>
    refine ⟨applyDecode s r, none, applyDecode_frame s r, ?_, ?_⟩
    · rw [completeDecode, h]
    · rw [completeVerify, h, ← reportDecoded_eq_reportVerify]
  | error f =>
    refine ⟨failDecode s f, some f.error, failDecode_frame s f, ?_, ?_⟩
    · rw [completeDecode, h]
    · rw [completeVerify, h, ← reportUndecoded_eq_reportVerify]

theorem errCode_eq_zero_iff (e : Option CodecError) : errCode e = 0 ↔ e = none := by
  cases e with
  | none => exact iff_of_true rfl rfl
  | some e => exact iff_of_false e.code_ne_zero (Option.some_ne_none e)

/-- Settles O44: VERIFY's completion is DECODE's with the report added, and its verdict is the first mismatch, then
the lengths. -/
theorem verifyReports : Obligations.VerifyReports := by
  intro s hp
  let t := (s.startCommand .verify).withResponse none
  obtain ⟨u, e, hframe, hdecode, hverify⟩ := completeVerify_eq_reportVerify t
  have hstart : exec .verify s = .next t := exec_hostWrite_of_idle (exec_startingWrite .verify s) hp
  have hturn : engineTurn t = (u.reportVerify e).complete none := (engineTurn_of_busy (c := .verify) rfl).trans hverify
  have hd : completionStep .decode t = u.complete e := hdecode
  have hn : u.regs.msgLen = s.regs.msgLen := hframe.msgLen
  have hcaps : u.caps = s.caps := hframe.caps
  have hmsg : u.mem.msg = s.mem.msg := hframe.msg
  have hstatus : completionStatus none u.regs.status = packStatus false true false 0 0 := by
    rw [hframe.status]
    exact completionStatus_startStatus
  have herr : statusErr (u.complete e).regs.status = errCode e := statusErr_pack ..
  have hdetail : statusDetail (u.complete e).regs.status = errDetail e := statusDetail_pack ..
  refine ⟨t, (u.reportVerify e).regs.verResult, (u.verdict e).2, errCode e, errDetail e, (u.verdict e).1, e.isNone,
    hstart, rfl, ?_⟩
  simp only [hturn, hd]
  rw [← hstatus, ← hn, ← hcaps, ← hmsg]
  refine ⟨rfl, packReport_bits .., herr.symm, hdetail.symm, ?_, fun h => ?_, fun hdecoded hfits => ?_⟩
  · rw [errCode_eq_zero_iff, Option.isNone_iff_eq_none]
  · exact Prod.ext_iff.1 (verdict_of_uncompared h)
  · obtain rfl := Option.isNone_iff_eq_none.1 hdecoded
    rw [verdict_none hfits]
    refine ⟨fun i hi hne hbefore => ?_, fun hagree hne => ?_, fun hagree heq => ?_⟩
    · exact Prod.ext_iff.1 (compareMessage_of_mismatch (s := u) hi hne hbefore)
    · exact Prod.ext_iff.1 ((compareMessage_of_agree (s := u) hagree).trans (if_pos hne))
    · exact Prod.ext_iff.1 ((compareMessage_of_agree (s := u) hagree).trans (if_neg (not_not_intro heq)))

end Sys2Proof.Machine
end

section
/-! PROOFS. The error each command completes with, and what its completion step leaves (60_exceptions.md R122 to
R126). -/

namespace Sys2Proof.Machine

/-- The error a command's completion records (R126): the one the body of ENCODE or DECODE raises; VALIDATE and VERIFY
raise none. -/
def completionError (c : Command) (s : State) : Option CodecError :=
  match c with
  | .encode => match encodeBody s with
    | .ok _ => none
    | .error e => some e
  | .decode => match decodeBody s with
    | .ok _ => none
    | .error f => some f.error
  | .validate | .verify => none

theorem completionError_encode_of_ok {s : State} {r : EncodeResult} (h : encodeBody s = .ok r) :
    completionError .encode s = none := by
  simp only [completionError, h]

theorem completionError_encode_of_error {s : State} {e : CodecError} (h : encodeBody s = .error e) :
    completionError .encode s = some e := by
  simp only [completionError, h]

theorem completionError_decode_of_ok {s : State} {r : DecodeResult} (h : decodeBody s = .ok r) :
    completionError .decode s = none := by
  simp only [completionError, h]

theorem completionError_decode_of_error {s : State} {f : DecodeFailure} (h : decodeBody s = .error f) :
    completionError .decode s = some f.error := by
  simp only [completionError, h]

theorem reportVerify_frame (s : State) (e : Option CodecError) : BodyFrame s (s.reportVerify e) :=
  ⟨rfl, rfl, rfl, rfl, rfl, rfl⟩

/-- Every command ends in the shared completion step with its own error, after writes that keep the frame (R126). -/
theorem completionStep_eq_complete_completionError (c : Command) (s : State) :
    ∃ u, BodyFrame s u ∧ completionStep c s = u.complete (completionError c s) := by
  cases c with
  | encode =>
    obtain ⟨r, hr, h⟩ | ⟨e, he, h⟩ := completeEncode_cases s
    · exact ⟨_, applyEncode_frame s r, completionError_encode_of_ok hr ▸ h⟩
    · exact ⟨_, failEncode_frame s, completionError_encode_of_error he ▸ h⟩
  | decode =>
    obtain ⟨r, hr, h⟩ | ⟨f, hf, h⟩ := completeDecode_cases s
    · exact ⟨_, applyDecode_frame s r, completionError_decode_of_ok hr ▸ h⟩
    · exact ⟨_, failDecode_frame s f, completionError_decode_of_error hf ▸ h⟩
  | validate => exact ⟨_, applyValidate_frame s, rfl⟩
  | verify =>
    obtain ⟨u, e, hu, -, h⟩ := completeVerify_eq_reportVerify s
    exact ⟨_, hu.trans (reportVerify_frame u e), h⟩

/-- Settles O24: every command ends in the shared completion step, which records the command's own error, and the
writes before it keep the frame. -/
theorem completionSetsStatus : Obligations.CompletionSetsStatus := by
  intro s c hp
  obtain ⟨u, hu, hstep⟩ := completionStep_eq_complete_completionError c s
  have hturn : engineTurn s = u.complete (completionError c s) := (engineTurn_of_busy hp).trans hstep
  have hstatus : (u.complete (completionError c s)).regs.status =
      packStatus false true (statusWign s.regs.status) (errCode (completionError c s))
        (errDetail (completionError c s)) := by
    rw [State.complete_regs, hu.status, completionStatus_eq]
  simp only [hturn]
  refine ⟨rfl, hu.msgLen, hu.msg, hu.caps, hu.events, hu.response, completionError c s, hstatus, ?_, ?_, ?_, ?_, ?_⟩
  · rintro (rfl | rfl) <;> rfl
  · rintro rfl x h
    exact completionError_encode_of_error h
  · rintro rfl r h
    exact completionError_encode_of_ok h
  · rintro rfl f h
    exact completionError_decode_of_error h
  · rintro rfl r h
    exact completionError_decode_of_ok h

end Sys2Proof.Machine
end

section
/-! PROOFS. Who changes which buffer (70_reset_and_hazards.md R144). -/

namespace Sys2Proof.Machine

/-! ### What can change a part of the state (R141) -/

/-- `g` is a part of the state that neither the bookkeeping of a transaction nor an ignored write touches (R80, R142). -/
structure UntouchedByPort {α : Type} (g : State → α) : Prop where
  events : ∀ s l, g (s.withEvents l) = g s
  response : ∀ s r, g (s.withResponse r) = g s
  respondDraw : ∀ s, g s.respondDraw = g s
  ignoreWrite : ∀ s, g s.ignoreWrite = g s

variable {α : Type} {g : State → α} {s t : State} {i : Instr}

/-- A transaction changes such a part only by the effect of a write while IDLE. -/
theorem UntouchedByPort.exec_changes (hg : UntouchedByPort g) (h : exec i s = .next t) (hne : g t ≠ g s) :
    s.phase = .idle ∧ ∃ u, WriteEffect s i u ∧ g u ≠ g s := by
  obtain ⟨-, v, rfl⟩ | ⟨-, -, rfl⟩ | ⟨-, -, rfl⟩ | ⟨-, hp, u, hu, rfl⟩ := exec_next_cases h
  · exact absurd (hg.response s _) hne
  · exact absurd (hg.respondDraw s) hne
  · exact absurd ((hg.response _ _).trans (hg.ignoreWrite s)) hne
  · exact ⟨hp, u, hu, hg.response u none ▸ hne⟩

theorem engineTurn_changes (hne : g (engineTurn s) ≠ g s) : ∃ c, s.phase = .busy c ∧ g (completionStep c s) ≠ g s := by
  cases hp : s.phase with
  | idle => exact absurd (congrArg g (engineTurn_of_idle hp)) hne
  | busy c => exact ⟨c, rfl, engineTurn_of_busy hp ▸ hne⟩

/-- A step changes such a part by the effect of a write while IDLE, by a completion, or by a reset. -/
theorem UntouchedByPort.step_changes (hg : UntouchedByPort g) (h : step s = .next t) (hne : g t ≠ g s) :
    (s.phase = .idle ∧ ∃ p rest u, s.events = .packet p :: rest ∧
      WriteEffect (s.withEvents rest) (decodePacket p) u ∧ g u ≠ g (s.withEvents rest)) ∨
    (∃ c l, s.phase = .busy c ∧ t.phase = .idle ∧ g (completionStep c (s.withEvents l)) ≠ g (s.withEvents l)) ∨
    ∃ rest, s.events = .reset :: rest ∧ g (s.withEvents rest).resetInput ≠ g (s.withEvents rest) := by
  obtain ⟨-, rfl⟩ | ⟨rest, -, rfl⟩ | ⟨rest, he, rfl⟩ | ⟨p, rest, he, hx⟩ := step_cases h
  · obtain ⟨c, hp, hc⟩ := engineTurn_changes hne
    exact .inr (.inl ⟨c, s.events, hp, engineTurn_phase s, hc⟩)
  · rw [← hg.events s rest] at hne
    obtain ⟨c, hp, hc⟩ := engineTurn_changes hne
    exact .inr (.inl ⟨c, rest, hp, engineTurn_phase _, hc⟩)
  · exact .inr (.inr ⟨rest, he, hg.events s rest ▸ hne⟩)
  · obtain ⟨hp, u, hu, hne⟩ := hg.exec_changes hx (hg.events s rest ▸ hne)
    exact .inl ⟨hp, p, rest, u, he, hu, hne⟩

/-! ### The buffers and the file registers -/

/-- CTR_LEN and CTR_PRESENT, which say whether CTR holds a file and how long it is (R27, R28). -/
def State.fileRegs (s : State) : Word × Word := (s.regs.ctrLen, s.regs.ctrPresent)

theorem WriteEffect.msg_changes {u : State} (hw : WriteEffect s i u) (hne : u.mem.msg ≠ s.mem.msg) :
    ∃ a v, i = .msgWr a v := by
  cases hw with
  | msg a v => exact ⟨a, v, rfl⟩
  | ignored | regs | ctr | bad | start => exact absurd rfl hne

theorem WriteEffect.ctr_changes {u : State} (hw : WriteEffect s i u) (hne : u.mem.ctr ≠ s.mem.ctr) :
    ∃ a v, i = .ctrWr a v := by
  cases hw with
  | ctr a v => exact ⟨a, v, rfl⟩
  | ignored | regs | msg | bad | start => exact absurd rfl hne

theorem WriteEffect.dec_eq {u : State} (hw : WriteEffect s i u) : u.mem.dec = s.mem.dec := by
  cases hw <;> rfl

theorem WriteEffect.fileRegs_changes {u : State} (hw : WriteEffect s i u) (hne : u.fileRegs ≠ s.fileRegs) :
    ∃ a v, i = .regWr a v := by
  cases hw with
  | regs a v => exact ⟨a, v, rfl⟩
  | ignored | msg | ctr | bad | start => exact absurd rfl hne

theorem completionStep_msg (c : Command) (s : State) : (completionStep c s).mem.msg = s.mem.msg := by
  obtain ⟨u, e, h, hu⟩ := completionStep_eq_complete c s
  rw [h, State.complete_mem, hu.msg]

/-- Only ENCODE writes the file in CTR (R104, R144). -/
theorem completionStep_file {c : Command} (hc : c ≠ .encode) (s : State) :
    (completionStep c s).mem.ctr = s.mem.ctr ∧ (completionStep c s).fileRegs = s.fileRegs := by
  have hfail : ∀ f, (failDecode s f).mem.ctr = s.mem.ctr ∧ (failDecode s f).fileRegs = s.fileRegs := fun f =>
    ⟨by rw [failDecode_mem], by rw [State.fileRegs, failDecode_regs, State.fileRegs]⟩
  cases c with
  | encode => exact absurd rfl hc
  | decode =>
    obtain ⟨r, -, h⟩ | ⟨f, -, h⟩ := completeDecode_cases s <;> rw [completionStep, h]
    · exact ⟨rfl, rfl⟩
    · exact hfail f
  | validate => exact ⟨rfl, rfl⟩
  | verify =>
    obtain ⟨r, -, h⟩ | ⟨f, -, h⟩ := completeVerify_cases s <;> rw [completionStep, h]
    · rw [reportDecoded_eq_reportVerify]
      exact ⟨rfl, rfl⟩
    · exact hfail f

/-- ENCODE and VALIDATE leave DEC as it is (R144). -/
theorem completionStep_dec {c : Command} (hd : c ≠ .decode) (hv : c ≠ .verify) (s : State) :
    (completionStep c s).mem.dec = s.mem.dec := by
  cases c with
  | encode => obtain ⟨r, -, h⟩ | ⟨e, -, h⟩ := completeEncode_cases s <;> rw [completionStep, h] <;> rfl
  | validate => rfl
  | decode => exact absurd rfl hd
  | verify => exact absurd rfl hv

theorem resetInput_msg (s : State) : s.resetInput.mem.msg = s.mem.msg := by
  show s.resetMem.msg = s.mem.msg
  unfold State.resetMem
  split <;> rfl

/-- A reset while IDLE keeps CTR and DEC (R138). -/
theorem resetInput_mem_of_idle (h : s.phase = .idle) : s.resetInput.mem = s.mem.clearTables :=
  if_neg (by rw [State.isBusy_of_idle h]; decide)

/-- A reset while BUSY makes every byte of CTR and DEC a free value (R138, I3). -/
theorem resetInput_mem_of_busy {c : Command} (h : s.phase = .busy c) :
    s.resetInput.mem =
      { s.mem.clearTables with ctr := .unspecified s.fresh, dec := .unspecified (s.fresh + 1) } :=
  if_pos (State.isBusy_of_busy h)

/-- A reset that does not keep CTR and DEC is taken while BUSY (R138). -/
theorem busy_of_resetInput_changes (h : s.resetInput.mem.ctr ≠ s.mem.ctr ∨ s.resetInput.mem.dec ≠ s.mem.dec) :
    ∃ c, s.phase = .busy c := by
  cases hp : s.phase with
  | idle =>
    rw [resetInput_mem_of_idle hp] at h
    exact h.elim (absurd rfl) (absurd rfl)
  | busy c => exact ⟨c, rfl⟩

theorem step_changes_msg (h : step s = .next t) (hne : t.mem.msg ≠ s.mem.msg) :
    s.phase = .idle ∧ ∃ p rest i v, s.events = .packet p :: rest ∧ decodePacket p = .msgWr i v := by
  have hg : UntouchedByPort fun s => s.mem.msg := ⟨fun _ _ => rfl, fun _ _ => rfl, fun _ => rfl, fun _ => rfl⟩
  obtain ⟨hp, p, rest, u, he, hu, hne⟩ | ⟨c, l, -, -, hne⟩ | ⟨rest, -, hne⟩ := hg.step_changes h hne
  · obtain ⟨a, v, hi⟩ := hu.msg_changes hne
    exact ⟨hp, p, rest, a, v, he, hi⟩
  · exact absurd (completionStep_msg c _) hne
  · exact absurd (resetInput_msg _) hne

theorem step_changes_ctr (h : step s = .next t) (hne : t.mem.ctr ≠ s.mem.ctr) :
    (s.phase = .idle ∧ ∃ p rest i v, s.events = .packet p :: rest ∧ decodePacket p = .ctrWr i v) ∨
    (s.phase = .busy .encode ∧ t.phase = .idle) ∨ ∃ c rest, s.phase = .busy c ∧ s.events = .reset :: rest := by
  have hg : UntouchedByPort fun s => s.mem.ctr := ⟨fun _ _ => rfl, fun _ _ => rfl, fun _ => rfl, fun _ => rfl⟩
  obtain ⟨hp, p, rest, u, he, hu, hne⟩ | ⟨c, l, hp, ht, hne⟩ | ⟨rest, he, hne⟩ := hg.step_changes h hne
  · obtain ⟨a, v, hi⟩ := hu.ctr_changes hne
    exact .inl ⟨hp, p, rest, a, v, he, hi⟩
  · obtain rfl | hc := eq_or_ne c .encode
    · exact .inr (.inl ⟨hp, ht⟩)
    · exact absurd (completionStep_file hc _).1 hne
  · obtain ⟨c, hp⟩ := busy_of_resetInput_changes (.inl hne)
    exact .inr (.inr ⟨c, rest, hp, he⟩)

theorem step_changes_dec (h : step s = .next t) (hne : t.mem.dec ≠ s.mem.dec) :
    ((s.phase = .busy .decode ∨ s.phase = .busy .verify) ∧ t.phase = .idle) ∨
    ∃ c rest, s.phase = .busy c ∧ s.events = .reset :: rest := by
  have hg : UntouchedByPort fun s => s.mem.dec := ⟨fun _ _ => rfl, fun _ _ => rfl, fun _ => rfl, fun _ => rfl⟩
  obtain ⟨-, p, rest, u, -, hu, hne⟩ | ⟨c, l, hp, ht, hne⟩ | ⟨rest, he, hne⟩ := hg.step_changes h hne
  · exact absurd hu.dec_eq hne
  · obtain rfl | hd := eq_or_ne c .decode
    · exact .inl ⟨.inl hp, ht⟩
    obtain rfl | hv := eq_or_ne c .verify
    · exact .inl ⟨.inr hp, ht⟩
    · exact absurd (completionStep_dec hd hv _) hne
  · obtain ⟨c, hp⟩ := busy_of_resetInput_changes (.inr hne)
    exact .inr ⟨c, rest, hp, he⟩

theorem step_changes_fileRegs (h : step s = .next t) (hne : t.fileRegs ≠ s.fileRegs) :
    (s.phase = .idle ∧ ∃ p rest i v, s.events = .packet p :: rest ∧ decodePacket p = .regWr i v) ∨
    (s.phase = .busy .encode ∧ t.phase = .idle) ∨ ∃ rest, s.events = .reset :: rest := by
  have hg : UntouchedByPort State.fileRegs := ⟨fun _ _ => rfl, fun _ _ => rfl, fun _ => rfl, fun _ => rfl⟩
  obtain ⟨hp, p, rest, u, he, hu, hne⟩ | ⟨c, l, hp, ht, hne⟩ | ⟨rest, he, -⟩ := hg.step_changes h hne
  · obtain ⟨a, v, hi⟩ := hu.fileRegs_changes hne
    exact .inl ⟨hp, p, rest, a, v, he, hi⟩
  · obtain rfl | hc := eq_or_ne c .encode
    · exact .inr (.inl ⟨hp, ht⟩)
    · exact absurd (completionStep_file hc _).2 hne
  · exact .inr (.inr ⟨rest, he⟩)

/-- Settles O45: by the kinds of step, and for each buffer by which writes, completions and resets touch it. -/
theorem bufferOwnership : Obligations.BufferOwnership := by
  refine fun s t h => ⟨step_changes_msg h, step_changes_ctr h, step_changes_dec h, fun hne => ?_⟩
  refine step_changes_fileRegs h fun heq => ?_
  obtain ⟨hlen, hpresent⟩ := Prod.ext_iff.1 heq
  exact hne.elim (absurd hlen) (absurd hpresent)

end Sys2Proof.Machine
end

section
/-! PROOFS. A running command ends, and its results do not depend on when (70_reset_and_hazards.md R141, R146). -/

namespace Sys2Proof.Machine

/-! ### A running command ends (R141) -/

theorem WriteEffect.events_eq {s u : State} {i : Instr} (hw : WriteEffect s i u) : u.events = s.events := by
  cases hw <;> rfl

/-- A transaction leaves the schedule as it is. -/
theorem exec_events {i : Instr} {s t : State} (h : exec i s = .next t) : t.events = s.events := by
  obtain ⟨-, v, rfl⟩ | ⟨-, -, rfl⟩ | ⟨-, -, rfl⟩ | ⟨-, -, u, hu, rfl⟩ := exec_next_cases h
  · rfl
  · rfl
  · rfl
  · exact hu.events_eq

theorem run_succ_of_next {M : Host.Core} {s t : M.State} (h : M.step s = .next t) (k : Nat) :
    M.run (k + 1) s = M.run k t := by
  rw [Host.Core.run, h]

theorem run_succ {s t : State} (h : step s = .next t) (k : Nat) :
    Sys2Proof.core.run (k + 1) s = Sys2Proof.core.run k t :=
  run_succ_of_next (M := Sys2Proof.core) h k

/-- A step while BUSY ends the command, or takes a transaction off the schedule and the command goes on (R133). -/
theorem step_of_busy {s t : State} {c : Command} (h : step s = .next t) (hp : s.phase = .busy c) :
    t.phase = .idle ∨ t.phase = .busy c ∧ s.events.length = t.events.length + 1 := by
  obtain ⟨-, rfl⟩ | ⟨rest, -, rfl⟩ | ⟨rest, -, rfl⟩ | ⟨p, rest, he, hx⟩ := step_cases h
  · exact .inl (engineTurn_phase s)
  · exact .inl (engineTurn_phase _)
  · exact .inl rfl
  · have ht : t.events = rest := exec_events hx
    exact .inr ⟨exec_phase_of_busy hx hp, by rw [he, ht, List.length_cons]⟩

/-- Settles O47, by induction on the number of waiting events: each transaction takes one off, and any other step ends
the command. -/
theorem runningCommandEnds : Obligations.RunningCommandEnds := by
  intro s c hp
  induction hn : s.events.length generalizing s with
  | zero =>
    obtain ⟨t, h⟩ := step_answers s
    obtain ht | ⟨-, hlen⟩ := step_of_busy h hp
    · exact ⟨1, le_rfl, t, run_succ h 0, ht⟩
    · omega
  | succ n ih =>
    obtain ⟨t, h⟩ := step_answers s
    obtain ht | ⟨ht, hlen⟩ := step_of_busy h hp
    · exact ⟨1, by omega, t, run_succ h 0, ht⟩
    · obtain ⟨k, hk, u, hu, hidle⟩ := ih t ht (by omega)
      exact ⟨k + 1, by omega, u, (run_succ h k).trans hu, hidle⟩

/-! ### No result depends on when the completion step occurs (R146) -/

/-- `s` with another STATUS, another next free value and another response: all that transactions can change while a
command runs (R80, R142). -/
def State.disturbed (s : State) (w : Word) (n : Nat) (r : Option Word) : State :=
  ((s.withRegs { s.regs with status := w }).withFresh n).withResponse r

theorem exec_of_busy_eq_disturbed {i : Instr} {s t : State} {c : Command} (hp : s.phase = .busy c)
    (h : exec i s = .next t) : ∃ w n r, t = s.disturbed w n r := by
  obtain ⟨-, v, rfl⟩ | ⟨-, -, rfl⟩ | ⟨-, -, rfl⟩ | ⟨-, hidle, -⟩ := exec_next_cases h
  · exact ⟨s.regs.status, s.fresh, some v, rfl⟩
  · exact ⟨s.regs.status, s.fresh + 1, some (Config.draw s.fresh), rfl⟩
  · exact ⟨setWign s.regs.status, s.fresh, none, rfl⟩
  · exact absurd (hidle.symm.trans hp) (by simp)

/-- `s` and `t` hold the same results: all registers but STATUS, MSG, CTR, the tables, and the known bytes of DEC. -/
structure SameResults (s t : State) : Prop where
  regs : t.regs = { s.regs with status := t.regs.status }
  msg : t.mem.msg = s.mem.msg
  ctr : t.mem.ctr = s.mem.ctr
  freq : t.mem.freq = s.mem.freq
  node : t.mem.node = s.mem.node
  code : t.mem.code = s.mem.code
  decCells : t.mem.dec.cells = s.mem.dec.cells

theorem SameResults.complete {s t : State} (h : SameResults s t) (e : Option CodecError) :
    SameResults (s.complete e) (t.complete e) where
  regs := by rw [State.complete_regs, h.regs, State.complete_regs]
  msg := h.msg
  ctr := h.ctr
  freq := h.freq
  node := h.node
  code := h.code
  decCells := h.decCells

theorem applyEncode_disturbed (s : State) (w : Word) (n : Nat) (r : Option Word) (x : EncodeResult) :
    SameResults (applyEncode s x) (applyEncode (s.disturbed w n r) x) :=
  ⟨rfl, rfl, rfl, rfl, rfl, rfl, rfl⟩

theorem failEncode_disturbed (s : State) (w : Word) (n : Nat) (r : Option Word) :
    SameResults (failEncode s) (failEncode (s.disturbed w n r)) :=
  ⟨rfl, rfl, rfl, rfl, rfl, rfl, rfl⟩

theorem applyDecode_disturbed (s : State) (w : Word) (n : Nat) (r : Option Word) (x : DecodeResult) :
    SameResults (applyDecode s x) (applyDecode (s.disturbed w n r) x) :=
  ⟨rfl, rfl, rfl, rfl, rfl, rfl, rfl⟩

/-- The failure rule names its free bytes by the counter, but forgets the same known ones (R113). -/
theorem failDecode_disturbed (s : State) (w : Word) (n : Nat) (r : Option Word) (f : DecodeFailure) :
    SameResults (failDecode s f) (failDecode (s.disturbed w n r) f) := by
  unfold failDecode
  cases f.spoiled <;> exact ⟨rfl, rfl, rfl, rfl, rfl, rfl, rfl⟩

theorem applyValidate_disturbed (s : State) (w : Word) (n : Nat) (r : Option Word) :
    SameResults (applyValidate s) (applyValidate (s.disturbed w n r)) :=
  ⟨rfl, rfl, rfl, rfl, rfl, rfl, rfl⟩

theorem reportDecoded_applyDecode_disturbed (s : State) (w : Word) (n : Nat) (r : Option Word) (x : DecodeResult) :
    SameResults (reportDecoded (applyDecode s x)) (reportDecoded (applyDecode (s.disturbed w n r) x)) := by
  simp only [reportDecoded_eq_reportVerify]
  exact ⟨rfl, rfl, rfl, rfl, rfl, rfl, rfl⟩

theorem SameResults.reportUndecoded {s t : State} (h : SameResults s t) (hcaps : t.caps = s.caps) (e : CodecError) :
    SameResults (reportUndecoded s e) (reportUndecoded t e) where
  regs := by
    simp only [Machine.reportUndecoded, State.withRegs_regs, hcaps]
    rw [h.regs]
  msg := h.msg
  ctr := h.ctr
  freq := h.freq
  node := h.node
  code := h.code
  decCells := h.decCells

theorem completeDecode_of_ok {s : State} {x : DecodeResult} (h : decodeBody s = .ok x) :
    completeDecode s = (applyDecode s x).complete none := by
  rw [completeDecode, h]

theorem completeDecode_of_error {s : State} {f : DecodeFailure} (h : decodeBody s = .error f) :
    completeDecode s = (failDecode s f).complete (some f.error) := by
  rw [completeDecode, h]

theorem completeVerify_of_ok {s : State} {x : DecodeResult} (h : decodeBody s = .ok x) :
    completeVerify s = (reportDecoded (applyDecode s x)).complete none := by
  rw [completeVerify, h]

theorem completeVerify_of_error {s : State} {f : DecodeFailure} (h : decodeBody s = .error f) :
    completeVerify s = (reportUndecoded (failDecode s f) f.error).complete none := by
  rw [completeVerify, h]

/-- The body of a command reads none of what was disturbed, so it ends in the same way (R146). -/
theorem completionStep_disturbed (c : Command) (s : State) (w : Word) (n : Nat) (r : Option Word) :
    ∃ u v e, completionStep c s = u.complete e ∧ completionStep c (s.disturbed w n r) = v.complete e ∧
      SameResults u v := by
  cases c with
  | encode =>
    have hbody : encodeBody (s.disturbed w n r) = encodeBody s := encodeBody_congr rfl rfl rfl rfl
    obtain ⟨x, hx, h⟩ | ⟨e, he, h⟩ := completeEncode_cases s
    · exact ⟨_, _, _, h, completeEncode_of_ok (hbody.trans hx), applyEncode_disturbed s w n r x⟩
    · exact ⟨_, _, _, h, completeEncode_of_error (hbody.trans he), failEncode_disturbed s w n r⟩
  | decode =>
    have hbody : decodeBody (s.disturbed w n r) = decodeBody s := rfl
    obtain ⟨x, hx, h⟩ | ⟨f, hf, h⟩ := completeDecode_cases s
    · exact ⟨_, _, _, h, completeDecode_of_ok (hbody.trans hx), applyDecode_disturbed s w n r x⟩
    · exact ⟨_, _, _, h, completeDecode_of_error (hbody.trans hf), failDecode_disturbed s w n r f⟩
  | validate => exact ⟨_, _, none, rfl, rfl, applyValidate_disturbed s w n r⟩
  | verify =>
    have hbody : decodeBody (s.disturbed w n r) = decodeBody s := rfl
    obtain ⟨x, hx, h⟩ | ⟨f, hf, h⟩ := completeVerify_cases s
    · exact ⟨_, _, _, h, completeVerify_of_ok (hbody.trans hx), reportDecoded_applyDecode_disturbed s w n r x⟩
    · have hcaps : (failDecode (s.disturbed w n r) f).caps = (failDecode s f).caps := by
        rw [failDecode_caps, failDecode_caps]
        rfl
      exact ⟨_, _, _, h, completeVerify_of_error (hbody.trans hf),
        (failDecode_disturbed s w n r f).reportUndecoded hcaps f.error⟩

/-- Settles O48: what a transaction leaves different is none of what the body reads, and the completion step records
the body's error over whatever STATUS it finds. -/
theorem latencyChangesNoResult : Obligations.LatencyChangesNoResult := by
  intro s t c i hp h
  have ht := engineTurn_of_busy (exec_phase_of_busy h hp)
  obtain ⟨w, n, r, rfl⟩ := exec_of_busy_eq_disturbed hp h
  obtain ⟨u, v, e, hu, hv, hsame⟩ := completionStep_disturbed c s w n r
  have hdone := hsame.complete e
  simp only [engineTurn_of_busy hp, ht, hu, hv]
  refine ⟨hdone.regs, ?_, ?_, ?_, hdone.msg, hdone.ctr, hdone.freq, hdone.node, hdone.code, hdone.decCells⟩
  · simp only [State.complete_regs, completionStatus_eq, statusErr_pack]
  · simp only [State.complete_regs, completionStatus_eq, statusDetail_pack]
  · simp only [State.complete_regs, completionStatus_eq, statusDone_pack]

end Sys2Proof.Machine
end

section
/-! PROOFS. The free-value indices stay below the next one (log 3; 93_implementation_defined.md I2 to I4). -/

namespace Sys2Proof.Machine

/-- Every free-value index the buffer uses is below `n`. -/
def Buffer.EpochsBelow (b : Buffer) (n : Nat) : Prop := b.epoch < n ∧ ∀ m ∈ b.marks, m.2 < n

theorem freeValuesFresh_iff (s : State) :
    FreeValuesFresh s ↔ s.mem.msg.EpochsBelow s.fresh ∧ s.mem.ctr.EpochsBelow s.fresh ∧ s.mem.dec.EpochsBelow s.fresh :=
  Iff.rfl

theorem Buffer.EpochsBelow.mono {b : Buffer} {n k : Nat} (h : b.EpochsBelow n) (hnk : n ≤ k) : b.EpochsBelow k := by
  obtain ⟨hepoch, hmarks⟩ := h
  exact ⟨hepoch.trans_le hnk, fun m hm => (hmarks m hm).trans_le hnk⟩

theorem Buffer.EpochsBelow.store {b : Buffer} {n : Nat} (h : b.EpochsBelow n) (start : Nat) (k : List Byte) :
    (b.store start k).EpochsBelow n := by
  rwa [Buffer.EpochsBelow, Buffer.store_epoch, Buffer.store_marks]

theorem Buffer.EpochsBelow.hostSet {b : Buffer} {n : Nat} (h : b.EpochsBelow n) (cap i : Nat) (data : Word) :
    (b.hostSet cap i data).EpochsBelow n := by
  unfold Buffer.hostSet
  split <;> exact h

theorem Buffer.epochsBelow_unspecified {e n : Nat} (h : e < n) : (Buffer.unspecified e).EpochsBelow n :=
  ⟨h, fun _ hm => absurd hm List.not_mem_nil⟩

/-- Bytes forgotten under the next unused index leave that index in use, and the one after it unused. -/
theorem Buffer.EpochsBelow.forgetBelow {b : Buffer} {n : Nat} (h : b.EpochsBelow n) (limit : Nat) :
    (b.forgetBelow limit n).EpochsBelow (n + 1) := by
  obtain ⟨hepoch, hmarks⟩ := h.mono n.le_succ
  refine ⟨hepoch, fun m hm => ?_⟩
  obtain rfl | hm := List.mem_cons.1 hm
  · exact n.lt_succ_self
  · exact hmarks m (List.mem_of_mem_filter hm)

theorem WriteEffect.freeValuesFresh {s u : State} {i : Instr} (hw : WriteEffect s i u) (h : FreeValuesFresh s) :
    FreeValuesFresh u := by
  obtain ⟨hmsg, hctr, hdec⟩ := (freeValuesFresh_iff s).1 h
  cases hw with
  | ignored | regs | bad | start => exact h
  | msg index data => exact ⟨hmsg.hostSet _ _ _, hctr, hdec⟩
  | ctr index data => exact ⟨hmsg, hctr.hostSet _ _ _, hdec⟩

theorem applyEncode_freeValuesFresh {s : State} (h : FreeValuesFresh s) (r : EncodeResult) :
    FreeValuesFresh (applyEncode s r) := by
  obtain ⟨hmsg, hctr, hdec⟩ := (freeValuesFresh_iff s).1 h
  exact ⟨hmsg, hctr.store _ _, hdec⟩

theorem applyDecode_freeValuesFresh {s : State} (h : FreeValuesFresh s) (r : DecodeResult) :
    FreeValuesFresh (applyDecode s r) := by
  obtain ⟨hmsg, hctr, hdec⟩ := (freeValuesFresh_iff s).1 h
  exact ⟨hmsg, hctr, hdec.store _ _⟩

theorem failDecode_freeValuesFresh {s : State} (h : FreeValuesFresh s) (f : DecodeFailure) :
    FreeValuesFresh (failDecode s f) := by
  obtain ⟨-, hf⟩ | ⟨total, -, hf⟩ := failDecode_cases s f <;> rw [hf]
  · exact h
  · obtain ⟨hmsg, hctr, hdec⟩ := (freeValuesFresh_iff s).1 h
    exact ⟨hmsg.mono s.fresh.le_succ, hctr.mono s.fresh.le_succ, hdec.forgetBelow total⟩

/-- A store uses no index, DECODE's failure rule takes the next one, and a report writes registers alone. -/
theorem completionStep_freeValuesFresh {s : State} (h : FreeValuesFresh s) (c : Command) :
    FreeValuesFresh (completionStep c s) := by
  cases c with
  | encode =>
    obtain ⟨r, -, hc⟩ | ⟨e, -, hc⟩ := completeEncode_cases s <;> rw [completionStep, hc]
    · exact applyEncode_freeValuesFresh h r
    · exact h
  | decode =>
    obtain ⟨r, -, hc⟩ | ⟨f, -, hc⟩ := completeDecode_cases s <;> rw [completionStep, hc]
    · exact applyDecode_freeValuesFresh h r
    · exact failDecode_freeValuesFresh h f
  | validate => exact h
  | verify =>
    obtain ⟨r, -, hc⟩ | ⟨f, -, hc⟩ := completeVerify_cases s <;> rw [completionStep, hc]
    · rw [reportDecoded_eq_reportVerify]
      exact applyDecode_freeValuesFresh h r
    · exact failDecode_freeValuesFresh h f

theorem resetInput_fresh_of_idle {s : State} (h : s.phase = .idle) : s.resetInput.fresh = s.fresh :=
  if_neg (by rw [State.isBusy_of_idle h]; decide)

theorem resetInput_fresh_of_busy {s : State} {c : Command} (h : s.phase = .busy c) :
    s.resetInput.fresh = s.fresh + 2 :=
  if_pos (State.isBusy_of_busy h)

theorem resetInput_freeValuesFresh {s : State} (h : FreeValuesFresh s) : FreeValuesFresh s.resetInput := by
  rw [freeValuesFresh_iff]
  cases hp : s.phase with
  | idle =>
    rw [resetInput_mem_of_idle hp, resetInput_fresh_of_idle hp]
    exact h
  | busy c =>
    obtain ⟨hmsg, -, -⟩ := (freeValuesFresh_iff s).1 h
    rw [resetInput_mem_of_busy hp, resetInput_fresh_of_busy hp]
    exact ⟨hmsg.mono (by omega), Buffer.epochsBelow_unspecified (by omega), Buffer.epochsBelow_unspecified (by omega)⟩

theorem freeValuesFresh_keptByParts : KeptByParts FreeValuesFresh where
  events _ _ h := h
  response _ _ h := h
  fresh s h := by
    obtain ⟨hmsg, hctr, hdec⟩ := (freeValuesFresh_iff s).1 h
    exact ⟨hmsg.mono s.fresh.le_succ, hctr.mono s.fresh.le_succ, hdec.mono s.fresh.le_succ⟩
  ignoreWrite _ _ _ h := h
  write _ _ _ _ hw h := hw.freeValuesFresh h
  complete _ c _ h := completionStep_freeValuesFresh h c
  reset _ h := resetInput_freeValuesFresh h

/-- Settles O53: a part of a step that makes bytes unspecified names them by the next unused index and takes that index
off; every other part keeps the indices in use. -/
theorem stepKeepsFreeValuesFresh : Obligations.StepKeepsFreeValuesFresh :=
  fun _ _ hs h => freeValuesFresh_keptByParts.step hs h

end Sys2Proof.Machine
end

section
/-! PROOFS. The kinds of step, reads while BUSY, reset and power-up (70_reset_and_hazards.md R137 to R142). -/

namespace Sys2Proof.Machine

/-! ### Steps (R141) -/

theorem step_of_packet {s : State} {p : Packet} {rest : List Event} (h : s.events = .packet p :: rest) :
    step s = exec (decodePacket p) (s.withEvents rest) := by
  rw [step, h]

theorem step_of_engine {s : State} {rest : List Event} (h : s.events = .engine :: rest) :
    step s = .next (engineTurn (s.withEvents rest)) := by
  rw [step, h]

theorem step_of_reset {s : State} {rest : List Event} (h : s.events = .reset :: rest) :
    step s = .next (s.withEvents rest).resetInput := by
  rw [step, h]

theorem step_of_no_event {s : State} (h : s.events = []) : step s = .next (engineTurn s) := by
  rw [step, h]

/-- A table word that decodes is a packet (log 9). -/
theorem packet_of_decodeTableWord {nbits w : Nat} {i : Instr} (h : decodeTableWord nbits w = some i) :
    ∃ p, packetOfTableWord nbits w = some p ∧ decodePacket p = i := by
  unfold decodeTableWord at h
  split at h
  next p hp => exact ⟨p, hp, Option.some.inj h⟩
  next => cases h

theorem withFetchWord_of_packet (s : State) {nbits w : Nat} {p : Packet} (h : packetOfTableWord nbits w = some p) :
    s.withFetchWord nbits w = s.withEvents (.packet p :: s.events) := by
  rw [State.withFetchWord, h]

/-- Settles O5: a packet at the head of the schedule is decoded and run, and `withFetchWord` puts the packet of its word
there. -/
theorem stepRunsDecodedPacket : Obligations.StepRunsDecodedPacket := by
  refine ⟨fun s p rest h => ⟨(encodeDecodeGivesPacketBack p).1, step_of_packet h⟩, fun s nbits w i h => ?_⟩
  obtain ⟨p, hp, rfl⟩ := packet_of_decodeTableWord h
  rw [withFetchWord_of_packet s hp, step_of_packet rfl, State.withEvents_withEvents, State.withEvents_events_self]

/-- Settles O6: both kinds of step are the engine's turn, which is the completion step while BUSY and nothing while
IDLE. -/
theorem stepTakesEngineTurns : Obligations.StepTakesEngineTurns := by
  refine ⟨fun s rest c h hp => ?_, fun s rest h hp => ?_, fun s c h hp => ?_, fun s h hp => ?_⟩
  · rw [step_of_engine h, engineTurn_of_busy (s := s.withEvents rest) hp]
    rfl
  · rw [step_of_engine h, engineTurn_of_idle (s := s.withEvents rest) hp]
    rfl
  · rw [step_of_no_event h, engineTurn_of_busy hp]
  · rw [step_of_no_event h, engineTurn_of_idle hp]

/-! ### Reads while BUSY (R142) -/

/-- While BUSY a truthful STATUS shows BUSY and WIGN alone. -/
theorem StatusTruthful.status_of_busy {s : State} {c : Command} (h : StatusTruthful s) (hp : s.phase = .busy c) :
    s.regs.status = packStatus true false (statusWign s.regs.status) 0 0 := by
  obtain ⟨done, wign, e, hs, hdone, herr⟩ := h
  have hb := State.isBusy_of_busy hp
  obtain rfl := hdone hb
  obtain rfl := herr rfl
  rw [hs, hb, statusWign_pack]
  rfl

/-- A read while BUSY of anything but STATUS and the capacities is a draw. -/
theorem exec_read_of_busy {i : Instr} {s : State} {c : Command} (hp : s.phase = .busy c) (hr : i.isRead = true)
    (h1 : i ≠ .regRd 1) (h19 : i ≠ .regRd 19) (h20 : i ≠ .regRd 20) (h21 : i ≠ .regRd 21) :
    exec i s = .next s.respondDraw := by
  obtain ⟨-, v, -, hexact⟩ | ⟨-, v, h⟩ | ⟨hw, -⟩ := exec_cases i s
  · obtain h | h | h | h := hexact
    · exact absurd h h1
    · exact absurd h h19
    · exact absurd h h20
    · exact absurd h h21
  · rw [h, State.hostRead_of_busy hp]
  · exact absurd (hr.symm.trans hw) (by decide)

/-- Settles O11: four registers read exactly in every phase, and every other read is a host read. -/
theorem readsWhileBusy : Obligations.ReadsWhileBusy := by
  refine fun s c hp => ⟨?_, fun h => h.status_of_busy hp, ?_, ?_, ?_, fun i hr h1 h19 h20 h21 => ?_⟩
  · exact exec_regRd_exact s (by decide)
  · exact exec_regRd_exact s (by decide)
  · exact exec_regRd_exact s (by decide)
  · exact exec_regRd_exact s (by decide)
  · exact exec_read_of_busy hp hr h1 h19 h20 h21

/-! ### Reset and power-up (R138, R139) -/

theorem Buffer.get_unspecified (e a : Nat) : (Buffer.unspecified e).get a = Config.freeByte e a := rfl

theorem resetInput_tables (s : State) :
    s.resetInput.mem.freq = [] ∧ s.resetInput.mem.node = [] ∧ s.resetInput.mem.code = [] := by
  cases hp : s.phase with
  | idle => rw [resetInput_mem_of_idle hp]; exact ⟨rfl, rfl, rfl⟩
  | busy c => rw [resetInput_mem_of_busy hp]; exact ⟨rfl, rfl, rfl⟩

/-- Settles O8: the registers and tables by the reset's own definition, CTR and DEC by the phase it is taken in. -/
theorem resetClearsTheMachine : Obligations.ResetClearsTheMachine := by
  intro s rest h
  obtain ⟨hfreq, hnode, hcode⟩ := resetInput_tables (s.withEvents rest)
  refine ⟨_, step_of_reset h, rfl, rfl, rfl, rfl, fun i => ?_, resetInput_msg _, fun hp => ?_, fun c hp a => ?_⟩
  · rw [hfreq, hnode, hcode]
    exact ⟨rfl, rfl, rfl⟩
  · rw [resetInput_mem_of_idle (s := s.withEvents rest) hp]
    exact ⟨rfl, rfl⟩
  · rw [resetInput_mem_of_busy (s := s.withEvents rest) hp]
    exact ⟨Buffer.get_unspecified _ a, Buffer.get_unspecified _ a⟩

theorem powerUp_readReg_eq_zero (caps : Caps) {i : Nat} (h : i ≤ 18) : (State.powerUp caps).readReg i = 0 := by
  interval_cases i <;> rfl

/-- Settles O9: the map of R23 over registers that are 0 and the capacities, empty tables, and three buffers of which
no byte is known, each under its own index. -/
theorem powerUpValues : Obligations.PowerUpValues := by
  refine ⟨fun caps => ?_, rfl⟩
  refine ⟨rfl, fun i h => powerUp_readReg_eq_zero caps h, rfl, rfl, rfl, fun i h => State.readReg_of_ge _ h,
    fun i => ⟨rfl, rfl, rfl⟩, 0, 1, 2, by decide, by decide, by decide, fun a => ?_⟩
  exact ⟨Buffer.get_unspecified 0 a, Buffer.get_unspecified 1 a, Buffer.get_unspecified 2 a⟩

theorem powerUp_spacesBounded (caps : Caps) : SpacesBounded (State.powerUp caps) := by
  simp [SpacesBounded, State.powerUp, Buffer.unspecified, Regs.zero]

theorem powerUp_freeValuesFresh (caps : Caps) : FreeValuesFresh (State.powerUp caps) :=
  ⟨Buffer.epochsBelow_unspecified (show 0 < 3 by decide), Buffer.epochsBelow_unspecified (show 1 < 3 by decide),
    Buffer.epochsBelow_unspecified (show 2 < 3 by decide)⟩

/-- Settles O54: at power-up every register is 0, no table word and no byte is listed, and three indices are in use. -/
theorem invariantsHoldAtPowerUp : Obligations.InvariantsHoldAtPowerUp := fun caps =>
  ⟨State.powerUp_mem_wf caps, statusTruthful_of_not_done false packStatus_zero.symm, powerUp_spacesBounded caps,
    ⟨resultsClearWhileBusy_of_idle rfl, .inl ⟨rfl, rfl, rfl, rfl, rfl, rfl, rfl, rfl⟩⟩, powerUp_freeValuesFresh caps⟩

end Sys2Proof.Machine
end
